-- ==== Sys2Proof/Word.lean ====
section
/-! DEFINITION. The word types of cEncryption CORE: octets, sextets and 24-bit groups (00_scope.md R8). -/

namespace Sys2Proof

/-- An octet, 0 to 255 (R8). -/
abbrev Byte := BitVec 8

/-- A sextet, 0 to 63: an index into the Base64 alphabet (R8, R12). -/
abbrev Sextet := BitVec 6

/-- The 24-bit value of a Base64 group (R27, R52). -/
abbrev Group := BitVec 24

end Sys2Proof
end

