-- ==== Sys2Proof/Config.lean ====
section
/-! DEFINITION. The three parameters of the block (00_scope.md R6), the sizes they fix, and the free value that
stands for every "unspecified" of the spec (10_state.md R46). -/

namespace Sys2Proof

/-- The parameters of R6, fixed before reset. They are not state of the block (R20): the machine's State carries
them unchanged so that one step function covers every choice of them (notes/assumptions/1). -/
structure Config where
  /-- `LENW`: the width of ILEN; `LENW >= 3` (R6). -/
  lenw : Nat
  /-- `ALPHABET`: the contents of the ALPHA ROM, index to character (R6, R35). -/
  alphabet : Vector Byte 64
  /-- `RC4_PERSIST_CURSORS`: whether RC4PRGA continues from the cursors I and J it finds (R6, R148). -/
  persistCursors : Bool
deriving DecidableEq, Repr

namespace Config

/-- IBUF has `2^LENW` octets (R32). -/
def ibufSize (c : Config) : Nat := 2 ^ c.lenw

/-- OBUF has `2^(LENW+1)` octets (R33). -/
def obufSize (c : Config) : Nat := 2 ^ (c.lenw + 1)

/-- `IMAX = 2^LENW - 1`, the largest value of ILEN (R6, R24). -/
def imax (c : Config) : Nat := 2 ^ c.lenw - 1

/-- `CW = max(LENW+1, 9)`, the width of CNT (R28). -/
def cntWidth (c : Config) : Nat := max (c.lenw + 1) 9

/-- THE FREE VALUE. Draw number `n` of a value of width `w` wherever the spec says a read "returns an unspecified"
octet or value (R46, R59, R60): no body, so nothing in Lean can evaluate it or prove a value of it. The counter it
is applied to is the model's own field `State.draws` (notes/assumptions/2). -/
opaque freeValue : (w : Nat) → (n : Nat) → BitVec w

end Config

end Sys2Proof
end

