-- ==== Sys2Proof/Syntax.lean ====
section
/-! DEFINITION. The commands of the block: one constructor per row of spec/opcode_table.json (30_encoding.md R72).
A command word carries no operand field: every operand is implicit (R71, R73). -/

namespace Sys2Proof

/-- The four commands, in the order of their opcodes (R72). -/
inductive Instr where
  /-- B64ENC, OP = 0: Base64 encode (R100). -/
  | b64enc
  /-- B64DEC, OP = 1: Base64 decode (R110). -/
  | b64dec
  /-- RC4KSA, OP = 2: RC4 key schedule (R130). -/
  | rc4ksa
  /-- RC4PRGA, OP = 3: RC4 transform (R145). -/
  | rc4prga
deriving DecidableEq, Repr

end Sys2Proof
end

