-- ==== Sys2Proof/WellFormed.lean ====
section
/-! DEFINITION. The checks on what stands outside the machine: commands, command words and parameters
(00_scope.md R6, 10_state.md R36, R38, 30_encoding.md R70, R71). -/

namespace Sys2Proof

/-- A command names no register and carries no immediate (R71), so there is nothing to check in one. -/
def Instr.wf : Instr → Bool
  | .b64enc => true
  | .b64dec => true
  | .rc4ksa => true
  | .rc4prga => true

/-- The canonical command word: "reserved | ignored by the decoder; the host should write 0" (R70). The decoder
accepts every word; this check only says which words a careful host writes. -/
def canonicalWord (v : BitVec 8) : Bool := v.extractLsb' 2 6 == 0#6

/-- The padding character `=` (R7, R38). -/
def pad : Byte := 0x3D#8

/-- The fifteen alphabet entries the source's own vector forces (R36): index and octet. -/
def pinnedEntries : List (Nat × Byte) :=
  [(2, 0x43#8), (4, 0x45#8), (6, 0x47#8), (8, 0x49#8), (9, 0x4A#8), (13, 0x4E#8), (18, 0x53#8), (20, 0x55#8)]
  ++ [(21, 0x56#8), (27, 0x62#8), (28, 0x63#8), (33, 0x68#8), (44, 0x73#8), (54, 0x32#8), (60, 0x38#8)]

namespace Config

/-- `LENW >= 3` (R6). -/
def lenwOk (c : Config) : Bool := decide (3 ≤ c.lenw)

/-- Every alphabet entry is a printable ASCII code, 0x20 to 0x7E (R6). -/
def alphabetPrintable (c : Config) : Bool :=
  c.alphabet.toList.all fun b => decide (0x20 ≤ b.toNat) && decide (b.toNat ≤ 0x7E)

/-- "all 64 distinct" (R6). -/
def alphabetDistinct (c : Config) : Bool := decide c.alphabet.toList.Nodup

/-- "none equal to 0x3D (`=`)" (R6, R38). -/
def alphabetNoPad (c : Config) : Bool := decide (pad ∉ c.alphabet.toList)

/-- The fifteen entries of R36 have the values given there. -/
def alphabetPinned (c : Config) : Bool :=
  pinnedEntries.all fun e => decide (c.alphabet.toList[e.1]? = some e.2)

/-- All constraints of R6 on the parameters. -/
def wf (c : Config) : Bool :=
  c.lenwOk && c.alphabetPrintable && c.alphabetDistinct && c.alphabetNoPad && c.alphabetPinned

end Config

end Sys2Proof
end

