-- ==== Sys2Proof/Decode.lean ====
section
/-! DEFINITION. The command word: decoder and encoder (30_encoding.md R70 to R72, R75, R79). -/

namespace Sys2Proof

/-- The opcode field of the map of R72, bits 1:0. -/
def opcode : Instr → BitVec 2
  | .b64enc => 0#2
  | .b64dec => 1#2
  | .rc4ksa => 2#2
  | .rc4prga => 3#2

/-- The four-way match of R79 on `OP`: every value of the field is an opcode (R72). -/
def ofOpcode (op : BitVec 2) : Instr :=
  if op = 0#2 then .b64enc else if op = 1#2 then .b64dec else if op = 2#2 then .rc4ksa else .rc4prga

/-- The decoder: "the decoder's whole work is `OP <- v[1:0]`" (R71); bits 7:2 are ignored (R70, R75). -/
def decode (v : BitVec 8) : Instr := ofOpcode (v.extractLsb' 0 2)

/-- Why a list of bytes holds no command: the only way is that no command word is there (R75: no word is illegal). -/
inductive DecodeReject where
  /-- The list of bytes is empty. -/
  | noCommandWord
deriving DecidableEq, Repr

/-- The decoder on any bytes: one octet is one command (R70: one format, one length); the rest is handed back. -/
def decodeBytes : List Byte → Except DecodeReject (Instr × List Byte)
  | [] => .error .noCommandWord
  | v :: rest => .ok (decode v, rest)

/-- What a value written to CMD starts: "A value wider than 8 bits written to CMD is truncated to its low 8 bits"
(R70). -/
def commandOf (v : Nat) : Instr := decode (BitVec.ofNat 8 v)

/-- The encoder, from the format of R70: reserved bits 7:2 written as 0, the opcode of R72 in bits 1:0. -/
def encode (i : Instr) : BitVec 8 := 0#6 ++ opcode i

/-- The host's view of the decoder: a table row's `nbits` bits `w`, the bits above them zero, laid out as the one
octet of a command word. -/
def decodeTableWord (nbits w : Nat) : Option Instr :=
  match decodeBytes [BitVec.ofNat 8 (w % 2 ^ nbits)] with
  | .ok (i, _) => some i
  | .error _ => none

end Sys2Proof
end

