-- ==== Sys2Proof/Machine/Rom.lean ====
section
/-! DEFINITION. The look-up tables ALPHA and REV (10_state.md R35, R37) and the default parameters (00_scope.md R6). -/

namespace Sys2Proof.Machine

/-- The default contents of ALPHA: the standard Base64 alphabet, the table of R35, sixteen entries a line. -/
def defaultAlphabet : Vector Byte 64 :=
  #v[0x41, 0x42, 0x43, 0x44, 0x45, 0x46, 0x47, 0x48, 0x49, 0x4A, 0x4B, 0x4C, 0x4D, 0x4E, 0x4F, 0x50,
     0x51, 0x52, 0x53, 0x54, 0x55, 0x56, 0x57, 0x58, 0x59, 0x5A, 0x61, 0x62, 0x63, 0x64, 0x65, 0x66,
     0x67, 0x68, 0x69, 0x6A, 0x6B, 0x6C, 0x6D, 0x6E, 0x6F, 0x70, 0x71, 0x72, 0x73, 0x74, 0x75, 0x76,
     0x77, 0x78, 0x79, 0x7A, 0x30, 0x31, 0x32, 0x33, 0x34, 0x35, 0x36, 0x37, 0x38, 0x39, 0x2B, 0x2F]

/-- The default parameters of R6: `LENW = 12`, the table of R35, `RC4_PERSIST_CURSORS = false`. -/
def defaultConfig : Config where
  lenw := 12
  alphabet := defaultAlphabet
  persistCursors := false

/-- A read of the ALPHA ROM: every 6-bit index names an entry (R35, R50). -/
def alpha (c : Config) (k : Sextet) : Byte := c.alphabet.get ⟨k.toNat, k.isLt⟩

/-- A read of the REV ROM (R37): `some k` is the entry `(1, k)`, `none` is `(0, -)`. It is total on the 256 octets:
the index of the character in ALPHA, or not valid. -/
def rev (c : Config) (ch : Byte) : Option Sextet :=
  if ch ∈ c.alphabet.toList then some (BitVec.ofNat 6 (c.alphabet.toList.idxOf ch)) else none

end Sys2Proof.Machine
end

