-- ==== Sys2Proof/Machine/State.lean ====
section
/-! DEFINITION. The state of the block (10_state.md R20), the host agent's pending turns and what its reads returned
(00_scope.md R11, 70_reset_and_hazards.md R216), the reasons a step can stop, and the state after reset (R45). -/

namespace Sys2Proof.Machine

/-- One RAM of the block: the entries whose contents are specified, as (index, octet), indices strictly rising. An
index that is not listed is "unwritten" (R46): it has no value, and a read of it is a free draw. -/
abbrev Memory := List Host.Cell

/-- The canonical form of a RAM: indices strictly rising. No entry can equal what an unlisted index reads as, since
that is no value at all. -/
abbrev Memory.wf (m : Memory) : Prop := m.Pairwise (fun p q => p.1 < q.1)

/-- The four values of the ERR field (R23, R170). -/
inductive ErrCode where
  /-- 0: no error. -/
  | none
  /-- 1: InvalidLength, raised by B64DEC. -/
  | invalidLength
  /-- 2: InvalidCharacter, raised by B64DEC. -/
  | invalidCharacter
  /-- 3: InvalidKey, raised by RC4KSA. -/
  | invalidKey
deriving DecidableEq, Repr

/-- The sub-phase of the running command (R30). The 2-bit code 3 never occurs and has no constructor (U16). -/
inductive Sub where
  /-- 0: preconditions and set-up. -/
  | check
  /-- 1: the identity fill, RC4KSA only. -/
  | fill
  /-- 2: the loop and the completion step. -/
  | run
deriving DecidableEq, Repr

/-- The control and status registers, by their 2-bit numbers 0 to 3 (R40). -/
inductive CsrReg where
  /-- 0, CMD: a write port; a read returns 0. -/
  | cmd
  /-- 1, STATUS: read-only. -/
  | status
  /-- 2, ILEN: read and write. -/
  | ilen
  /-- 3, OLEN: read-only. -/
  | olen
deriving DecidableEq, Repr

/-- What a host access names: a space the host can reach and an index into it (R57). -/
inductive Port where
  /-- A control or status register. -/
  | csr (r : CsrReg)
  /-- An entry of the input buffer. -/
  | ibuf (k : Nat)
  /-- An entry of the output buffer. -/
  | obuf (k : Nat)
  /-- An entry of the S-box. -/
  | sbox (k : Nat)
deriving DecidableEq, Repr

/-- One turn of the interleaving of the two agents (R11, R57, R61): a host access, the reset input, or an engine
step the host lets pass before its next access. -/
inductive Turn where
  /-- `HostRead(space, k)` (R60). -/
  | read (p : Port)
  /-- `HostWrite(space, k, v)` (R58). A write of CMD is an acceptance: the engine's steps follow one by one (R74). -/
  | write (p : Port) (v : Nat)
  /-- `RUN` (R78): a CMD write of `v` and the WAIT that follows it, the command's steps merged into one (R10, R219). -/
  | run (v : Nat)
  /-- `WAIT` (R77): poll STATUS until DONE; the engine steps while the poll sees BUSY. -/
  | wait
  /-- The reset input (R200). -/
  | reset
  /-- The engine takes its next step, if it has one (R61, R80). -/
  | engine
deriving DecidableEq, Repr

/-- What one host read returned (R216). -/
structure Reading where
  /-- What was read. -/
  port : Port
  /-- The value the read returned. -/
  value : Nat
deriving DecidableEq, Repr

/-- The state. Fields `busy` to `sbox` are the block's (R20; ALPHA and REV are fixed by `cfg`); `cfg` is the
parameters of R6; `script` and `reads` are the host agent's; `draws` counts the free values used so far. -/
@[ext]
structure State where
  /-- The parameters (R6); no step changes them. -/
  cfg : Config
  /-- BUSY: a command is running (R21). -/
  busy : Bool
  /-- DONE: a command has completed and its result stands (R21). -/
  done : Bool
  /-- ERR: the result code of the last completed command (R23). -/
  err : ErrCode
  /-- OP: the running or last command (R22). -/
  op : Instr
  /-- ILEN, `LENW` bits (R24). -/
  ilen : Nat
  /-- OLEN, `LENW+1` bits (R25). -/
  olen : Nat
  /-- I, the RC4 cursor (R26). -/
  i : Byte
  /-- J, the RC4 running index (R26). -/
  j : Byte
  /-- ACC, the 24-bit group register (R27). -/
  acc : Group
  /-- CNT, the sequencer's counter, `max(LENW+1, 9)` bits (R28). -/
  cnt : Nat
  /-- SUB, the sub-phase (R30). -/
  sub : Sub
  /-- NOUT, the output length of the running decode, `LENW+1` bits (R31). -/
  nout : Nat
  /-- IBUF, `2^LENW` octets (R32). -/
  ibuf : Memory
  /-- OBUF, `2^(LENW+1)` octets (R33). -/
  obuf : Memory
  /-- SBOX, 256 octets (R34). -/
  sbox : Memory
  /-- The model's own: the turns still to come, first one first. -/
  script : List Turn
  /-- The model's own: what the host's reads returned, oldest first. -/
  reads : List Reading
  /-- The model's own: how many free values have been drawn. -/
  draws : Nat
deriving DecidableEq, Repr

/-- Why the machine stops with a fault. -/
inductive Fault where
  /-- The engine has no row of R80 for the sequencer state: a counter past its bound, a SUB that is not the
  command's, or BUSY and DONE together. Raised by an engine step; no state that a run from reset reaches raises it
  (U16: "stuck"). Safe. -/
  | noSequencerRow
  /-- A host turn names an index its space does not have (R50: the index widths are exact, so there is no such
  access). Raised by a host turn. Safe. -/
  | indexOutOfRange
deriving DecidableEq, Repr

/-- Why the machine refuses an instruction. -/
inductive Refusal where
  /-- The command has no meaning in the model. Raised by no arm of exec: every command of the table is modelled.
  Safe. -/
  | notModelled (mnemonic : String)
deriving DecidableEq, Repr

/-- The three outcomes of a step, over this machine's types. -/
abbrev Result := Host.Outcome State Fault Refusal

/-- The state after reset with the parameters `c` (R45): registers zero, phase IDLE, memories unspecified (nothing
listed). The host's script and readings are empty and no free value has been drawn. -/
def State.resetWith (c : Config) : State where
  cfg := c
  busy := false
  done := false
  err := .none
  op := .b64enc
  ilen := 0
  olen := 0
  i := 0#8
  j := 0#8
  acc := 0#24
  cnt := 0
  sub := .check
  nout := 0
  ibuf := []
  obuf := []
  sbox := []
  script := []
  reads := []
  draws := 0

/-- The state after reset at the default parameters of R6. -/
def State.reset : State := State.resetWith defaultConfig

end Sys2Proof.Machine
end

