-- ==== Sys2Proof/Machine/Flags.lean ====
section
/-! DEFINITION. The flags and the STATUS register: there are no arithmetic flags (10_state.md R39); BUSY, DONE, ERR
and OP are written by acceptance, completion and reset only (60_exceptions.md R180). -/

namespace Sys2Proof.Machine

/-- The number of an error code in the ERR field (R170). -/
def errNumber : ErrCode → BitVec 2
  | .none => 0#2
  | .invalidLength => 1#2
  | .invalidCharacter => 2#2
  | .invalidKey => 3#2

/-- The STATUS register (R41): bits 7:6 zero, 5:4 OP, 3:2 ERR, bit 1 DONE, bit 0 BUSY. -/
def State.status (s : State) : BitVec 8 :=
  0#2 ++ opcode s.op ++ errNumber s.err ++ BitVec.ofBool s.done ++ BitVec.ofBool s.busy

/-- What acceptance of command `i` does to the flags (R74, R180). -/
def State.flagsAccept (s : State) (i : Instr) : State :=
  { s with op := i, err := .none, done := false, busy := true }

/-- What a completion step with code `e` does to the flags (R80 "complete", R175, R180). -/
def State.flagsComplete (s : State) (e : ErrCode) : State :=
  { s with err := e, busy := false, done := true }

end Sys2Proof.Machine
end

