-- ==== Sys2Proof/Machine/Ops.lean ====
section
/-! DEFINITION. The shared operations: RAM entries (20_memory.md R50, R55), the draw of a free value (10_state.md
R46), acceptance (30_encoding.md R74), completion (R80) and `raise` (60_exceptions.md R175), which is this block's
taking of an exception: there is no return from one (R179). -/

namespace Sys2Proof.Machine

/-- The octet at index `a`, if it is written (R46). -/
def Memory.get : Memory → Nat → Option Byte
  | [], _ => none
  | (k, b) :: rest, a => if a = k then some b else if a < k then none else Memory.get rest a

/-- Write the octet `b` at index `a`, keeping the canonical form. -/
def Memory.set : Memory → Nat → Byte → Memory
  | [], a, b => [(a, b)]
  | (k, v) :: rest, a, b =>
    if a = k then (a, b) :: rest
    else if a < k then (a, b) :: (k, v) :: rest
    else (k, v) :: Memory.set rest a b

/-- Make index `a` unwritten, keeping the canonical form. -/
def Memory.erase : Memory → Nat → Memory
  | [], _ => []
  | (k, v) :: rest, a =>
    if a = k then rest else if a < k then (k, v) :: rest else (k, v) :: Memory.erase rest a

/-- Give index `a` the content `o`: an octet, or unwritten. -/
def Memory.put (m : Memory) (a : Nat) (o : Option Byte) : Memory :=
  match o with
  | some b => m.set a b
  | none => m.erase a

/-- Write the octets `bs` at `a`, `a+1`, ... in order (R51). -/
def Memory.setList (m : Memory) (a : Nat) : List Byte → Memory
  | [] => m
  | b :: bs => Memory.setList (m.set a b) (a + 1) bs

/-- `swap(S[a], S[b])` (R8): "exchanges the two elements; when `a = b` it changes nothing". The contents are
exchanged as they are: an unwritten content moves and stays unwritten (notes/assumptions/3). -/
def Memory.swap (m : Memory) (a b : Nat) : Memory :=
  if a = b then m else (m.put a (m.get b)).put b (m.get a)

/-- Draw a free value of width `w` (R46): each draw is a fresh one. -/
def State.draw (s : State) (w : Nat) : BitVec w × State :=
  (Config.freeValue w s.draws, { s with draws := s.draws + 1 })

/-- What a read of a RAM entry with content `o` returns: the octet written there, or a free draw (R46). -/
def State.readEntry (s : State) (o : Option Byte) : Byte × State :=
  match o with
  | some b => (b, s)
  | none => s.draw 8

/-- Repeat an engine action `n` times. -/
def repeatStep : Nat → (State → State) → State → State
  | 0, _, s => s
  | n + 1, f, s => repeatStep n f (f s)

/-- Acceptance of command `i` (R74): the flags, `OLEN <- 0`, `CNT <- 0`, `SUB <- CHECK`, and nothing else. -/
def State.accept (s : State) (i : Instr) : State :=
  { s.flagsAccept i with olen := 0, cnt := 0, sub := .check }

/-- A completion step (R80): `BUSY <- 0; DONE <- 1` with the given ERR and OLEN. -/
def State.complete (s : State) (e : ErrCode) (n : Nat) : State :=
  { s.flagsComplete e with olen := n }

/-- `raise Err(code)` (R175): `ERR <- code; OLEN <- 0; BUSY <- 0; DONE <- 1`, and nothing else. -/
def State.raise (s : State) (e : ErrCode) : State := s.complete e 0

end Sys2Proof.Machine
end

