-- ==== Sys2Proof/Machine/Operands.lean ====
section
/-! DEFINITION. The implicit operands of the commands (30_encoding.md R73): the engine's reads of IBUF and the S-box,
the groups the packer and the unpacker take from IBUF (20_memory.md R51, R52), and the classification of a character
(40_base64.md R114). -/

namespace Sys2Proof.Machine

/-- The engine's read of `IBUF[k]`, one octet (R55). -/
def State.readIbuf (s : State) (k : Nat) : Byte × State := s.readEntry (s.ibuf.get k)

/-- The engine's read of `S[k]`; every S index is an octet and so in range (R151). -/
def State.readSbox (s : State) (k : Byte) : Byte × State := s.readEntry (s.sbox.get k.toNat)

/-- `G = ceil(ILEN / 3)`, the number of encode groups, as `(ILEN + 2) / 3` rounded down (R106). -/
def encodeGroups (ilen : Nat) : Nat := (ilen + 2) / 3

/-- `Q = ILEN / 4`, the number of decode groups (R80). -/
def decodeGroups (ilen : Nat) : Nat := ilen / 4

/-- `r = min(3, ILEN - 3g)`, the bytes available in encode group `g` (R100, R104). -/
def groupSize (ilen g : Nat) : Nat := min 3 (ilen - 3 * g)

/-- The 24-bit value of encode group `g`: the available bytes, first one most significant, "a missing byte counts as
zero in the arithmetic"; no entry at or beyond ILEN is read (R100, R104). -/
def State.packInput (s : State) (g : Nat) : Group × State :=
  let p := 3 * g
  let r := groupSize s.ilen g
  let x0 := s.readIbuf p
  let x1 := if 2 ≤ r then x0.2.readIbuf (p + 1) else (0#8, x0.2)
  let x2 := if r = 3 then x1.2.readIbuf (p + 2) else (0#8, x1.2)
  (x0.1 ++ x1.1 ++ x2.1, x2.2)

/-- Sextet number `m` of a group, from the most significant end: 23:18, 17:12, 11:6, 5:0 (R27, R52). -/
def sextetOf (acc : Group) (m : Nat) : Sextet := acc.extractLsb' (18 - 6 * m) 6

/-- Byte number `m` of a group, from the most significant end: 23:16, 15:8, 7:0 (R27, R52). -/
def byteOf (acc : Group) (m : Nat) : Byte := acc.extractLsb' (16 - 8 * m) 8

/-- The four characters of a group of `r` bytes: the third is PAD unless `r >= 2`, the fourth unless `r = 3` (R104). -/
def groupText (c : Config) (acc : Group) (r : Nat) : List Byte :=
  [ alpha c (sextetOf acc 0)
  , alpha c (sextetOf acc 1)
  , if 2 ≤ r then alpha c (sextetOf acc 2) else pad
  , if r = 3 then alpha c (sextetOf acc 3) else pad ]

/-- The three bytes of a group, in output order (R115). -/
def groupBytes (acc : Group) : List Byte := [byteOf acc 0, byteOf acc 1, byteOf acc 2]

/-- `sx(c)` (R114): 0 for PAD, tested first; the REV index of an alphabet character; none for an invalid one. -/
def sextetValue (c : Config) (ch : Byte) : Option Sextet := if ch = pad then some 0#6 else rev c ch

/-- The four characters of decode group `g`, each read once and in text order (R110, R116). -/
def State.readText (s : State) (g : Nat) : (Byte × Byte × Byte × Byte) × State :=
  let x0 := s.readIbuf (4 * g)
  let x1 := x0.2.readIbuf (4 * g + 1)
  let x2 := x1.2.readIbuf (4 * g + 2)
  let x3 := x2.2.readIbuf (4 * g + 3)
  ((x0.1, x1.1, x2.1, x3.1), x3.2)

/-- The 24-bit value of four characters, first one most significant; none when one of them is invalid (R115, R116). -/
def unpackText (c : Config) (t : Byte × Byte × Byte × Byte) : Option Group :=
  match sextetValue c t.1, sextetValue c t.2.1, sextetValue c t.2.2.1, sextetValue c t.2.2.2 with
  | some a, some b, some d, some e => some (a ++ b ++ d ++ e)
  | _, _, _, _ => none

/-- What a character subtracts from the output length when it is one of the last two (R113). -/
def padCount (ch : Byte) : Nat := if ch = pad then 1 else 0

/-- The length check of B64DEC: "a positive multiple of 4" (R112). -/
def lengthBad (ilen : Nat) : Bool := ilen == 0 || ilen % 4 != 0

end Sys2Proof.Machine
end

