-- ==== Sys2Proof/Machine/Base64.lean ====
section
/-! DEFINITION. The Base64 unit (40_base64.md): the engine's steps of B64ENC and B64DEC, one atomic action each, and
the two commands as whole operations (R100, R110). The loop body of each operation is the group step itself (R107,
R122), so both levels share it. -/

namespace Sys2Proof.Machine

/-- R103, and the `SUB <- RUN` of every CHECK step that passes. -/
def State.enterRun (s : State) : State := { s with sub := .run }

/-- The B64ENC group step (R104): pack group `CNT` into ACC, write its four characters, `CNT <- CNT + 1`. -/
def encodeStep (s : State) : State :=
  let x := s.packInput s.cnt
  { x.2 with
    acc := x.1
    obuf := x.2.obuf.setList (4 * s.cnt) (groupText s.cfg x.1 (groupSize s.ilen s.cnt))
    cnt := s.cnt + 1 }

/-- The B64ENC completion step (R105): `OLEN <- 4 * CNT; ERR <- 0; BUSY <- 0; DONE <- 1`. -/
def encodeFinish (s : State) : State := s.complete .none (4 * s.cnt)

/-- One engine step of B64ENC, the rows of R80: CHECK (R103), group (R104), completion (R105). -/
def tickB64enc (s : State) : Result :=
  match s.sub with
  | .check => .next s.enterRun
  | .fill => .fault .noSequencerRow
  | .run =>
    if s.cnt < encodeGroups s.ilen then .next (encodeStep s)
    else if s.cnt = encodeGroups s.ilen then .next (encodeFinish s)
    else .fault .noSequencerRow

/-- B64ENC, operation level (R100): acceptance, every group in order, completion. A command word written while BUSY
is ignored (R74). -/
def execB64enc (s : State) : Result :=
  if s.busy then .next s
  else .next (encodeFinish (repeatStep (encodeGroups s.ilen) encodeStep (s.accept .b64enc).enterRun))

/-- The B64DEC set-up step (R113): NOUT is `3 * (ILEN / 4)` less 1 for each of the last two characters that is PAD
(the last one read first), then `SUB <- RUN`. -/
def decodeSetup (s : State) : State :=
  let x := s.readIbuf (s.ilen - 1)
  let y := x.2.readIbuf (s.ilen - 2)
  { y.2 with nout := 3 * decodeGroups s.ilen - padCount x.1 - padCount y.1, sub := .run }

/-- The B64DEC group step on a group with the 24-bit value `v` (R115): ACC, the bytes of the group at indices below
NOUT, `CNT <- CNT + 1`. -/
def decodeStep (v : Group) (s : State) : State :=
  { s with
    acc := v
    obuf := s.obuf.setList (3 * s.cnt) ((groupBytes v).take (s.nout - 3 * s.cnt))
    cnt := s.cnt + 1 }

/-- The B64DEC completion step (R117): `OLEN <- NOUT; ERR <- 0; BUSY <- 0; DONE <- 1`. -/
def decodeFinish (s : State) : State := s.complete .none s.nout

/-- One engine step of B64DEC, the rows of R80: CHECK (R112, R113), group (R115, R116), completion (R117). -/
def tickB64dec (s : State) : Result :=
  match s.sub with
  | .check => if lengthBad s.ilen then .next (s.raise .invalidLength) else .next (decodeSetup s)
  | .fill => .fault .noSequencerRow
  | .run =>
    if s.cnt < decodeGroups s.ilen then
      let x := s.readText s.cnt
      match unpackText s.cfg x.1 with
      | some v => .next (decodeStep v x.2)
      | none => .next (x.2.raise .invalidCharacter)
    else if s.cnt = decodeGroups s.ilen then .next (decodeFinish s)
    else .fault .noSequencerRow

/-- The group loop of R110 over the next `n` groups, then the completion; it ends at the first group that holds an
invalid character. -/
def decodeLoop : Nat → State → State
  | 0, s => decodeFinish s
  | n + 1, s =>
    let x := s.readText s.cnt
    match unpackText s.cfg x.1 with
    | some v => decodeLoop n (decodeStep v x.2)
    | none => x.2.raise .invalidCharacter

/-- B64DEC, operation level (R110): acceptance, the length check, the output length, every group in order. A command
word written while BUSY is ignored (R74). -/
def execB64dec (s : State) : Result :=
  if s.busy then .next s
  else if lengthBad s.ilen then .next ((s.accept .b64dec).raise .invalidLength)
  else .next (decodeLoop (decodeGroups s.ilen) (decodeSetup (s.accept .b64dec)))

end Sys2Proof.Machine
end

