-- ==== Sys2Proof/Machine/Rc4.lean ====
section
/-! DEFINITION. The RC4 units (41_rc4_ksa.md, 42_rc4_prga.md): the engine's steps of RC4KSA and RC4PRGA, one atomic
action each, and the two commands as whole operations (R130, R145). The loop bodies of each operation are the engine's
steps themselves (R140, R158), so both levels share them. -/

namespace Sys2Proof.Machine

/-- The RC4KSA CHECK step with a key (R132): `J <- 0; SUB <- FILL`. -/
def keySetup (s : State) : State := { s with j := 0#8, sub := .fill }

/-- An RC4KSA FILL step (R133): `S[CNT] <- CNT; CNT <- CNT + 1`, the low 8 bits of CNT being the value written. -/
def fillStep (s : State) : State :=
  { s with sbox := s.sbox.set s.cnt (BitVec.ofNat 8 s.cnt), cnt := s.cnt + 1 }

/-- The RC4KSA step that ends the fill (R133): `CNT <- 0; SUB <- RUN`. -/
def fillFinish (s : State) : State := { s with cnt := 0, sub := .run }

/-- An RC4KSA mixing step (R134), with `n = CNT`: `J <- (J + S[n] + IBUF[n mod ILEN]) mod 256 ; swap(S[n], S[J]) ;
CNT <- n + 1`, in this order. -/
def mixStep (s : State) : State :=
  let x := s.readEntry (s.sbox.get s.cnt)
  let y := x.2.readIbuf (s.cnt % s.ilen)
  let j := s.j + x.1 + y.1
  { y.2 with j := j, sbox := y.2.sbox.swap s.cnt j.toNat, cnt := s.cnt + 1 }

/-- The RC4KSA completion step (R136): `I <- 0; J <- 0; OLEN <- 0; ERR <- 0; BUSY <- 0; DONE <- 1`. -/
def keyFinish (s : State) : State := { s with i := 0#8, j := 0#8 }.complete .none 0

/-- One engine step of RC4KSA, the rows of R80: CHECK (R132), FILL (R133), mixing (R134), completion (R136). -/
def tickRc4ksa (s : State) : Result :=
  match s.sub with
  | .check => if s.ilen = 0 then .next (s.raise .invalidKey) else .next (keySetup s)
  | .fill =>
    if s.cnt < 256 then .next (fillStep s)
    else if s.cnt = 256 then .next (fillFinish s)
    else .fault .noSequencerRow
  | .run =>
    if s.cnt < 256 then .next (mixStep s)
    else if s.cnt = 256 then .next (keyFinish s)
    else .fault .noSequencerRow

/-- RC4KSA, operation level (R130): acceptance, the key check, the identity permutation, the 256 swaps. A command word
written while BUSY is ignored (R74). -/
def execRc4ksa (s : State) : Result :=
  if s.busy then .next s
  else if s.ilen = 0 then .next ((s.accept .rc4ksa).raise .invalidKey)
  else
    let filled := repeatStep 256 fillStep (keySetup (s.accept .rc4ksa))
    .next (keyFinish (repeatStep 256 mixStep (fillFinish filled)))

/-- The RC4PRGA CHECK step (R148): I and J to zero unless the cursors persist, then `SUB <- RUN`. -/
def cursorSetup (s : State) : State :=
  if s.cfg.persistCursors then s.enterRun else { s with i := 0#8, j := 0#8 }.enterRun

/-- An RC4PRGA byte step (R149), with `p = CNT`: the statements of the rule in order. The reads after the swap are
reads of the S after the swap. -/
def byteStep (s : State) : State :=
  let i := s.i + 1#8
  let x := s.readSbox i
  let j := s.j + x.1
  let s1 := { x.2 with i := i, j := j, sbox := x.2.sbox.swap i.toNat j.toNat }
  let a := s1.readSbox i
  let b := a.2.readSbox j
  let d := b.2.readIbuf s.cnt
  let k := d.2.readSbox (a.1 + b.1)
  { k.2 with obuf := k.2.obuf.set s.cnt (d.1 ^^^ k.1), cnt := s.cnt + 1 }

/-- The RC4PRGA completion step (R150): `OLEN <- ILEN; ERR <- 0; BUSY <- 0; DONE <- 1`. -/
def byteFinish (s : State) : State := s.complete .none s.ilen

/-- One engine step of RC4PRGA, the rows of R80: CHECK (R148), byte (R149), completion (R150). -/
def tickRc4prga (s : State) : Result :=
  match s.sub with
  | .check => .next (cursorSetup s)
  | .fill => .fault .noSequencerRow
  | .run =>
    if s.cnt < s.ilen then .next (byteStep s)
    else if s.cnt = s.ilen then .next (byteFinish s)
    else .fault .noSequencerRow

/-- RC4PRGA, operation level (R145): acceptance, the cursors, every data byte in order, completion. A command word
written while BUSY is ignored (R74). -/
def execRc4prga (s : State) : Result :=
  if s.busy then .next s
  else .next (byteFinish (repeatStep s.ilen byteStep (cursorSetup (s.accept .rc4prga))))

end Sys2Proof.Machine
end

