-- ==== Sys2Proof/Machine/Engine.lean ====
section
/-! DEFINITION. The sequencer: one atomic step of the engine (30_encoding.md R80, 10_state.md R29). -/

namespace Sys2Proof.Machine

/-- One engine step. While BUSY, the step of the command OP names (R80); in IDLE and DONE the engine "has no enabled
engine step" and nothing changes (R185, R201). BUSY and DONE together never occur (R21, U16): no row. -/
def engineStep (s : State) : Result :=
  if s.busy then
    if s.done then .fault .noSequencerRow
    else
      match s.op with
      | .b64enc => tickB64enc s
      | .b64dec => tickB64dec s
      | .rc4ksa => tickRc4ksa s
      | .rc4prga => tickRc4prga s
  else .next s

/-- `n` engine steps with no host access between them. -/
def engineRun : Nat → State → Result
  | 0, s => .next s
  | n + 1, s =>
    match engineStep s with
    | .next t => engineRun n t
    | .fault r => .fault r
    | .refused r => .refused r

end Sys2Proof.Machine
end

