-- ==== Sys2Proof/Machine/Access.lean ====
section
/-! DEFINITION. The host's accesses (20_memory.md R57 to R60) and the reset input (70_reset_and_hazards.md R200). -/

namespace Sys2Proof.Machine

/-- The 2-bit number of a control and status register (R40). -/
def csrNumber : CsrReg → BitVec 2
  | .cmd => 0#2
  | .status => 1#2
  | .ilen => 2#2
  | .olen => 3#2

/-- The register a 2-bit number names: "every number is defined" (R40). -/
def csrOfNumber (n : BitVec 2) : CsrReg :=
  if n = 0#2 then .cmd else if n = 1#2 then .status else if n = 2#2 then .ilen else .olen

/-- Whether the access names an entry its space has (R50). -/
def Port.inRange (c : Config) : Port → Bool
  | .csr _ => true
  | .ibuf k => decide (k < c.ibufSize)
  | .obuf k => decide (k < c.obufSize)
  | .sbox k => decide (k < 256)

/-- The width in bits of what a read returns: 8, 8, `LENW`, `LENW+1` for the registers, octets elsewhere (R50). -/
def Port.width (c : Config) : Port → Nat
  | .csr .cmd => 8
  | .csr .status => 8
  | .csr .ilen => c.lenw
  | .csr .olen => c.lenw + 1
  | .ibuf _ => 8
  | .obuf _ => 8
  | .sbox _ => 8

/-- The value a read has by the rules, or none where the spec calls it unspecified. While BUSY only STATUS has one
(R59); otherwise CMD reads 0, `OBUF[k]` has a value only for `k < OLEN`, and an entry never written has none (R60). -/
def State.portValue (s : State) (p : Port) : Option Nat :=
  if s.busy then
    match p with
    | .csr .status => some s.status.toNat
    | .csr .cmd => none
    | .csr .ilen => none
    | .csr .olen => none
    | .ibuf _ => none
    | .obuf _ => none
    | .sbox _ => none
  else
    match p with
    | .csr .cmd => some 0
    | .csr .status => some s.status.toNat
    | .csr .ilen => some s.ilen
    | .csr .olen => some s.olen
    | .ibuf k => (s.ibuf.get k).map BitVec.toNat
    | .obuf k => if k < s.olen then (s.obuf.get k).map BitVec.toNat else none
    | .sbox k => (s.sbox.get k).map BitVec.toNat

/-- Note what a host read returned (R216). -/
def State.record (s : State) (p : Port) (v : Nat) : State := { s with reads := s.reads ++ [⟨p, v⟩] }

/-- `HostRead(space, k)` (R60): the value by the rules, or a free draw of the read's width (R46, R59). It changes
nothing in the block. -/
def hostRead (s : State) (p : Port) : Result :=
  if p.inRange s.cfg then
    match s.portValue p with
    | some v => .next (s.record p v)
    | none => .next ((s.draw (p.width s.cfg)).2.record p (s.draw (p.width s.cfg)).1.toNat)
  else .fault .indexOutOfRange

/-- `HostWrite(space, k, v)` (R58): while BUSY it is ignored (R59); otherwise a write of CMD is an acceptance (R74),
ILEN takes the low `LENW` bits, IBUF the low 8 bits, and every other target ignores it. -/
def hostWrite (s : State) (p : Port) (v : Nat) : Result :=
  if p.inRange s.cfg then
    if s.busy then .next s
    else
      match p with
      | .csr .cmd => .next (s.accept (commandOf v))
      | .csr .status => .next s
      | .csr .ilen => .next { s with ilen := v % 2 ^ s.cfg.lenw }
      | .csr .olen => .next s
      | .ibuf k => .next { s with ibuf := s.ibuf.set k (BitVec.ofNat 8 v) }
      | .obuf _ => .next s
      | .sbox _ => .next s
  else .fault .indexOutOfRange

/-- The reset input (R200): every piece of the block's state takes its value of R45, a running command is abandoned.
The parameters, the host's own turns and readings, and the count of draws are not the block's state and stay. -/
def State.resetInput (s : State) : State :=
  { State.resetWith s.cfg with script := s.script, reads := s.reads, draws := s.draws }

end Sys2Proof.Machine
end

