-- ==== Sys2Proof/Machine/Script.lean ====
section
/-! DEFINITION. The host-script syntax (30_encoding.md R77, R78): the lines of a script and the turns each stands for.
An EXPECT line is "not an action" and has no constructor. -/

namespace Sys2Proof.Machine

/-- The lines of R77 and the pseudo-lines of R78. -/
inductive Line where
  /-- `WR ILEN, n`. -/
  | wrIlen (n : Nat)
  /-- `LD IBUF@a, <octets>`; `LD IBUF, <octets>` is `a = 0`. -/
  | ldIbuf (a : Nat) (octets : List Byte)
  /-- `CMD <mnemonic>`. -/
  | cmd (i : Instr)
  /-- `CMD #v`. -/
  | cmdWord (v : Nat)
  /-- `WAIT`. -/
  | wait
  /-- `RD STATUS`. -/
  | rdStatus
  /-- `RD ILEN`. -/
  | rdIlen
  /-- `RD OLEN`. -/
  | rdOlen
  /-- `RD OBUF[a..b)`. -/
  | rdObuf (a b : Nat)
  /-- `RD IBUF[a..b)`. -/
  | rdIbuf (a b : Nat)
  /-- `RD SBOX[a..b)`. -/
  | rdSbox (a b : Nat)
  /-- `LOAD <octets>`. -/
  | load (octets : List Byte)
  /-- `RUN <mnemonic>`. -/
  | run (i : Instr)
  /-- `ENCODE <octets>`. -/
  | encode (octets : List Byte)
  /-- `DECODE <octets>`. -/
  | decode (octets : List Byte)
  /-- `RC4INIT <key octets>`. -/
  | rc4init (key : List Byte)
  /-- `RC4XFORM <data octets>`. -/
  | rc4xform (data : List Byte)
  /-- `RC4CRYPT <key octets>, <data octets>`. -/
  | rc4crypt (key data : List Byte)
deriving DecidableEq, Repr

/-- The octets of an ASCII string in double quotes: one octet per character (R77, G2). -/
def octetsOf (text : String) : List Byte := text.toList.map fun ch => BitVec.ofNat 8 ch.toNat

/-- `HostWrite(IBUF, k, b_k)` over the listed octets, from index `a` (R77). -/
def loadTurns : Nat → List Byte → List Turn
  | _, [] => []
  | a, b :: bs => .write (.ibuf a) b.toNat :: loadTurns (a + 1) bs

/-- `LOAD`: the octets from index 0, then their number into ILEN (R78). -/
def loadLine (octets : List Byte) : List Turn := loadTurns 0 octets ++ [.write (.csr .ilen) octets.length]

/-- `CMD <mnemonic>` writes the opcode of the mnemonic (R77). -/
def cmdTurn (i : Instr) : Turn := .write (.csr .cmd) (encode i).toNat

/-- `RUN`: `CMD` then `WAIT` (R78), step by step. The turn `Turn.run` is the same with the steps merged. -/
def runLine (i : Instr) : List Turn := [cmdTurn i, .wait]

/-- The indices `a .. b-1`, in order; none when `a >= b` (R8). -/
def indices (a b : Nat) : List Nat := (List.range (b - a)).map (a + ·)

/-- The turns a line stands for (R77, R78). -/
def Line.turns : Line → List Turn
  | .wrIlen n => [.write (.csr .ilen) n]
  | .ldIbuf a octets => loadTurns a octets
  | .cmd i => [cmdTurn i]
  | .cmdWord v => [.write (.csr .cmd) v]
  | .wait => [.wait]
  | .rdStatus => [.read (.csr .status)]
  | .rdIlen => [.read (.csr .ilen)]
  | .rdOlen => [.read (.csr .olen)]
  | .rdObuf a b => (indices a b).map fun k => .read (.obuf k)
  | .rdIbuf a b => (indices a b).map fun k => .read (.ibuf k)
  | .rdSbox a b => (indices a b).map fun k => .read (.sbox k)
  | .load octets => loadLine octets
  | .run i => runLine i
  | .encode octets => loadLine octets ++ runLine .b64enc
  | .decode octets => loadLine octets ++ runLine .b64dec
  | .rc4init key => loadLine key ++ runLine .rc4ksa
  | .rc4xform data => loadLine data ++ runLine .rc4prga
  | .rc4crypt key data => loadLine key ++ runLine .rc4ksa ++ (loadLine data ++ runLine .rc4prga)

/-- The machine with a host script to run: its lines' turns stand before whatever turns were there. -/
def State.withScript (s : State) (lines : List Line) : State :=
  { s with script := lines.flatMap Line.turns ++ s.script }

end Sys2Proof.Machine
end

