-- ==== Sys2Proof/Machine/Fetch.lean ====
section
/-! DEFINITION. What the next step is: the head of the host's turns says which agent moves and how (00_scope.md R11,
20_memory.md R61). There is no instruction fetch (10_state.md R29); the command word comes from the CMD write (R65). -/

namespace Sys2Proof.Machine

/-- What a step does next. -/
inductive Fetched where
  /-- Run command `i`, whole, at the state `s`. -/
  | command (i : Instr) (s : State)
  /-- A host access, the reset or an engine step, with its outcome. -/
  | outcome (o : Result)

/-- Take the next turn. With no turn left a BUSY engine steps (R217) and an idle block waits (R201, R216). `WAIT` lets
the engine step while its poll sees BUSY and ends with the poll that sees DONE, which is the one noted (R77, R216); in
IDLE it polls for ever. `RUN` on a BUSY block is a CMD write that is ignored, and then the WAIT (R59, R78). -/
def fetch (s : State) : Fetched :=
  match s.script with
  | [] => .outcome (engineStep s)
  | .read p :: rest => .outcome (hostRead { s with script := rest } p)
  | .write p v :: rest => .outcome (hostWrite { s with script := rest } p v)
  | .run v :: rest =>
    if s.busy then .outcome (.next { s with script := .wait :: rest })
    else .command (commandOf v) { s with script := .wait :: rest }
  | .wait :: rest =>
    if s.busy then .outcome (engineStep s)
    else if s.done then .outcome (hostRead { s with script := rest } (.csr .status))
    else .outcome (.next s)
  | .reset :: rest => .outcome (.next ({ s with script := rest }.resetInput))
  | .engine :: rest => .outcome (engineStep { s with script := rest })

/-- The machine with the command word `w` of `nbits` bits as the host's next turn, on a block that takes commands: the
next step runs exactly that command. -/
def State.placeCommand (s : State) (nbits w : Nat) : State :=
  { s with busy := false, script := .run (w % 2 ^ nbits) :: s.script }

end Sys2Proof.Machine
end

