-- ==== Sys2Proof/Machine/Dispatch.lean ====
section
/-! DEFINITION. One arm per command: the meaning of each, from its acceptance to its completion. -/

namespace Sys2Proof.Machine

-- The commands in opcode order (30_encoding.md R72).
def exec (i : Instr) (s : State) : Host.Outcome State Fault Refusal :=
  match i with
  | .b64enc => Sys2Proof.Machine.execB64enc s
  | .b64dec => Sys2Proof.Machine.execB64dec s
  | .rc4ksa => Sys2Proof.Machine.execRc4ksa s
  | .rc4prga => Sys2Proof.Machine.execRc4prga s

end Sys2Proof.Machine
end

