-- ==== Sys2Proof/Safety.lean ====
section
/-! DEFINITION. What counts as a safe run, in the terms the claims use: the invariant of the machine, the duties of the
host (70_reset_and_hazards.md R204 to R208), and RC4 as functions on values, without machine state. -/

namespace Sys2Proof.Machine

/-- "`S[0 .. 256)` is a permutation of `0 .. 255`: each value occurs exactly once" (R43), every entry written. -/
def Scheduled (m : Memory) : Prop :=
  (∀ k < 256, (m.get k).isSome) ∧ ∀ v : Byte, ∃ k < 256, m.get k = some v ∧ ∀ l < 256, m.get l = some v → l = k

/-- A RAM of `n` entries in its canonical form: indices strictly rising, all below `n`. -/
def Memory.fits (m : Memory) (n : Nat) : Prop := m.wf ∧ ∀ p ∈ m, p.1 < n

/-- The whole input of the command is written: `IBUF[0 .. ILEN)` (R205). -/
def InputLoaded (s : State) : Prop := ∀ k < s.ilen, (s.ibuf.get k).isSome

/-- The sequencer tuple is one R80 has a row for, while BUSY: CNT within the bound of the command's sub-phase, SUB one
of the command's (R28, R30). -/
def SequencerOk (s : State) : Prop :=
  match s.op, s.sub with
  | .b64enc, .check => s.cnt = 0
  | .b64enc, .fill => False
  | .b64enc, .run => s.cnt ≤ encodeGroups s.ilen
  | .b64dec, .check => s.cnt = 0
  | .b64dec, .fill => False
  | .b64dec, .run =>
    lengthBad s.ilen = false ∧ s.cnt ≤ decodeGroups s.ilen ∧ 1 ≤ s.nout ∧ s.nout ≤ 3 * decodeGroups s.ilen
      ∧ 3 * decodeGroups s.ilen ≤ s.nout + 2
  | .rc4ksa, .check => s.cnt = 0
  | .rc4ksa, .fill => 0 < s.ilen ∧ s.cnt ≤ 256 ∧ ∀ k < s.cnt, s.sbox.get k = some (BitVec.ofNat 8 k)
  | .rc4ksa, .run => 0 < s.ilen ∧ s.cnt ≤ 256 ∧ Scheduled s.sbox
  | .rc4prga, .check => s.cnt = 0
  | .rc4prga, .fill => False
  | .rc4prga, .run => s.cnt ≤ s.ilen

/-- How many entries of OBUF the running or last command has surely written, from index 0 (R33, R51). -/
def outputWritten (s : State) : Nat :=
  if s.done then s.olen
  else if s.busy then
    match s.op, s.sub with
    | .b64enc, .check => 0
    | .b64enc, .fill => 0
    | .b64enc, .run => 4 * s.cnt
    | .b64dec, .check => 0
    | .b64dec, .fill => 0
    | .b64dec, .run => min s.nout (3 * s.cnt)
    | .rc4ksa, .check => 0
    | .rc4ksa, .fill => 0
    | .rc4ksa, .run => 0
    | .rc4prga, .check => 0
    | .rc4prga, .fill => 0
    | .rc4prga, .run => s.cnt
  else 0

/-- Which command an error code belongs to (R170). -/
def ErrOk (s : State) : Prop :=
  match s.err with
  | .none => True
  | .invalidLength => s.op = .b64dec
  | .invalidCharacter => s.op = .b64dec
  | .invalidKey => s.op = .rc4ksa

/-- The invariant of the machine: it holds after reset and every step keeps it. -/
structure Inv (s : State) : Prop where
  /-- The parameters meet the constraints of R6. -/
  cfg_wf : s.cfg.wf = true
  /-- IBUF is canonical and within its space (R32, R50). -/
  ibuf_fits : s.ibuf.fits s.cfg.ibufSize
  /-- OBUF is canonical and within its space (R33, R50). -/
  obuf_fits : s.obuf.fits s.cfg.obufSize
  /-- The S-box is canonical and within its space (R34, R50). -/
  sbox_fits : s.sbox.fits 256
  /-- ILEN fits `LENW` bits (R24). -/
  ilen_lt : s.ilen < 2 ^ s.cfg.lenw
  /-- OLEN fits `LENW+1` bits (R25). -/
  olen_lt : s.olen < 2 ^ (s.cfg.lenw + 1)
  /-- NOUT fits `LENW+1` bits (R31). -/
  nout_lt : s.nout < 2 ^ (s.cfg.lenw + 1)
  /-- CNT fits `max(LENW+1, 9)` bits (R28). -/
  cnt_lt : s.cnt < 2 ^ s.cfg.cntWidth
  /-- While BUSY: not DONE, ERR and OLEN cleared by acceptance (R21, R59, R74). -/
  busy_clear : s.busy = true → s.done = false ∧ s.err = .none ∧ s.olen = 0
  /-- In IDLE nothing has been reported (R21, R22, R45). -/
  idle_clear : s.busy = false → s.done = false → s.op = .b64enc ∧ s.err = .none ∧ s.olen = 0
  /-- An error code is one its command raises (R170). -/
  err_ok : ErrOk s
  /-- An error leaves no output (R120, R175). -/
  err_empty : s.err ≠ .none → s.olen = 0
  /-- While BUSY the sequencer has a row (R80). -/
  sequencer_ok : s.busy = true → SequencerOk s
  /-- Every output entry the command claims is written (R33). -/
  output_ok : ∀ k < outputWritten s, (s.obuf.get k).isSome

/-- What the host owes before it starts command `i`: the input is loaded (R205), and for RC4PRGA a key schedule stands
(R206). -/
def Ready (s : State) (i : Instr) : Prop :=
  InputLoaded s ∧ (i = .rc4prga → Scheduled s.sbox)

/-- The turn keeps the duties of R205 to R208 at the state `s`: while BUSY nothing but STATUS is accessed (R207), a
command starts only when `Ready`, and only entries with a value are read. -/
def DutyKept (s : State) : Turn → Prop
  | .read p => (s.portValue p).isSome
  | .write p v => s.busy = false ∧ (p = .csr .cmd → Ready s (commandOf v))
  | .run v => s.busy = false ∧ Ready s (commandOf v)
  | .wait => True
  | .reset => True
  | .engine => True

/-- The running command was started with the duties kept: its input is loaded and an RC4PRGA has its key schedule. -/
def DutiesKept (s : State) : Prop := s.busy = true → Ready s s.op

/-- RC4's exchange of two entries, on a permutation as a function (R8). -/
def exchange (perm : Byte → Byte) (a b : Byte) : Byte → Byte :=
  fun k => if k = a then perm b else if k = b then perm a else perm k

/-- The key schedule after `n` mixing steps on the key bytes `key` of length `len`: the permutation and the running
index, from the identity and 0 (R130). -/
def scheduleAfter (key : Nat → Byte) (len : Nat) : Nat → (Byte → Byte) × Byte
  | 0 => (id, 0#8)
  | n + 1 =>
    let before := scheduleAfter key len n
    let j := before.2 + before.1 (BitVec.ofNat 8 n) + key (n % len)
    (exchange before.1 (BitVec.ofNat 8 n) j, j)

/-- The permutation a key makes (R130). -/
def keySchedule (key : Nat → Byte) (len : Nat) : Byte → Byte := (scheduleAfter key len 256).1

/-- The cipher's permutation and cursors. -/
structure CipherState where
  /-- The permutation. -/
  perm : Byte → Byte
  /-- The cursor I. -/
  i : Byte
  /-- The cursor J. -/
  j : Byte

/-- One advance of the cipher (R145): I, J and the exchange. -/
def advance (c : CipherState) : CipherState :=
  let i := c.i + 1#8
  let j := c.j + c.perm i
  ⟨exchange c.perm i j, i, j⟩

/-- The cipher state after `n` bytes. -/
def advanceBy : Nat → CipherState → CipherState
  | 0, c => c
  | n + 1, c => advance (advanceBy n c)

/-- Keystream byte number `p` (R145, R146): read after the exchange of its step. -/
def keystream (c : CipherState) (p : Nat) : Byte :=
  let d := advanceBy (p + 1) c
  d.perm (d.perm d.i + d.perm d.j)

/-- The S-box holds the permutation `perm`, every entry written. -/
def Holds (m : Memory) (perm : Byte → Byte) : Prop := ∀ k : Byte, m.get k.toNat = some (perm k)

/-- The 24-bit value of encode group `g` of the bytes `b` of length `len` (R100). -/
def groupValue (b : Nat → Byte) (len g : Nat) : Group :=
  b (3 * g) ++ (if 2 ≤ groupSize len g then b (3 * g + 1) else 0#8)
    ++ (if groupSize len g = 3 then b (3 * g + 2) else 0#8)

/-- The four characters of decode group `g` of the text `text` (R110). -/
def textGroup (text : Nat → Byte) (g : Nat) : Byte × Byte × Byte × Byte :=
  (text (4 * g), text (4 * g + 1), text (4 * g + 2), text (4 * g + 3))

/-- The output length of a decode (R113). -/
def decodedLength (text : Nat → Byte) (len : Nat) : Nat :=
  3 * decodeGroups len - padCount (text (len - 1)) - padCount (text (len - 2))

end Sys2Proof.Machine
end

