-- ==== Sys2Proof/Certificates/Slice0/Obligations.lean ====
section
/-! DEFINITION. The statements for the provers. Each docstring names the rules of spec/ it rests on; a clause that is the
model's own choice says so and names its log entry. -/

open Sys2Proof Sys2Proof.Machine

/-! ## Command words and decoding (30_encoding.md) -/

/-- R70, R75: every one of the 256 command words starts the command its bits 1:0 name, bits 7:2 being ignored, and a
value wider than 8 bits written to CMD starts the command of its low 8 bits. -/
def Obligations.CommandWordStartsByLowBits : Prop :=
  (∀ v : BitVec 8, opcode (decode v) = v.extractLsb' 0 2 ∧ decode v = decode (0#6 ++ v.extractLsb' 0 2))
    ∧ ∀ v : Nat, commandOf v = decode (BitVec.ofNat 8 (v % 256)) ∧ opcode (commandOf v) = BitVec.ofNat 2 v

/-- R70, R72: decoding the encoding of a command gives it back, the encoded word is a canonical one, and a canonical
word is the encoding of what it decodes to. -/
def Obligations.EncodeDecodeAgree : Prop :=
  (∀ i : Instr, i.wf = true → decode (encode i) = i ∧ canonicalWord (encode i) = true)
    ∧ ∀ v : BitVec 8, canonicalWord v = true → encode (decode v) = v

/-- R72, R77: the four words 0x00 to 0x03, and 0xFC of program P3, decode to the commands they stand for. -/
def Obligations.WordsOfTheOpcodeMap : Prop :=
  decode 0x00#8 = .b64enc ∧ decode 0x01#8 = .b64dec ∧ decode 0x02#8 = .rc4ksa ∧ decode 0x03#8 = .rc4prga
    ∧ decode 0xFC#8 = .b64enc

/-! ## One step of the machine -/

/-- R10, R78: when the next turn is RUN of a word and the block takes commands, the step is exec of the decoded command
at that state, with the WAIT of the RUN left as the next turn; a command word placed by withFetchWord is such a turn
(log entries 4 and 5). -/
def Obligations.StepRunsDecodedCommand : Prop :=
  (∀ (s : State) (v : Nat) (rest : List Turn), s.script = .run v :: rest → s.busy = false →
      step s = exec (commandOf v) { s with script := .wait :: rest })
    ∧ ∀ (s : State) (w : Nat), w < 256 →
      step (s.withFetchWord 8 w) = exec (commandOf w) { s with busy := false, script := .wait :: s.script }

/-- R80, R185, R201: with no host turn, or an engine turn, before it, a BUSY engine takes its next step and an engine
that is not BUSY has none: nothing changes. (The model's choices: that the host is a list of turns, with the engine turn
among them, log entry 4; that with no turn left a BUSY engine steps and an idle block answers the same state, log
entries 4 and 18.) -/
def Obligations.EngineStepsOnlyWhileBusy : Prop :=
  (∀ s : State, s.script = [] → s.busy = true → step s = engineStep s)
    ∧ (∀ (s : State) (rest : List Turn), s.script = .engine :: rest → s.busy = true →
      step s = engineStep { s with script := rest })
    ∧ (∀ s : State, s.script = [] → s.busy = false → step s = .next s)
    ∧ (∀ (s : State) (rest : List Turn), s.script = .engine :: rest → s.busy = false →
      step s = .next { s with script := rest })

/-- R74: acceptance writes OP, ERR, DONE, BUSY, OLEN, CNT and SUB and nothing else; from the next step on the engine runs
the step rules of the command OP names; a CMD write while BUSY is ignored. -/
def Obligations.CommandWriteAccepted : Prop :=
  (∀ (s : State) (v : Nat) (rest : List Turn), s.script = .write (.csr .cmd) v :: rest → s.busy = false →
      step s = .next { s with
        script := rest, op := commandOf v, err := .none, done := false, busy := true, olen := 0, cnt := 0, sub := .check })
    ∧ (∀ s : State, s.busy = true → s.done = false → engineStep s =
      match s.op with
      | .b64enc => tickB64enc s
      | .b64dec => tickB64dec s
      | .rc4ksa => tickRc4ksa s
      | .rc4prga => tickRc4prga s)
    ∧ ∀ (s : State) (v : Nat) (rest : List Turn), s.script = .write (.csr .cmd) v :: rest → s.busy = true →
      step s = .next { s with script := rest }

/-- R58: a host write while not BUSY: CMD is an acceptance, ILEN takes the low LENW bits, `IBUF[k]` the low 8 bits and
nothing else in IBUF changes, and a write to STATUS, OLEN, OBUF or SBOX is ignored. Everything not named keeps its
value. -/
def Obligations.HostWriteWhileIdle : Prop :=
  ∀ (s : State) (p : Port) (v : Nat) (rest : List Turn), s.script = .write p v :: rest → s.busy = false →
    p.inRange s.cfg = true →
    (p = .csr .cmd → step s = .next ({ s with script := rest }.accept (commandOf v)))
      ∧ (p = .csr .ilen → step s = .next { s with script := rest, ilen := v % 2 ^ s.cfg.lenw })
      ∧ (∀ k, p = .ibuf k → ∃ m : Memory, step s = .next { s with script := rest, ibuf := m }
          ∧ m.get k = some (BitVec.ofNat 8 v) ∧ ∀ l, l ≠ k → m.get l = s.ibuf.get l)
      ∧ (p = .csr .status → step s = .next { s with script := rest })
      ∧ (p = .csr .olen → step s = .next { s with script := rest })
      ∧ (∀ k, p = .obuf k → step s = .next { s with script := rest })
      ∧ (∀ k, p = .sbox k → step s = .next { s with script := rest })

/-- R59: a host access while BUSY. A STATUS read returns BUSY = 1, DONE = 0, ERR = 0 and the running opcode; every
other read returns an unspecified value; every write is ignored. (The model's choice: that such a read notes the free value of
its draw, whatever that is, and advances the count of draws, log entry 2.) -/
def Obligations.HostAccessWhileBusy : Prop :=
  ∀ (s : State) (rest : List Turn), Inv s → s.busy = true →
    (s.script = .read (.csr .status) :: rest →
      step s = .next { s with
        script := rest, reads := s.reads ++ [⟨.csr .status, (0#2 ++ opcode s.op ++ 0#2 ++ 0#1 ++ 1#1).toNat⟩] })
      ∧ (∀ p : Port, s.script = .read p :: rest → p.inRange s.cfg = true → p ≠ .csr .status →
        step s = .next { s with
          script := rest, draws := s.draws + 1
          reads := s.reads ++ [⟨p, (Config.freeValue (p.width s.cfg) s.draws).toNat⟩] })
      ∧ (∀ (p : Port) (v : Nat), s.script = .write p v :: rest → p.inRange s.cfg = true →
        step s = .next { s with script := rest })

/-- R60: a host read while not BUSY returns 0 for CMD, STATUS, ILEN, OLEN, a written entry of IBUF or SBOX, or a written
entry of OBUF below OLEN; otherwise an unspecified value. It changes nothing else. (The model's choice: that a read of
an unwritten entry, and of OBUF at or above OLEN, notes the free value of its draw, whatever that is, log entry 2.) -/
def Obligations.HostReadWhileIdle : Prop :=
  ∀ (s : State) (p : Port) (rest : List Turn), s.script = .read p :: rest → s.busy = false → p.inRange s.cfg = true →
    (∃ (v d : Nat), step s = .next { s with script := rest, reads := s.reads ++ [⟨p, v⟩], draws := d }
      ∧ (p = .csr .cmd → v = 0)
      ∧ (p = .csr .status → v = s.status.toNat)
      ∧ (p = .csr .ilen → v = s.ilen)
      ∧ (p = .csr .olen → v = s.olen)
      ∧ (∀ k b, p = .ibuf k → s.ibuf.get k = some b → v = b.toNat)
      ∧ (∀ k b, p = .obuf k → k < s.olen → s.obuf.get k = some b → v = b.toNat)
      ∧ (∀ k b, p = .sbox k → s.sbox.get k = some b → v = b.toNat)
      ∧ (∀ k, p = .ibuf k → s.ibuf.get k = none → v = (Config.freeValue 8 s.draws).toNat)
      ∧ (∀ k, p = .obuf k → s.olen ≤ k ∨ s.obuf.get k = none → v = (Config.freeValue 8 s.draws).toNat)
      ∧ (∀ k, p = .sbox k → s.sbox.get k = none → v = (Config.freeValue 8 s.draws).toNat))

/-- R41: the fields of the STATUS register; R23, R170: the four numbers of its ERR field. -/
def Obligations.StatusByteFields : Prop :=
  (∀ s : State,
    s.status.extractLsb' 0 1 = BitVec.ofBool s.busy ∧ s.status.extractLsb' 1 1 = BitVec.ofBool s.done
      ∧ s.status.extractLsb' 2 2 = errNumber s.err ∧ s.status.extractLsb' 4 2 = opcode s.op
      ∧ s.status.extractLsb' 6 2 = 0#2)
    ∧ errNumber .none = 0#2 ∧ errNumber .invalidLength = 1#2 ∧ errNumber .invalidCharacter = 2#2
    ∧ errNumber .invalidKey = 3#2

/-- R200 with R45: the reset input, in any state, gives every register its value of R45 in one step and leaves every
entry of IBUF, OBUF and the S-box without a value. (The model's choice: that the host's remaining turns, its readings
and the count of draws survive the reset, log entry 19.) -/
def Obligations.ResetInputValues : Prop :=
  ∀ (s : State) (rest : List Turn), s.script = .reset :: rest →
    ∃ t, step s = .next t ∧ t.busy = false ∧ t.done = false ∧ t.err = .none ∧ opcode t.op = 0#2 ∧ t.ilen = 0
      ∧ t.olen = 0 ∧ t.i = 0#8 ∧ t.j = 0#8 ∧ t.acc = 0#24 ∧ t.cnt = 0 ∧ t.sub = .check ∧ t.nout = 0
      ∧ (∀ k, t.ibuf.get k = none) ∧ (∀ k, t.obuf.get k = none) ∧ (∀ k, t.sbox.get k = none) ∧ t.cfg = s.cfg
      ∧ t.status = 0x00#8 ∧ t.script = rest ∧ t.reads = s.reads ∧ t.draws = s.draws

/-- R45 at the default parameters of R6: the state a run starts from. -/
def Obligations.ResetStateValues : Prop :=
  State.reset.busy = false ∧ State.reset.done = false ∧ State.reset.err = .none ∧ opcode State.reset.op = 0#2
    ∧ State.reset.ilen = 0 ∧ State.reset.olen = 0 ∧ State.reset.i = 0#8 ∧ State.reset.j = 0#8
    ∧ State.reset.acc = 0#24 ∧ State.reset.cnt = 0 ∧ State.reset.sub = .check ∧ State.reset.nout = 0
    ∧ (∀ k, State.reset.ibuf.get k = none) ∧ (∀ k, State.reset.obuf.get k = none)
    ∧ (∀ k, State.reset.sbox.get k = none) ∧ State.reset.cfg.lenw = 12 ∧ State.reset.cfg.persistCursors = false
    ∧ State.reset.cfg.wf = true

/-! ## The look-up tables (10_state.md) -/

/-- R37: REV gives index `k` exactly on the character of ALPHA's entry `k`, and is not valid on every other octet; for
the default alphabet, the ranges the rule lists, and every octet outside them is not valid. -/
def Obligations.ReverseTableInvertsAlphabet : Prop :=
  (∀ c : Config, c.wf = true →
    (∀ k : Sextet, rev c (alpha c k) = some k)
      ∧ (∀ (ch : Byte) (k : Sextet), rev c ch = some k → alpha c k = ch)
      ∧ ∀ ch : Byte, rev c ch = none ↔ ∀ k : Sextet, alpha c k ≠ ch)
    ∧ (∀ n < 26, rev defaultConfig (BitVec.ofNat 8 (0x41 + n)) = some (BitVec.ofNat 6 n))
    ∧ (∀ n < 26, rev defaultConfig (BitVec.ofNat 8 (0x61 + n)) = some (BitVec.ofNat 6 (26 + n)))
    ∧ (∀ n < 10, rev defaultConfig (BitVec.ofNat 8 (0x30 + n)) = some (BitVec.ofNat 6 (52 + n)))
    ∧ rev defaultConfig 0x2B#8 = some 62#6 ∧ rev defaultConfig 0x2F#8 = some 63#6
    ∧ ∀ ch : Byte, rev defaultConfig ch = none ↔
      ¬ ((0x41 ≤ ch.toNat ∧ ch.toNat ≤ 0x5A) ∨ (0x61 ≤ ch.toNat ∧ ch.toNat ≤ 0x7A) ∨ (0x30 ≤ ch.toNat ∧ ch.toNat ≤ 0x39)
        ∨ ch = 0x2B#8 ∨ ch = 0x2F#8)

/-- R114, R38: an octet is classified as sextet 0 when it is PAD, as its index when it is an alphabet character, and is
otherwise invalid; PAD is no alphabet character; every octet from 0x80 on is invalid, and for the default alphabet space,
`!`, line feed, NUL, `-` and `_` are. -/
def Obligations.CharacterClassification : Prop :=
  (∀ ch ∈ [0x20#8, 0x21#8, 0x0A#8, 0x00#8, 0x2D#8, 0x5F#8], sextetValue defaultConfig ch = none) ∧
  ∀ c : Config, c.wf = true →
    (∀ ch : Byte, 0x80 ≤ ch.toNat → sextetValue c ch = none) ∧
    sextetValue c pad = some 0#6 ∧ rev c pad = none
      ∧ (∀ k : Sextet, sextetValue c (alpha c k) = some k)
      ∧ ∀ ch : Byte, sextetValue c ch = none ↔ ch ≠ pad ∧ ∀ k : Sextet, alpha c k ≠ ch

/-! ## B64ENC (40_base64.md) -/

/-- R100: B64ENC on a loaded input writes, for every group, the four characters the rule gives, sets OLEN to
`4 * ceil(ILEN / 3)`, ERR to 0, DONE and clears BUSY. -/
def Obligations.EncodeWritesTheText : Prop :=
  ∀ (s : State) (b : Nat → Byte), s.busy = false → (∀ k < s.ilen, s.ibuf.get k = some (b k)) →
    ∃ t, exec .b64enc s = .next t ∧ t.busy = false ∧ t.done = true ∧ t.err = .none ∧ t.op = .b64enc
      ∧ t.olen = 4 * ((s.ilen + 2) / 3)
      ∧ ∀ g < (s.ilen + 2) / 3,
        t.obuf.get (4 * g) = some (alpha s.cfg ((groupValue b s.ilen g).extractLsb' 18 6))
        ∧ t.obuf.get (4 * g + 1) = some (alpha s.cfg ((groupValue b s.ilen g).extractLsb' 12 6))
        ∧ t.obuf.get (4 * g + 2) =
          some (if s.ilen - 3 * g ≥ 2 then alpha s.cfg ((groupValue b s.ilen g).extractLsb' 6 6) else pad)
        ∧ t.obuf.get (4 * g + 3) =
          some (if s.ilen - 3 * g ≥ 3 then alpha s.cfg ((groupValue b s.ilen g).extractLsb' 0 6) else pad)

/-- R101: B64ENC completes on every input, written or not; the output length is `4 * ceil(ILEN / 3)` and fits OBUF; PAD
stands at the last two places when `ILEN mod 3 = 1`, at the last one when it is 2, and nowhere else. -/
def Obligations.EncodePaddingLaw : Prop :=
  ∀ s : State, s.busy = false → s.cfg.wf = true →
    ∃ t, exec .b64enc s = .next t ∧ t.err = .none ∧ t.done = true ∧ t.busy = false
      ∧ t.olen = 4 * ((s.ilen + 2) / 3)
      ∧ (s.ilen ≤ s.cfg.imax → t.olen ≤ s.cfg.obufSize)
      ∧ ∀ k < t.olen, (t.obuf.get k).isSome ∧
        (t.obuf.get k = some pad ↔ (s.ilen % 3 = 1 ∧ k + 2 = t.olen) ∨ (s.ilen % 3 ≠ 0 ∧ k + 1 = t.olen))

/-- R102, R44: what B64ENC leaves alone. It changes only OBUF below `4 * ceil(ILEN / 3)`, OLEN, the status fields, ACC,
CNT and SUB (and the model's count of draws). -/
def Obligations.EncodeFrame : Prop :=
  ∀ s : State, s.busy = false →
    ∃ t, exec .b64enc s = .next t ∧ t.cfg = s.cfg ∧ t.ilen = s.ilen ∧ t.i = s.i ∧ t.j = s.j ∧ t.nout = s.nout
      ∧ t.ibuf = s.ibuf ∧ t.sbox = s.sbox ∧ t.script = s.script ∧ t.reads = s.reads
      ∧ ∀ k, 4 * ((s.ilen + 2) / 3) ≤ k → t.obuf.get k = s.obuf.get k

/-- R104: the B64ENC group step on a loaded group: ACC, the four characters and CNT, and nothing else. -/
def Obligations.EncodeGroupStep : Prop :=
  ∀ (s : State) (b : Nat → Byte), s.busy = true → s.done = false → s.op = .b64enc → s.sub = .run →
    s.cnt < (s.ilen + 2) / 3 → (∀ k < s.ilen, s.ibuf.get k = some (b k)) →
    ∃ m : Memory, engineStep s = .next { s with acc := groupValue b s.ilen s.cnt, obuf := m, cnt := s.cnt + 1 }
      ∧ m.get (4 * s.cnt) = some (alpha s.cfg ((groupValue b s.ilen s.cnt).extractLsb' 18 6))
      ∧ m.get (4 * s.cnt + 1) = some (alpha s.cfg ((groupValue b s.ilen s.cnt).extractLsb' 12 6))
      ∧ m.get (4 * s.cnt + 2) =
        some (if s.ilen - 3 * s.cnt ≥ 2 then alpha s.cfg ((groupValue b s.ilen s.cnt).extractLsb' 6 6) else pad)
      ∧ m.get (4 * s.cnt + 3) =
        some (if s.ilen - 3 * s.cnt ≥ 3 then alpha s.cfg ((groupValue b s.ilen s.cnt).extractLsb' 0 6) else pad)
      ∧ ∀ k, k < 4 * s.cnt ∨ 4 * s.cnt + 4 ≤ k → m.get k = s.obuf.get k

/-! ## B64DEC (40_base64.md) -/

/-- R112, R171: a text whose length is not a positive multiple of 4 ends B64DEC with InvalidLength in its CHECK step,
before any character is read; nothing but the fields acceptance and `raise` write is changed. -/
def Obligations.DecodeInvalidLength : Prop :=
  (∀ s : State, s.busy = false → s.ilen = 0 ∨ s.ilen % 4 ≠ 0 →
    exec .b64dec s = .next { s with
      op := .b64dec, err := .invalidLength, done := true, busy := false, olen := 0, cnt := 0, sub := .check })
    ∧ ∀ s : State, s.busy = true → s.done = false → s.op = .b64dec → s.sub = .check → s.ilen = 0 ∨ s.ilen % 4 ≠ 0 →
      engineStep s = .next { s with err := .invalidLength, olen := 0, busy := false, done := true }

/-- R116: a loaded text of valid length fails with InvalidCharacter exactly when some octet of it is neither PAD nor in
ALPHA; then OLEN is 0. Otherwise there is no error. The group step on a group with an invalid character is the `raise` of
InvalidCharacter, with no write of OBUF. -/
def Obligations.DecodeInvalidCharacter : Prop :=
  (∀ (s : State) (text : Nat → Byte), s.busy = false → s.ilen ≠ 0 → s.ilen % 4 = 0 →
    (∀ k < s.ilen, s.ibuf.get k = some (text k)) →
    ∃ t, exec .b64dec s = .next t ∧ t.busy = false ∧ t.done = true ∧ t.op = .b64dec
      ∧ ((∃ k < s.ilen, text k ≠ pad ∧ ∀ n : Sextet, alpha s.cfg n ≠ text k) →
        t.err = .invalidCharacter ∧ t.olen = 0)
      ∧ ((∀ k < s.ilen, text k = pad ∨ ∃ n : Sextet, alpha s.cfg n = text k) → t.err = .none))
    ∧ ∀ (s : State) (text : Nat → Byte), s.busy = true → s.done = false → s.op = .b64dec → s.sub = .run →
      s.cnt < s.ilen / 4 → (∀ k < s.ilen, s.ibuf.get k = some (text k)) →
      (∃ n < 4, sextetValue s.cfg (text (4 * s.cnt + n)) = none) →
      engineStep s = .next { s with err := .invalidCharacter, olen := 0, busy := false, done := true }

/-- R110, R113, R115: a loaded text of valid length with no invalid character decodes: OLEN is `3 * (ILEN / 4)` less 1
for each of the last two characters that is PAD, and the bytes are those of the groups' 24-bit values, first byte most
significant. -/
def Obligations.DecodeWritesTheBytes : Prop :=
  ∀ (s : State) (text : Nat → Byte), s.busy = false → s.ilen ≠ 0 → s.ilen % 4 = 0 →
    (∀ k < s.ilen, s.ibuf.get k = some (text k)) → (∀ k < s.ilen, (sextetValue s.cfg (text k)).isSome) →
    ∃ t, exec .b64dec s = .next t ∧ t.busy = false ∧ t.done = true ∧ t.err = .none ∧ t.op = .b64dec
      ∧ t.olen = 3 * (s.ilen / 4) - (if text (s.ilen - 1) = pad then 1 else 0)
        - (if text (s.ilen - 2) = pad then 1 else 0)
      ∧ 1 ≤ t.olen
      ∧ ∀ g < s.ilen / 4, ∃ a b c d : Sextet,
        sextetValue s.cfg (text (4 * g)) = some a ∧ sextetValue s.cfg (text (4 * g + 1)) = some b
        ∧ sextetValue s.cfg (text (4 * g + 2)) = some c ∧ sextetValue s.cfg (text (4 * g + 3)) = some d
        ∧ (3 * g < t.olen → t.obuf.get (3 * g) = some ((a ++ b ++ c ++ d).extractLsb' 16 8))
        ∧ (3 * g + 1 < t.olen → t.obuf.get (3 * g + 1) = some ((a ++ b ++ c ++ d).extractLsb' 8 8))
        ∧ (3 * g + 2 < t.olen → t.obuf.get (3 * g + 2) = some ((a ++ b ++ c ++ d).extractLsb' 0 8))

/-- R123, R44: B64DEC completes on every input, and leaves alone everything but NOUT, ACC, CNT, SUB, OLEN, the status
fields and the entries of OBUF its groups stored: those below the smaller of NOUT and three times the number of groups
decoded, which CNT holds. A bad length leaves OBUF and NOUT whole. -/
def Obligations.DecodeFrame : Prop :=
  ∀ s : State, s.busy = false →
    ∃ t, exec .b64dec s = .next t ∧ t.busy = false ∧ t.done = true ∧ t.cfg = s.cfg ∧ t.ilen = s.ilen ∧ t.i = s.i
      ∧ t.j = s.j ∧ t.ibuf = s.ibuf ∧ t.sbox = s.sbox ∧ t.script = s.script ∧ t.reads = s.reads
      ∧ (t.err = .none ∨ t.olen = 0)
      ∧ (s.ilen = 0 ∨ s.ilen % 4 ≠ 0 → t.obuf = s.obuf ∧ t.nout = s.nout ∧ t.draws = s.draws)
      ∧ (s.ilen ≠ 0 → s.ilen % 4 = 0 → t.nout ≤ 3 * (s.ilen / 4)
        ∧ ∀ k, min t.nout (3 * t.cnt) ≤ k → t.obuf.get k = s.obuf.get k)

/-- R115: the B64DEC group step on a loaded group with no invalid character: ACC, the bytes below NOUT, and CNT; nothing
else. -/
def Obligations.DecodeGroupStep : Prop :=
  ∀ (s : State) (text : Nat → Byte), s.busy = true → s.done = false → s.op = .b64dec → s.sub = .run →
    s.cnt < s.ilen / 4 → (∀ k < s.ilen, s.ibuf.get k = some (text k)) →
    ∀ a b c d : Sextet, sextetValue s.cfg (text (4 * s.cnt)) = some a →
      sextetValue s.cfg (text (4 * s.cnt + 1)) = some b → sextetValue s.cfg (text (4 * s.cnt + 2)) = some c →
      sextetValue s.cfg (text (4 * s.cnt + 3)) = some d →
      ∃ m : Memory, engineStep s = .next { s with acc := a ++ b ++ c ++ d, obuf := m, cnt := s.cnt + 1 }
        ∧ ∀ k, m.get k =
          if k = 3 * s.cnt ∧ k < s.nout then some ((a ++ b ++ c ++ d).extractLsb' 16 8)
          else if k = 3 * s.cnt + 1 ∧ k < s.nout then some ((a ++ b ++ c ++ d).extractLsb' 8 8)
          else if k = 3 * s.cnt + 2 ∧ k < s.nout then some ((a ++ b ++ c ++ d).extractLsb' 0 8)
          else s.obuf.get k

/-- R113: the B64DEC set-up step on a loaded text of valid length. -/
def Obligations.DecodeLengthStep : Prop :=
  ∀ (s : State) (text : Nat → Byte), s.busy = true → s.done = false → s.op = .b64dec → s.sub = .check →
    s.ilen ≠ 0 → s.ilen % 4 = 0 → (∀ k < s.ilen, s.ibuf.get k = some (text k)) →
    engineStep s = .next { s with
      nout := 3 * (s.ilen / 4) - (if text (s.ilen - 1) = pad then 1 else 0) - (if text (s.ilen - 2) = pad then 1 else 0)
      sub := .run }
    ∧ 1 ≤ 3 * (s.ilen / 4) - (if text (s.ilen - 1) = pad then 1 else 0) - (if text (s.ilen - 2) = pad then 1 else 0)

/-- R118: B64ENC of at least one byte, whose text fits IBUF and is fed back as the input of a B64DEC, decodes to exactly
those bytes with no error. Of no byte at all: the empty text, which decodes to InvalidLength. -/
def Obligations.DecodeInvertsEncode : Prop :=
  (∀ s : State, s.busy = false → s.ilen = 0 → ∃ t, exec .b64enc s = .next t ∧ t.err = .none ∧ t.olen = 0 ∧
    ∀ u : State, u.busy = false → u.ilen = t.olen → ∃ w, exec .b64dec u = .next w ∧ w.err = .invalidLength) ∧
  ∀ (s : State) (b : Nat → Byte), s.busy = false → s.cfg.wf = true → 1 ≤ s.ilen →
    4 * ((s.ilen + 2) / 3) ≤ s.cfg.imax → (∀ k < s.ilen, s.ibuf.get k = some (b k)) →
    ∃ t, exec .b64enc s = .next t ∧
      ∀ u : State, u.busy = false → u.cfg = s.cfg → u.ilen = t.olen → (∀ k < t.olen, u.ibuf.get k = t.obuf.get k) →
        ∃ w, exec .b64dec u = .next w ∧ w.err = .none ∧ w.olen = s.ilen
          ∧ ∀ k < s.ilen, w.obuf.get k = some (b k)

/-! ## RC4KSA (41_rc4_ksa.md) -/

/-- R138: an empty key ends RC4KSA with InvalidKey and leaves S, I and J, and everything else but the fields acceptance
and `raise` write, as they were. -/
def Obligations.EmptyKeyRejected : Prop :=
  ∀ s : State, s.busy = false → s.ilen = 0 →
    exec .rc4ksa s = .next { s with
      op := .rc4ksa, err := .invalidKey, done := true, busy := false, olen := 0, cnt := 0, sub := .check }

/-- R137: a successful RC4KSA leaves in S the permutation that RC4's key schedule computes from the key bytes alone,
every entry written, whatever S, I, J, OBUF or the Base64 unit held before. -/
def Obligations.KeyScheduleComputesThePermutation : Prop :=
  ∀ (s : State) (key : Nat → Byte), s.busy = false → 0 < s.ilen →
    (∀ k < min s.ilen 256, s.ibuf.get k = some (key k)) →
    ∃ t, exec .rc4ksa s = .next t ∧ Holds t.sbox (keySchedule key s.ilen) ∧ Scheduled t.sbox
      ∧ t.i = 0#8 ∧ t.j = 0#8 ∧ t.olen = 0 ∧ t.err = .none ∧ t.busy = false ∧ t.done = true ∧ t.op = .rc4ksa
      ∧ t.draws = s.draws

/-- R131: key bytes from index 256 on have no effect: the result of RC4KSA is the same on any two keys of lengths 256 or
more that agree on the first 256 bytes, and on a key and that key repeated a whole number of times. -/
def Obligations.KeyBytesUsedCyclically : Prop :=
  ∀ (s u : State) (key key' : Nat → Byte), s.busy = false → u.busy = false → 0 < s.ilen → 0 < u.ilen →
    (∀ k < min s.ilen 256, s.ibuf.get k = some (key k)) → (∀ k < min u.ilen 256, u.ibuf.get k = some (key' k)) →
    (∀ n < 256, key (n % s.ilen) = key' (n % u.ilen)) →
    ∃ t w, exec .rc4ksa s = .next t ∧ exec .rc4ksa u = .next w ∧ ∀ k < 256, t.sbox.get k = w.sbox.get k

/-- R43, R44: RC4KSA with any key, loaded or not, makes a permutation, and changes nothing but S below 256, I, J, CNT,
SUB, OLEN and the status fields (and the model's count of draws). -/
def Obligations.KeyScheduleFrame : Prop :=
  ∀ s : State, s.busy = false → 0 < s.ilen →
    ∃ t, exec .rc4ksa s = .next t ∧ Scheduled t.sbox ∧ t.err = .none ∧ t.olen = 0 ∧ t.done = true ∧ t.busy = false
      ∧ t.cfg = s.cfg ∧ t.ilen = s.ilen ∧ t.acc = s.acc ∧ t.nout = s.nout ∧ t.ibuf = s.ibuf ∧ t.obuf = s.obuf
      ∧ t.script = s.script ∧ t.reads = s.reads ∧ ∀ k, 256 ≤ k → t.sbox.get k = s.sbox.get k

/-- R132, R133: the CHECK and FILL steps of RC4KSA; the 257 FILL steps leave the identity, whatever S held. -/
def Obligations.KeyFillSteps : Prop :=
  (∀ s : State, s.busy = true → s.done = false → s.op = .rc4ksa → s.sub = .check → 0 < s.ilen →
      engineStep s = .next { s with j := 0#8, sub := .fill })
    ∧ (∀ s : State, s.busy = true → s.done = false → s.op = .rc4ksa → s.sub = .check → s.ilen = 0 →
      engineStep s = .next { s with err := .invalidKey, olen := 0, busy := false, done := true })
    ∧ (∀ s : State, s.busy = true → s.done = false → s.op = .rc4ksa → s.sub = .fill → s.cnt < 256 →
      ∃ m : Memory, engineStep s = .next { s with sbox := m, cnt := s.cnt + 1 }
        ∧ ∀ k, m.get k = if k = s.cnt then some (BitVec.ofNat 8 s.cnt) else s.sbox.get k)
    ∧ (∀ s : State, s.busy = true → s.done = false → s.op = .rc4ksa → s.sub = .fill → s.cnt = 256 →
      engineStep s = .next { s with cnt := 0, sub := .run })
    ∧ ∀ s : State, s.busy = true → s.done = false → s.op = .rc4ksa → s.sub = .fill → s.cnt = 0 →
      ∃ m : Memory, engineRun 257 s = .next { s with sbox := m, cnt := 0, sub := .run }
        ∧ ∀ n < 256, m.get n = some (BitVec.ofNat 8 n)

/-- R134: the RC4KSA mixing step on a written S and key: `J <- (J + S[n] + IBUF[n mod ILEN]) mod 256`, then the exchange
of `S[n]` and `S[J]` with the new J, then `CNT <- n + 1`; nothing else. -/
def Obligations.KeyMixStep : Prop :=
  ∀ (s : State) (perm : Byte → Byte) (kb : Byte), s.busy = true → s.done = false → s.op = .rc4ksa → s.sub = .run →
    s.cnt < 256 → Holds s.sbox perm → s.ibuf.get (s.cnt % s.ilen) = some kb →
    ∃ m : Memory, engineStep s = .next { s with
        j := BitVec.ofNat 8 ((s.j.toNat + (perm (BitVec.ofNat 8 s.cnt)).toNat + kb.toNat) % 256)
        sbox := m, cnt := s.cnt + 1 }
      ∧ Holds m (exchange perm (BitVec.ofNat 8 s.cnt)
        (BitVec.ofNat 8 ((s.j.toNat + (perm (BitVec.ofNat 8 s.cnt)).toNat + kb.toNat) % 256)))

/-! ## RC4PRGA (42_rc4_prga.md) -/

/-- R145: RC4PRGA on a written S and a loaded data buffer: output byte `p` is data byte `p` xor keystream byte `p`, from
the cursors it finds when they persist and from `I = J = 0` otherwise; S, I and J are those of the cipher advanced by
ILEN bytes; `OLEN = ILEN`, `ERR = 0`. -/
def Obligations.TransformComputesTheKeystream : Prop :=
  ∀ (s : State) (perm : Byte → Byte) (data : Nat → Byte) (start : CipherState), s.busy = false →
    Holds s.sbox perm → (∀ p < s.ilen, s.ibuf.get p = some (data p)) →
    start = (if s.cfg.persistCursors then ⟨perm, s.i, s.j⟩ else ⟨perm, 0#8, 0#8⟩) →
    ∃ t, exec .rc4prga s = .next t ∧ t.olen = s.ilen ∧ t.err = .none ∧ t.busy = false ∧ t.done = true
      ∧ t.op = .rc4prga ∧ (∀ p < s.ilen, t.obuf.get p = some (data p ^^^ keystream start p))
      ∧ Holds t.sbox (advanceBy s.ilen start).perm ∧ t.i = (advanceBy s.ilen start).i
      ∧ t.j = (advanceBy s.ilen start).j ∧ t.draws = s.draws

/-- R157, R160: RC4PRGA completes with `ERR = 0` and `OLEN = ILEN` on every state and data, an S no key schedule has
made among them. R44, R153: it changes nothing but S below 256, I, J, CNT, SUB, OLEN, the status fields and the first
ILEN entries of OBUF (and the model's count of draws); in the reference mode it ends with `I = ILEN mod 256`. -/
def Obligations.TransformFrame : Prop :=
  ∀ s : State, s.busy = false →
    ∃ t, exec .rc4prga s = .next t ∧ t.err = .none ∧ t.olen = s.ilen ∧ t.busy = false ∧ t.done = true
      ∧ t.op = .rc4prga ∧ t.cfg = s.cfg ∧ t.ilen = s.ilen ∧ t.acc = s.acc ∧ t.nout = s.nout ∧ t.ibuf = s.ibuf
      ∧ t.script = s.script ∧ t.reads = s.reads
      ∧ (∀ k < s.ilen, (t.obuf.get k).isSome) ∧ (∀ k, s.ilen ≤ k → t.obuf.get k = s.obuf.get k)
      ∧ (s.sbox.wf → ∀ k, 256 ≤ k → t.sbox.get k = s.sbox.get k)
      ∧ (s.cfg.persistCursors = false → t.i = BitVec.ofNat 8 (s.ilen % 256))

/-- R149: the RC4PRGA byte step on a written S and data byte: the advance of I and J, the exchange, the output byte from
the S after it, and CNT; nothing else. -/
def Obligations.StreamByteStep : Prop :=
  ∀ (s : State) (perm : Byte → Byte) (d : Byte), s.busy = true → s.done = false → s.op = .rc4prga → s.sub = .run →
    s.cnt < s.ilen → Holds s.sbox perm → s.ibuf.get s.cnt = some d →
    ∃ (i j : Byte) (after : Byte → Byte) (m q : Memory), i = BitVec.ofNat 8 ((s.i.toNat + 1) % 256)
      ∧ j = BitVec.ofNat 8 ((s.j.toNat + (perm i).toNat) % 256)
      ∧ after = (fun k => if k = i then perm j else if k = j then perm i else perm k)
      ∧ engineStep s = .next { s with i := i, j := j, sbox := m, obuf := q, cnt := s.cnt + 1 }
      ∧ Holds m after
      ∧ q.get s.cnt = some (d ^^^ after (BitVec.ofNat 8 (((after i).toNat + (after j).toNat) % 256)))
      ∧ ∀ k, k ≠ s.cnt → q.get k = s.obuf.get k

/-- R152: RC4PRGA with `ILEN = 0` makes no byte step: S, OBUF and everything else but the fields of acceptance, the
set-up and the completion stay as they were. -/
def Obligations.TransformOfNothing : Prop :=
  ∀ s : State, s.busy = false → s.ilen = 0 →
    exec .rc4prga s = .next { s with
      op := .rc4prga, err := .none, done := true, busy := false, olen := 0, cnt := 0, sub := .run
      i := if s.cfg.persistCursors then s.i else 0#8
      j := if s.cfg.persistCursors then s.j else 0#8 }

/-- R146: the state an RC4PRGA leaves does not depend on the data, nor does its keystream; transforming zero bytes gives
the keystream. -/
def Obligations.KeystreamIgnoresData : Prop :=
  ∀ (s u : State) (data data' : Nat → Byte), s.busy = false → u.busy = false → Scheduled s.sbox →
    u.cfg = s.cfg → u.ilen = s.ilen → u.i = s.i → u.j = s.j → (∀ k < 256, u.sbox.get k = s.sbox.get k) →
    (∀ p < s.ilen, s.ibuf.get p = some (data p)) → (∀ p < s.ilen, u.ibuf.get p = some (data' p)) →
    ∃ (t w : State) (key : Nat → Byte), exec .rc4prga s = .next t ∧ exec .rc4prga u = .next w
      ∧ t.i = w.i ∧ t.j = w.j ∧ (∀ k < 256, t.sbox.get k = w.sbox.get k)
      ∧ (∀ p < s.ilen, t.obuf.get p = some (data p ^^^ key p))
      ∧ (∀ p < s.ilen, w.obuf.get p = some (data' p ^^^ key p))
      ∧ ∀ p < s.ilen, data p = 0#8 → t.obuf.get p = some (key p)

/-- R155: RC4KSA with a key, RC4PRGA on data, RC4KSA with the key again and RC4PRGA on the ciphertext give the data
back, in either mode of the cursors. The host carries the ciphertext from OBUF to IBUF, so the states in between are any
that hold what the previous command left and what the host loaded. -/
def Obligations.TransformIsItsOwnInverse : Prop :=
  ∀ (s : State) (key data : Nat → Byte) (n : Nat), s.busy = false → 0 < s.ilen →
    (∀ k < min s.ilen 256, s.ibuf.get k = some (key k)) →
    ∃ t, exec .rc4ksa s = .next t ∧
      ∀ u : State, u.busy = false → u.cfg = s.cfg → u.sbox = t.sbox → u.i = t.i → u.j = t.j → u.ilen = n →
        (∀ p < n, u.ibuf.get p = some (data p)) →
        ∃ c, exec .rc4prga u = .next c ∧
          ∀ v : State, v.busy = false → v.cfg = s.cfg → v.ilen = s.ilen →
            (∀ k < min s.ilen 256, v.ibuf.get k = some (key k)) →
            ∃ w, exec .rc4ksa v = .next w ∧
              ∀ x : State, x.busy = false → x.cfg = s.cfg → x.sbox = w.sbox → x.i = w.i → x.j = w.j →
                x.ilen = c.olen → (∀ p < n, x.ibuf.get p = c.obuf.get p) →
                ∃ r, exec .rc4prga x = .next r ∧ r.olen = n ∧ ∀ p < n, r.obuf.get p = some (data p)

/-- R154: in the mode `true` two transforms of lengths `a` and `b` give the same bytes and the same final S, I and J as
one on the data joined. -/
def Obligations.PersistentCursorsContinue : Prop :=
  ∀ (s : State) (data : Nat → Byte) (a b : Nat), s.busy = false → s.cfg.persistCursors = true → s.ilen = a + b →
    Scheduled s.sbox → (∀ p < a + b, s.ibuf.get p = some (data p)) →
    ∃ t t1, exec .rc4prga s = .next t ∧ exec .rc4prga { s with ilen := a } = .next t1 ∧
      ∀ u : State, u.busy = false → u.cfg = s.cfg → u.sbox = t1.sbox → u.i = t1.i → u.j = t1.j → u.ilen = b →
        (∀ p < b, u.ibuf.get p = some (data (a + p))) →
        ∃ t2, exec .rc4prga u = .next t2 ∧ t2.i = t.i ∧ t2.j = t.j ∧ (∀ k < 256, t2.sbox.get k = t.sbox.get k)
          ∧ (∀ p < a, t1.obuf.get p = t.obuf.get p) ∧ ∀ p < b, t2.obuf.get p = t.obuf.get (a + p)

/-- R43: after every successful RC4KSA S is a permutation; after every engine step of an RC4PRGA on a permutation it still
is, and so after the whole command. -/
def Obligations.SboxStaysAPermutation : Prop :=
  (∀ s : State, s.busy = false → 0 < s.ilen → ∃ t, exec .rc4ksa s = .next t ∧ t.err = .none ∧ Scheduled t.sbox)
    ∧ (∀ s t : State, s.busy = true → s.op = .rc4prga → Scheduled s.sbox → engineStep s = .next t → Scheduled t.sbox)
    ∧ ∀ s : State, s.busy = false → Scheduled s.sbox → ∃ t, exec .rc4prga s = .next t ∧ Scheduled t.sbox

/-! ## The remaining rows of the sequencer (R80) -/

/-- R103, R148: the CHECK steps that always pass. -/
def Obligations.CheckStepsThatPass : Prop :=
  (∀ s : State, s.busy = true → s.done = false → s.op = .b64enc → s.sub = .check →
      engineStep s = .next { s with sub := .run })
    ∧ (∀ s : State, s.busy = true → s.done = false → s.op = .rc4prga → s.sub = .check →
      s.cfg.persistCursors = false → engineStep s = .next { s with i := 0#8, j := 0#8, sub := .run })
    ∧ ∀ s : State, s.busy = true → s.done = false → s.op = .rc4prga → s.sub = .check →
      s.cfg.persistCursors = true → engineStep s = .next { s with sub := .run }

/-- R105, R117, R136, R150: the completion steps. -/
def Obligations.CompletionSteps : Prop :=
  ∀ s : State, s.busy = true → s.done = false → s.sub = .run →
    (s.op = .b64enc → s.cnt = (s.ilen + 2) / 3 →
      engineStep s = .next { s with olen := 4 * s.cnt, err := .none, busy := false, done := true })
      ∧ (s.op = .b64dec → s.cnt = s.ilen / 4 →
        engineStep s = .next { s with olen := s.nout, err := .none, busy := false, done := true })
      ∧ (s.op = .rc4ksa → s.cnt = 256 →
        engineStep s = .next { s with i := 0#8, j := 0#8, olen := 0, err := .none, busy := false, done := true })
      ∧ (s.op = .rc4prga → s.cnt = s.ilen →
        engineStep s = .next { s with olen := s.ilen, err := .none, busy := false, done := true })

/-- R175, R177: an engine step that ends its command with an error writes ERR, OLEN, BUSY and DONE and nothing else (the
model's count of draws apart). -/
def Obligations.ErrorWritesOnlyItsReport : Prop :=
  ∀ s t : State, Inv s → s.busy = true → engineStep s = .next t → t.err ≠ .none →
    t = { s with err := t.err, olen := 0, busy := false, done := true, draws := t.draws }

/-! ## The two levels agree (00_scope.md R10) -/

/-- R107: the engine steps of B64ENC from acceptance leave exactly the state of the whole operation, and they are
`ceil(ILEN / 3) + 2`: the engine is BUSY before the last of them.
(The model's choice: an unwritten entry both levels read is one draw with one value, log entry 2, so that the equality
holds of inputs not written too.) -/
def Obligations.EncodeStepsAgree : Prop :=
  ∀ s : State, s.busy = false →
    engineRun ((s.ilen + 2) / 3 + 2) (s.accept .b64enc) = exec .b64enc s
      ∧ ∀ m < (s.ilen + 2) / 3 + 2, ∃ u, engineRun m (s.accept .b64enc) = .next u ∧ u.busy = true

/-- R122: the engine steps of B64DEC from acceptance leave exactly the state of the whole operation; a successful decode
takes `ILEN / 4 + 2` of them, an InvalidLength one.
(The model's choice: an unwritten entry both levels read is one draw with one value, log entry 2, so that the equality
holds of texts not written too.) -/
def Obligations.DecodeStepsAgree : Prop :=
  ∀ s : State, s.busy = false →
    engineRun (s.ilen / 4 + 2) (s.accept .b64dec) = exec .b64dec s
      ∧ (∀ t, exec .b64dec s = .next t → t.err = .none →
        ∀ m < s.ilen / 4 + 2, ∃ u, engineRun m (s.accept .b64dec) = .next u ∧ u.busy = true)
      ∧ (s.ilen = 0 ∨ s.ilen % 4 ≠ 0 → engineRun 1 (s.accept .b64dec) = exec .b64dec s)

/-- R140: the engine steps of RC4KSA from acceptance leave exactly the state of the whole operation: 515 with a key, the
engine BUSY before the last of them; one without.
(The model's choice: an unwritten entry both levels read is one draw with one value, log entry 2, so that the equality
holds of keys not written too.) -/
def Obligations.KeyScheduleStepsAgree : Prop :=
  ∀ s : State, s.busy = false →
    (0 < s.ilen → engineRun 515 (s.accept .rc4ksa) = exec .rc4ksa s
      ∧ ∀ m < 515, ∃ u, engineRun m (s.accept .rc4ksa) = .next u ∧ u.busy = true)
      ∧ (s.ilen = 0 → engineRun 1 (s.accept .rc4ksa) = exec .rc4ksa s)

/-- R158: the engine steps of RC4PRGA from acceptance leave exactly the state of the whole operation, and they are
`ILEN + 2`.
(The model's choice: an unwritten entry both levels read is one draw with one value, log entry 2, so that the equality
holds of an S or data not written too.) -/
def Obligations.TransformStepsAgree : Prop :=
  ∀ s : State, s.busy = false →
    engineRun (s.ilen + 2) (s.accept .rc4prga) = exec .rc4prga s
      ∧ ∀ m < s.ilen + 2, ∃ u, engineRun m (s.accept .rc4prga) = .next u ∧ u.busy = true

/-- R78, R10: running a command word by the merged RUN turn, or by a CMD write and the engine's steps under WAIT, ends in
the same state, the poll that saw DONE noted once. (The model's choices: the turn RUN, log entry 4; the single reading a
WAIT notes, log entry 18; that an unwritten entry both ways read is one draw with one value, log entry 2.) -/
def Obligations.RunIsCommandThenWait : Prop :=
  ∀ (s : State) (v : Nat) (rest : List Turn), s.busy = false →
    ∃ (n : Nat) (t : State),
      Sys2Proof.core.run 2 { s with script := .run v :: rest } = .next t
        ∧ Sys2Proof.core.run n { s with script := .write (.csr .cmd) v :: .wait :: rest } = .next t
        ∧ t.script = rest ∧ t.busy = false ∧ t.done = true
        ∧ t.reads = s.reads ++ [⟨.csr .status, t.status.toNat⟩]

/-- R78, R77: a LOAD line run on a block that is not BUSY leaves the octets in IBUF from index 0 and their number in ILEN,
every other entry of IBUF and everything else as it was. (Turns are the model's own, log entry 4.) -/
def Obligations.LoadLineLoadsTheInput : Prop :=
  ∀ (s : State) (octets : List Byte) (rest : List Turn), s.busy = false → octets.length ≤ s.cfg.imax →
    ∃ m : Memory,
      Sys2Proof.core.run (octets.length + 1) { s with script := (Line.load octets).turns ++ rest }
        = .next { s with script := rest, ibuf := m, ilen := octets.length }
      ∧ (∀ k < octets.length, m.get k = octets[k]?) ∧ ∀ k, octets.length ≤ k → m.get k = s.ibuf.get k

/-! ## Rules of the whole machine -/

/-- The invariant holds after reset, at every choice of the parameters (R6, R45). -/
def Obligations.InvariantAfterReset : Prop :=
  (∀ c : Config, c.wf = true → Inv (State.resetWith c)) ∧ Inv State.reset

/-- Every step keeps the invariant: the memories stay canonical and within their spaces (R50), the registers within
their widths (R20), BUSY and DONE are never both set (R21), an error code is one its command raises and comes with an
empty output (R170, R120), the sequencer keeps a row (R80), the S-box is the identity as far as the fill has come and a
permutation while the key schedule mixes (R133, R43), and every output entry is written (R33). -/
def Obligations.StepKeepsInvariant : Prop :=
  ∀ s t : State, Inv s → step s = .next t → Inv t

/-- R80: in every state with BUSY = 1 that satisfies the invariant the engine has a step. -/
def Obligations.BusyEngineHasARow : Prop :=
  ∀ s : State, Inv s → s.busy = true → ∃ t, engineStep s = .next t

/-- R217, R219: a BUSY engine completes its command within the steps the rules count, the most being `ILEN + 2` or 515. -/
def Obligations.EveryCommandCompletes : Prop :=
  ∀ s : State, Inv s → s.busy = true →
    ∃ n ≤ max (s.ilen + 2) 515, ∃ t, engineRun n s = .next t ∧ t.busy = false ∧ t.done = true

/-- R21: once a command has been accepted the block is BUSY or DONE until a reset: no other step goes back to IDLE. -/
def Obligations.IdleOnlyByReset : Prop :=
  ∀ s t : State, step s = .next t → (∀ rest, s.script ≠ .reset :: rest) → s.busy = true ∨ s.done = true →
    t.busy = true ∨ t.done = true

/-- R180: what writes BUSY, DONE, ERR and OP, turn by turn. A host read, a host write other than an accepted CMD write, a
RUN on a BUSY block, and a WAIT, an engine turn or an empty script on a block that is not BUSY change none of them; an
accepted CMD write and the reset set them as the rule says; a RUN on a block that is not BUSY ends with its command
complete, OP that command and ERR a code of that command or none; an engine step, which is what a WAIT, an engine turn
and an empty script are on a BUSY block, leaves OP, and either leaves the others or completes. (Turns are the model's
own, log entry 4.) -/
def Obligations.WhatWritesTheFlags : Prop :=
  ∀ s t : State, Inv s → step s = .next t →
    (∀ p rest, s.script = .read p :: rest → t.busy = s.busy ∧ t.done = s.done ∧ t.err = s.err ∧ t.op = s.op)
      ∧ (∀ p v rest, s.script = .write p v :: rest → p ≠ .csr .cmd ∨ s.busy = true →
        t.busy = s.busy ∧ t.done = s.done ∧ t.err = s.err ∧ t.op = s.op)
      ∧ (∀ v rest, s.script = .write (.csr .cmd) v :: rest → s.busy = false →
        t.busy = true ∧ t.done = false ∧ t.err = .none ∧ t.op = commandOf v)
      ∧ (∀ rest, s.script = .reset :: rest →
        t.busy = false ∧ t.done = false ∧ t.err = .none ∧ opcode t.op = 0#2)
      ∧ (∀ v rest, s.script = .run v :: rest → s.busy = false →
        t.busy = false ∧ t.done = true ∧ t.op = commandOf v ∧ ErrOk t)
      ∧ (∀ v rest, s.script = .run v :: rest → s.busy = true →
        t.busy = s.busy ∧ t.done = s.done ∧ t.err = s.err ∧ t.op = s.op)
      ∧ ((s.script = [] ∨ ∃ rest, s.script = .wait :: rest ∨ s.script = .engine :: rest) → s.busy = false →
        t.busy = s.busy ∧ t.done = s.done ∧ t.err = s.err ∧ t.op = s.op)
      ∧ ((s.script = [] ∨ ∃ rest, s.script = .wait :: rest ∨ s.script = .engine :: rest) → s.busy = true →
        t.op = s.op ∧ ((t.busy = true ∧ t.done = false ∧ t.err = .none) ∨ (t.busy = false ∧ t.done = true)))
      ∧ ∀ u : State, s.busy = true → engineStep s = .next u →
        u.op = s.op ∧ ((u.busy = true ∧ u.done = false ∧ u.err = .none) ∨ (u.busy = false ∧ u.done = true))

/-- R34, R44: the S-box is changed only by RC4KSA, by RC4PRGA and by a reset. -/
def Obligations.OnlyCipherCommandsWriteSbox : Prop :=
  ∀ s t : State, step s = .next t → t.sbox ≠ s.sbox →
    (∃ rest, s.script = .reset :: rest)
      ∨ (∃ v rest, s.script = .run v :: rest ∧ s.busy = false ∧ (commandOf v = .rc4ksa ∨ commandOf v = .rc4prga))
      ∨ (s.busy = true ∧ (s.op = .rc4ksa ∨ s.op = .rc4prga))

/-- R32, R24, R6: IBUF is changed only by a host write of IBUF that is not ignored and by a reset, ILEN only by a host
write of ILEN that is not ignored and by a reset, and no step changes the parameters. -/
def Obligations.OnlyTheHostWritesInputs : Prop :=
  ∀ s t : State, step s = .next t →
    t.cfg = s.cfg
      ∧ (t.ibuf ≠ s.ibuf → (∃ rest, s.script = .reset :: rest)
        ∨ ∃ k v rest, s.script = .write (.ibuf k) v :: rest ∧ s.busy = false)
      ∧ (t.ilen ≠ s.ilen → (∃ rest, s.script = .reset :: rest)
        ∨ ∃ v rest, s.script = .write (.csr .ilen) v :: rest ∧ s.busy = false)

/-- R177, R44, R2: on loaded inputs the error a command reports is a function of ILEN and `IBUF[0 .. ILEN)`, and so is
the output of a Base64 command: S, I, J and whatever else the block held before make no difference. -/
def Obligations.ResultDependsOnInputOnly : Prop :=
  ∀ (s u : State) (i : Instr), s.busy = false → u.busy = false → InputLoaded s → u.cfg = s.cfg → u.ilen = s.ilen →
    (∀ k < s.ilen, u.ibuf.get k = s.ibuf.get k) →
    ∃ t w, exec i s = .next t ∧ exec i u = .next w ∧ t.err = w.err ∧ t.olen = w.olen
      ∧ (i = .b64enc ∨ i = .b64dec → ∀ k < t.olen, t.obuf.get k = w.obuf.get k)

/-- R204 to R208: a host that keeps its duties never meets an unspecified value: no step of such a run draws a free
value, and the duties stay kept. -/
def Obligations.DutiesKeptNeedNoFreeValue : Prop :=
  ∀ s t : State, Inv s → DutiesKept s → (∀ turn rest, s.script = turn :: rest → DutyKept s turn) →
    step s = .next t → t.draws = s.draws ∧ DutiesKept t

/-- R46, R160: the first S-box read of an RC4PRGA on an S that nothing has made is a free value: J becomes that value
plus the J before, whatever it is; the command goes on (log entry 2). -/
def Obligations.UnmadeSboxReadIsFree : Prop :=
  ∀ s : State, s.busy = true → s.done = false → s.op = .rc4prga → s.sub = .run → s.cnt < s.ilen →
    s.sbox.get (s.i + 1#8).toNat = none →
    ∃ t, engineStep s = .next t ∧ t.j = s.j + Config.freeValue 8 s.draws ∧ t.i = s.i + 1#8 ∧ t.cnt = s.cnt + 1
      ∧ s.draws < t.draws ∧ t.busy = true

/-- R50: a host turn that names an index its space does not have is no access of this block: the machine stops with a
fault of that name (log entry 6). -/
def Obligations.IndexOutsideTheSpaceFaults : Prop :=
  ∀ (s : State) (p : Port) (v : Nat) (rest : List Turn), p.inRange s.cfg = false →
    (s.script = .read p :: rest → step s = .fault .indexOutOfRange)
      ∧ (s.script = .write p v :: rest → step s = .fault .indexOutOfRange)
end

