-- ==== Sys2Proof/Laws/State.lean ====
section
/-! SUPPORT. One lemma per field per update of the named state operations, each true by rfl, so that no proof unfolds a
record update. -/

namespace Sys2Proof.Machine

/-! ## `State.flagsAccept` -/

@[simp] theorem State.flagsAccept_cfg (s : State) (c : Instr) : (s.flagsAccept c).cfg = s.cfg := rfl
@[simp] theorem State.flagsAccept_busy (s : State) (c : Instr) : (s.flagsAccept c).busy = true := rfl
@[simp] theorem State.flagsAccept_done (s : State) (c : Instr) : (s.flagsAccept c).done = false := rfl
@[simp] theorem State.flagsAccept_err (s : State) (c : Instr) : (s.flagsAccept c).err = .none := rfl
@[simp] theorem State.flagsAccept_op (s : State) (c : Instr) : (s.flagsAccept c).op = c := rfl
@[simp] theorem State.flagsAccept_ilen (s : State) (c : Instr) : (s.flagsAccept c).ilen = s.ilen := rfl
@[simp] theorem State.flagsAccept_olen (s : State) (c : Instr) : (s.flagsAccept c).olen = s.olen := rfl
@[simp] theorem State.flagsAccept_i (s : State) (c : Instr) : (s.flagsAccept c).i = s.i := rfl
@[simp] theorem State.flagsAccept_j (s : State) (c : Instr) : (s.flagsAccept c).j = s.j := rfl
@[simp] theorem State.flagsAccept_acc (s : State) (c : Instr) : (s.flagsAccept c).acc = s.acc := rfl
@[simp] theorem State.flagsAccept_cnt (s : State) (c : Instr) : (s.flagsAccept c).cnt = s.cnt := rfl
@[simp] theorem State.flagsAccept_sub (s : State) (c : Instr) : (s.flagsAccept c).sub = s.sub := rfl
@[simp] theorem State.flagsAccept_nout (s : State) (c : Instr) : (s.flagsAccept c).nout = s.nout := rfl
@[simp] theorem State.flagsAccept_ibuf (s : State) (c : Instr) : (s.flagsAccept c).ibuf = s.ibuf := rfl
@[simp] theorem State.flagsAccept_obuf (s : State) (c : Instr) : (s.flagsAccept c).obuf = s.obuf := rfl
@[simp] theorem State.flagsAccept_sbox (s : State) (c : Instr) : (s.flagsAccept c).sbox = s.sbox := rfl
@[simp] theorem State.flagsAccept_script (s : State) (c : Instr) : (s.flagsAccept c).script = s.script := rfl
@[simp] theorem State.flagsAccept_reads (s : State) (c : Instr) : (s.flagsAccept c).reads = s.reads := rfl
@[simp] theorem State.flagsAccept_draws (s : State) (c : Instr) : (s.flagsAccept c).draws = s.draws := rfl

/-! ## `State.flagsComplete` -/

@[simp] theorem State.flagsComplete_cfg (s : State) (e : ErrCode) : (s.flagsComplete e).cfg = s.cfg := rfl
@[simp] theorem State.flagsComplete_busy (s : State) (e : ErrCode) : (s.flagsComplete e).busy = false := rfl
@[simp] theorem State.flagsComplete_done (s : State) (e : ErrCode) : (s.flagsComplete e).done = true := rfl
@[simp] theorem State.flagsComplete_err (s : State) (e : ErrCode) : (s.flagsComplete e).err = e := rfl
@[simp] theorem State.flagsComplete_op (s : State) (e : ErrCode) : (s.flagsComplete e).op = s.op := rfl
@[simp] theorem State.flagsComplete_ilen (s : State) (e : ErrCode) : (s.flagsComplete e).ilen = s.ilen := rfl
@[simp] theorem State.flagsComplete_olen (s : State) (e : ErrCode) : (s.flagsComplete e).olen = s.olen := rfl
@[simp] theorem State.flagsComplete_i (s : State) (e : ErrCode) : (s.flagsComplete e).i = s.i := rfl
@[simp] theorem State.flagsComplete_j (s : State) (e : ErrCode) : (s.flagsComplete e).j = s.j := rfl
@[simp] theorem State.flagsComplete_acc (s : State) (e : ErrCode) : (s.flagsComplete e).acc = s.acc := rfl
@[simp] theorem State.flagsComplete_cnt (s : State) (e : ErrCode) : (s.flagsComplete e).cnt = s.cnt := rfl
@[simp] theorem State.flagsComplete_sub (s : State) (e : ErrCode) : (s.flagsComplete e).sub = s.sub := rfl
@[simp] theorem State.flagsComplete_nout (s : State) (e : ErrCode) : (s.flagsComplete e).nout = s.nout := rfl
@[simp] theorem State.flagsComplete_ibuf (s : State) (e : ErrCode) : (s.flagsComplete e).ibuf = s.ibuf := rfl
@[simp] theorem State.flagsComplete_obuf (s : State) (e : ErrCode) : (s.flagsComplete e).obuf = s.obuf := rfl
@[simp] theorem State.flagsComplete_sbox (s : State) (e : ErrCode) : (s.flagsComplete e).sbox = s.sbox := rfl
@[simp] theorem State.flagsComplete_script (s : State) (e : ErrCode) : (s.flagsComplete e).script = s.script := rfl
@[simp] theorem State.flagsComplete_reads (s : State) (e : ErrCode) : (s.flagsComplete e).reads = s.reads := rfl
@[simp] theorem State.flagsComplete_draws (s : State) (e : ErrCode) : (s.flagsComplete e).draws = s.draws := rfl

/-! ## `State.accept` -/

@[simp] theorem State.accept_cfg (s : State) (c : Instr) : (s.accept c).cfg = s.cfg := rfl
@[simp] theorem State.accept_busy (s : State) (c : Instr) : (s.accept c).busy = true := rfl
@[simp] theorem State.accept_done (s : State) (c : Instr) : (s.accept c).done = false := rfl
@[simp] theorem State.accept_err (s : State) (c : Instr) : (s.accept c).err = .none := rfl
@[simp] theorem State.accept_op (s : State) (c : Instr) : (s.accept c).op = c := rfl
@[simp] theorem State.accept_ilen (s : State) (c : Instr) : (s.accept c).ilen = s.ilen := rfl
@[simp] theorem State.accept_olen (s : State) (c : Instr) : (s.accept c).olen = 0 := rfl
@[simp] theorem State.accept_i (s : State) (c : Instr) : (s.accept c).i = s.i := rfl
@[simp] theorem State.accept_j (s : State) (c : Instr) : (s.accept c).j = s.j := rfl
@[simp] theorem State.accept_acc (s : State) (c : Instr) : (s.accept c).acc = s.acc := rfl
@[simp] theorem State.accept_cnt (s : State) (c : Instr) : (s.accept c).cnt = 0 := rfl
@[simp] theorem State.accept_sub (s : State) (c : Instr) : (s.accept c).sub = .check := rfl
@[simp] theorem State.accept_nout (s : State) (c : Instr) : (s.accept c).nout = s.nout := rfl
@[simp] theorem State.accept_ibuf (s : State) (c : Instr) : (s.accept c).ibuf = s.ibuf := rfl
@[simp] theorem State.accept_obuf (s : State) (c : Instr) : (s.accept c).obuf = s.obuf := rfl
@[simp] theorem State.accept_sbox (s : State) (c : Instr) : (s.accept c).sbox = s.sbox := rfl
@[simp] theorem State.accept_script (s : State) (c : Instr) : (s.accept c).script = s.script := rfl
@[simp] theorem State.accept_reads (s : State) (c : Instr) : (s.accept c).reads = s.reads := rfl
@[simp] theorem State.accept_draws (s : State) (c : Instr) : (s.accept c).draws = s.draws := rfl

/-! ## `State.complete` -/

@[simp] theorem State.complete_cfg (s : State) (e : ErrCode) (n : Nat) : (s.complete e n).cfg = s.cfg := rfl
@[simp] theorem State.complete_busy (s : State) (e : ErrCode) (n : Nat) : (s.complete e n).busy = false := rfl
@[simp] theorem State.complete_done (s : State) (e : ErrCode) (n : Nat) : (s.complete e n).done = true := rfl
@[simp] theorem State.complete_err (s : State) (e : ErrCode) (n : Nat) : (s.complete e n).err = e := rfl
@[simp] theorem State.complete_op (s : State) (e : ErrCode) (n : Nat) : (s.complete e n).op = s.op := rfl
@[simp] theorem State.complete_ilen (s : State) (e : ErrCode) (n : Nat) : (s.complete e n).ilen = s.ilen := rfl
@[simp] theorem State.complete_olen (s : State) (e : ErrCode) (n : Nat) : (s.complete e n).olen = n := rfl
@[simp] theorem State.complete_i (s : State) (e : ErrCode) (n : Nat) : (s.complete e n).i = s.i := rfl
@[simp] theorem State.complete_j (s : State) (e : ErrCode) (n : Nat) : (s.complete e n).j = s.j := rfl
@[simp] theorem State.complete_acc (s : State) (e : ErrCode) (n : Nat) : (s.complete e n).acc = s.acc := rfl
@[simp] theorem State.complete_cnt (s : State) (e : ErrCode) (n : Nat) : (s.complete e n).cnt = s.cnt := rfl
@[simp] theorem State.complete_sub (s : State) (e : ErrCode) (n : Nat) : (s.complete e n).sub = s.sub := rfl
@[simp] theorem State.complete_nout (s : State) (e : ErrCode) (n : Nat) : (s.complete e n).nout = s.nout := rfl
@[simp] theorem State.complete_ibuf (s : State) (e : ErrCode) (n : Nat) : (s.complete e n).ibuf = s.ibuf := rfl
@[simp] theorem State.complete_obuf (s : State) (e : ErrCode) (n : Nat) : (s.complete e n).obuf = s.obuf := rfl
@[simp] theorem State.complete_sbox (s : State) (e : ErrCode) (n : Nat) : (s.complete e n).sbox = s.sbox := rfl
@[simp] theorem State.complete_script (s : State) (e : ErrCode) (n : Nat) : (s.complete e n).script = s.script := rfl
@[simp] theorem State.complete_reads (s : State) (e : ErrCode) (n : Nat) : (s.complete e n).reads = s.reads := rfl
@[simp] theorem State.complete_draws (s : State) (e : ErrCode) (n : Nat) : (s.complete e n).draws = s.draws := rfl

/-! ## `State.raise` -/

@[simp] theorem State.raise_cfg (s : State) (e : ErrCode) : (s.raise e).cfg = s.cfg := rfl
@[simp] theorem State.raise_busy (s : State) (e : ErrCode) : (s.raise e).busy = false := rfl
@[simp] theorem State.raise_done (s : State) (e : ErrCode) : (s.raise e).done = true := rfl
@[simp] theorem State.raise_err (s : State) (e : ErrCode) : (s.raise e).err = e := rfl
@[simp] theorem State.raise_op (s : State) (e : ErrCode) : (s.raise e).op = s.op := rfl
@[simp] theorem State.raise_ilen (s : State) (e : ErrCode) : (s.raise e).ilen = s.ilen := rfl
@[simp] theorem State.raise_olen (s : State) (e : ErrCode) : (s.raise e).olen = 0 := rfl
@[simp] theorem State.raise_i (s : State) (e : ErrCode) : (s.raise e).i = s.i := rfl
@[simp] theorem State.raise_j (s : State) (e : ErrCode) : (s.raise e).j = s.j := rfl
@[simp] theorem State.raise_acc (s : State) (e : ErrCode) : (s.raise e).acc = s.acc := rfl
@[simp] theorem State.raise_cnt (s : State) (e : ErrCode) : (s.raise e).cnt = s.cnt := rfl
@[simp] theorem State.raise_sub (s : State) (e : ErrCode) : (s.raise e).sub = s.sub := rfl
@[simp] theorem State.raise_nout (s : State) (e : ErrCode) : (s.raise e).nout = s.nout := rfl
@[simp] theorem State.raise_ibuf (s : State) (e : ErrCode) : (s.raise e).ibuf = s.ibuf := rfl
@[simp] theorem State.raise_obuf (s : State) (e : ErrCode) : (s.raise e).obuf = s.obuf := rfl
@[simp] theorem State.raise_sbox (s : State) (e : ErrCode) : (s.raise e).sbox = s.sbox := rfl
@[simp] theorem State.raise_script (s : State) (e : ErrCode) : (s.raise e).script = s.script := rfl
@[simp] theorem State.raise_reads (s : State) (e : ErrCode) : (s.raise e).reads = s.reads := rfl
@[simp] theorem State.raise_draws (s : State) (e : ErrCode) : (s.raise e).draws = s.draws := rfl

/-! ## `State.enterRun` -/

@[simp] theorem State.enterRun_cfg (s : State) : (s.enterRun).cfg = s.cfg := rfl
@[simp] theorem State.enterRun_busy (s : State) : (s.enterRun).busy = s.busy := rfl
@[simp] theorem State.enterRun_done (s : State) : (s.enterRun).done = s.done := rfl
@[simp] theorem State.enterRun_err (s : State) : (s.enterRun).err = s.err := rfl
@[simp] theorem State.enterRun_op (s : State) : (s.enterRun).op = s.op := rfl
@[simp] theorem State.enterRun_ilen (s : State) : (s.enterRun).ilen = s.ilen := rfl
@[simp] theorem State.enterRun_olen (s : State) : (s.enterRun).olen = s.olen := rfl
@[simp] theorem State.enterRun_i (s : State) : (s.enterRun).i = s.i := rfl
@[simp] theorem State.enterRun_j (s : State) : (s.enterRun).j = s.j := rfl
@[simp] theorem State.enterRun_acc (s : State) : (s.enterRun).acc = s.acc := rfl
@[simp] theorem State.enterRun_cnt (s : State) : (s.enterRun).cnt = s.cnt := rfl
@[simp] theorem State.enterRun_sub (s : State) : (s.enterRun).sub = .run := rfl
@[simp] theorem State.enterRun_nout (s : State) : (s.enterRun).nout = s.nout := rfl
@[simp] theorem State.enterRun_ibuf (s : State) : (s.enterRun).ibuf = s.ibuf := rfl
@[simp] theorem State.enterRun_obuf (s : State) : (s.enterRun).obuf = s.obuf := rfl
@[simp] theorem State.enterRun_sbox (s : State) : (s.enterRun).sbox = s.sbox := rfl
@[simp] theorem State.enterRun_script (s : State) : (s.enterRun).script = s.script := rfl
@[simp] theorem State.enterRun_reads (s : State) : (s.enterRun).reads = s.reads := rfl
@[simp] theorem State.enterRun_draws (s : State) : (s.enterRun).draws = s.draws := rfl

/-! ## `State.draw` -/

@[simp] theorem State.draw_snd_cfg (s : State) (w : Nat) : (s.draw w).2.cfg = s.cfg := rfl
@[simp] theorem State.draw_snd_busy (s : State) (w : Nat) : (s.draw w).2.busy = s.busy := rfl
@[simp] theorem State.draw_snd_done (s : State) (w : Nat) : (s.draw w).2.done = s.done := rfl
@[simp] theorem State.draw_snd_err (s : State) (w : Nat) : (s.draw w).2.err = s.err := rfl
@[simp] theorem State.draw_snd_op (s : State) (w : Nat) : (s.draw w).2.op = s.op := rfl
@[simp] theorem State.draw_snd_ilen (s : State) (w : Nat) : (s.draw w).2.ilen = s.ilen := rfl
@[simp] theorem State.draw_snd_olen (s : State) (w : Nat) : (s.draw w).2.olen = s.olen := rfl
@[simp] theorem State.draw_snd_i (s : State) (w : Nat) : (s.draw w).2.i = s.i := rfl
@[simp] theorem State.draw_snd_j (s : State) (w : Nat) : (s.draw w).2.j = s.j := rfl
@[simp] theorem State.draw_snd_acc (s : State) (w : Nat) : (s.draw w).2.acc = s.acc := rfl
@[simp] theorem State.draw_snd_cnt (s : State) (w : Nat) : (s.draw w).2.cnt = s.cnt := rfl
@[simp] theorem State.draw_snd_sub (s : State) (w : Nat) : (s.draw w).2.sub = s.sub := rfl
@[simp] theorem State.draw_snd_nout (s : State) (w : Nat) : (s.draw w).2.nout = s.nout := rfl
@[simp] theorem State.draw_snd_ibuf (s : State) (w : Nat) : (s.draw w).2.ibuf = s.ibuf := rfl
@[simp] theorem State.draw_snd_obuf (s : State) (w : Nat) : (s.draw w).2.obuf = s.obuf := rfl
@[simp] theorem State.draw_snd_sbox (s : State) (w : Nat) : (s.draw w).2.sbox = s.sbox := rfl
@[simp] theorem State.draw_snd_script (s : State) (w : Nat) : (s.draw w).2.script = s.script := rfl
@[simp] theorem State.draw_snd_reads (s : State) (w : Nat) : (s.draw w).2.reads = s.reads := rfl
@[simp] theorem State.draw_snd_draws (s : State) (w : Nat) : (s.draw w).2.draws = s.draws + 1 := rfl

/-! ## `State.record` -/

@[simp] theorem State.record_cfg (s : State) (p : Port) (v : Nat) : (s.record p v).cfg = s.cfg := rfl
@[simp] theorem State.record_busy (s : State) (p : Port) (v : Nat) : (s.record p v).busy = s.busy := rfl
@[simp] theorem State.record_done (s : State) (p : Port) (v : Nat) : (s.record p v).done = s.done := rfl
@[simp] theorem State.record_err (s : State) (p : Port) (v : Nat) : (s.record p v).err = s.err := rfl
@[simp] theorem State.record_op (s : State) (p : Port) (v : Nat) : (s.record p v).op = s.op := rfl
@[simp] theorem State.record_ilen (s : State) (p : Port) (v : Nat) : (s.record p v).ilen = s.ilen := rfl
@[simp] theorem State.record_olen (s : State) (p : Port) (v : Nat) : (s.record p v).olen = s.olen := rfl
@[simp] theorem State.record_i (s : State) (p : Port) (v : Nat) : (s.record p v).i = s.i := rfl
@[simp] theorem State.record_j (s : State) (p : Port) (v : Nat) : (s.record p v).j = s.j := rfl
@[simp] theorem State.record_acc (s : State) (p : Port) (v : Nat) : (s.record p v).acc = s.acc := rfl
@[simp] theorem State.record_cnt (s : State) (p : Port) (v : Nat) : (s.record p v).cnt = s.cnt := rfl
@[simp] theorem State.record_sub (s : State) (p : Port) (v : Nat) : (s.record p v).sub = s.sub := rfl
@[simp] theorem State.record_nout (s : State) (p : Port) (v : Nat) : (s.record p v).nout = s.nout := rfl
@[simp] theorem State.record_ibuf (s : State) (p : Port) (v : Nat) : (s.record p v).ibuf = s.ibuf := rfl
@[simp] theorem State.record_obuf (s : State) (p : Port) (v : Nat) : (s.record p v).obuf = s.obuf := rfl
@[simp] theorem State.record_sbox (s : State) (p : Port) (v : Nat) : (s.record p v).sbox = s.sbox := rfl
@[simp] theorem State.record_script (s : State) (p : Port) (v : Nat) : (s.record p v).script = s.script := rfl
@[simp] theorem State.record_reads (s : State) (p : Port) (v : Nat) : (s.record p v).reads = s.reads ++ [⟨p, v⟩] := rfl
@[simp] theorem State.record_draws (s : State) (p : Port) (v : Nat) : (s.record p v).draws = s.draws := rfl

/-! ## `keySetup` -/

@[simp] theorem keySetup_cfg (s : State) : (keySetup s).cfg = s.cfg := rfl
@[simp] theorem keySetup_busy (s : State) : (keySetup s).busy = s.busy := rfl
@[simp] theorem keySetup_done (s : State) : (keySetup s).done = s.done := rfl
@[simp] theorem keySetup_err (s : State) : (keySetup s).err = s.err := rfl
@[simp] theorem keySetup_op (s : State) : (keySetup s).op = s.op := rfl
@[simp] theorem keySetup_ilen (s : State) : (keySetup s).ilen = s.ilen := rfl
@[simp] theorem keySetup_olen (s : State) : (keySetup s).olen = s.olen := rfl
@[simp] theorem keySetup_i (s : State) : (keySetup s).i = s.i := rfl
@[simp] theorem keySetup_j (s : State) : (keySetup s).j = 0#8 := rfl
@[simp] theorem keySetup_acc (s : State) : (keySetup s).acc = s.acc := rfl
@[simp] theorem keySetup_cnt (s : State) : (keySetup s).cnt = s.cnt := rfl
@[simp] theorem keySetup_sub (s : State) : (keySetup s).sub = .fill := rfl
@[simp] theorem keySetup_nout (s : State) : (keySetup s).nout = s.nout := rfl
@[simp] theorem keySetup_ibuf (s : State) : (keySetup s).ibuf = s.ibuf := rfl
@[simp] theorem keySetup_obuf (s : State) : (keySetup s).obuf = s.obuf := rfl
@[simp] theorem keySetup_sbox (s : State) : (keySetup s).sbox = s.sbox := rfl
@[simp] theorem keySetup_script (s : State) : (keySetup s).script = s.script := rfl
@[simp] theorem keySetup_reads (s : State) : (keySetup s).reads = s.reads := rfl
@[simp] theorem keySetup_draws (s : State) : (keySetup s).draws = s.draws := rfl

/-! ## `fillStep` -/

@[simp] theorem fillStep_cfg (s : State) : (fillStep s).cfg = s.cfg := rfl
@[simp] theorem fillStep_busy (s : State) : (fillStep s).busy = s.busy := rfl
@[simp] theorem fillStep_done (s : State) : (fillStep s).done = s.done := rfl
@[simp] theorem fillStep_err (s : State) : (fillStep s).err = s.err := rfl
@[simp] theorem fillStep_op (s : State) : (fillStep s).op = s.op := rfl
@[simp] theorem fillStep_ilen (s : State) : (fillStep s).ilen = s.ilen := rfl
@[simp] theorem fillStep_olen (s : State) : (fillStep s).olen = s.olen := rfl
@[simp] theorem fillStep_i (s : State) : (fillStep s).i = s.i := rfl
@[simp] theorem fillStep_j (s : State) : (fillStep s).j = s.j := rfl
@[simp] theorem fillStep_acc (s : State) : (fillStep s).acc = s.acc := rfl
@[simp] theorem fillStep_cnt (s : State) : (fillStep s).cnt = s.cnt + 1 := rfl
@[simp] theorem fillStep_sub (s : State) : (fillStep s).sub = s.sub := rfl
@[simp] theorem fillStep_nout (s : State) : (fillStep s).nout = s.nout := rfl
@[simp] theorem fillStep_ibuf (s : State) : (fillStep s).ibuf = s.ibuf := rfl
@[simp] theorem fillStep_obuf (s : State) : (fillStep s).obuf = s.obuf := rfl
@[simp] theorem fillStep_sbox (s : State) : (fillStep s).sbox = s.sbox.set s.cnt (BitVec.ofNat 8 s.cnt) := rfl
@[simp] theorem fillStep_script (s : State) : (fillStep s).script = s.script := rfl
@[simp] theorem fillStep_reads (s : State) : (fillStep s).reads = s.reads := rfl
@[simp] theorem fillStep_draws (s : State) : (fillStep s).draws = s.draws := rfl

/-! ## `fillFinish` -/

@[simp] theorem fillFinish_cfg (s : State) : (fillFinish s).cfg = s.cfg := rfl
@[simp] theorem fillFinish_busy (s : State) : (fillFinish s).busy = s.busy := rfl
@[simp] theorem fillFinish_done (s : State) : (fillFinish s).done = s.done := rfl
@[simp] theorem fillFinish_err (s : State) : (fillFinish s).err = s.err := rfl
@[simp] theorem fillFinish_op (s : State) : (fillFinish s).op = s.op := rfl
@[simp] theorem fillFinish_ilen (s : State) : (fillFinish s).ilen = s.ilen := rfl
@[simp] theorem fillFinish_olen (s : State) : (fillFinish s).olen = s.olen := rfl
@[simp] theorem fillFinish_i (s : State) : (fillFinish s).i = s.i := rfl
@[simp] theorem fillFinish_j (s : State) : (fillFinish s).j = s.j := rfl
@[simp] theorem fillFinish_acc (s : State) : (fillFinish s).acc = s.acc := rfl
@[simp] theorem fillFinish_cnt (s : State) : (fillFinish s).cnt = 0 := rfl
@[simp] theorem fillFinish_sub (s : State) : (fillFinish s).sub = .run := rfl
@[simp] theorem fillFinish_nout (s : State) : (fillFinish s).nout = s.nout := rfl
@[simp] theorem fillFinish_ibuf (s : State) : (fillFinish s).ibuf = s.ibuf := rfl
@[simp] theorem fillFinish_obuf (s : State) : (fillFinish s).obuf = s.obuf := rfl
@[simp] theorem fillFinish_sbox (s : State) : (fillFinish s).sbox = s.sbox := rfl
@[simp] theorem fillFinish_script (s : State) : (fillFinish s).script = s.script := rfl
@[simp] theorem fillFinish_reads (s : State) : (fillFinish s).reads = s.reads := rfl
@[simp] theorem fillFinish_draws (s : State) : (fillFinish s).draws = s.draws := rfl

/-! ## `keyFinish` -/

@[simp] theorem keyFinish_cfg (s : State) : (keyFinish s).cfg = s.cfg := rfl
@[simp] theorem keyFinish_busy (s : State) : (keyFinish s).busy = false := rfl
@[simp] theorem keyFinish_done (s : State) : (keyFinish s).done = true := rfl
@[simp] theorem keyFinish_err (s : State) : (keyFinish s).err = .none := rfl
@[simp] theorem keyFinish_op (s : State) : (keyFinish s).op = s.op := rfl
@[simp] theorem keyFinish_ilen (s : State) : (keyFinish s).ilen = s.ilen := rfl
@[simp] theorem keyFinish_olen (s : State) : (keyFinish s).olen = 0 := rfl
@[simp] theorem keyFinish_i (s : State) : (keyFinish s).i = 0#8 := rfl
@[simp] theorem keyFinish_j (s : State) : (keyFinish s).j = 0#8 := rfl
@[simp] theorem keyFinish_acc (s : State) : (keyFinish s).acc = s.acc := rfl
@[simp] theorem keyFinish_cnt (s : State) : (keyFinish s).cnt = s.cnt := rfl
@[simp] theorem keyFinish_sub (s : State) : (keyFinish s).sub = s.sub := rfl
@[simp] theorem keyFinish_nout (s : State) : (keyFinish s).nout = s.nout := rfl
@[simp] theorem keyFinish_ibuf (s : State) : (keyFinish s).ibuf = s.ibuf := rfl
@[simp] theorem keyFinish_obuf (s : State) : (keyFinish s).obuf = s.obuf := rfl
@[simp] theorem keyFinish_sbox (s : State) : (keyFinish s).sbox = s.sbox := rfl
@[simp] theorem keyFinish_script (s : State) : (keyFinish s).script = s.script := rfl
@[simp] theorem keyFinish_reads (s : State) : (keyFinish s).reads = s.reads := rfl
@[simp] theorem keyFinish_draws (s : State) : (keyFinish s).draws = s.draws := rfl

@[simp] theorem State.draw_fst (s : State) (w : Nat) : (s.draw w).1 = Config.freeValue w s.draws := rfl

/-! ## `State.resetInput`: the values of 10_state.md R45 -/

@[simp] theorem State.resetInput_cfg (s : State) : s.resetInput.cfg = s.cfg := rfl
@[simp] theorem State.resetInput_busy (s : State) : s.resetInput.busy = false := rfl
@[simp] theorem State.resetInput_done (s : State) : s.resetInput.done = false := rfl
@[simp] theorem State.resetInput_err (s : State) : s.resetInput.err = .none := rfl
@[simp] theorem State.resetInput_op (s : State) : s.resetInput.op = .b64enc := rfl
@[simp] theorem State.resetInput_ilen (s : State) : s.resetInput.ilen = 0 := rfl
@[simp] theorem State.resetInput_olen (s : State) : s.resetInput.olen = 0 := rfl
@[simp] theorem State.resetInput_i (s : State) : s.resetInput.i = 0#8 := rfl
@[simp] theorem State.resetInput_j (s : State) : s.resetInput.j = 0#8 := rfl
@[simp] theorem State.resetInput_acc (s : State) : s.resetInput.acc = 0#24 := rfl
@[simp] theorem State.resetInput_cnt (s : State) : s.resetInput.cnt = 0 := rfl
@[simp] theorem State.resetInput_sub (s : State) : s.resetInput.sub = .check := rfl
@[simp] theorem State.resetInput_nout (s : State) : s.resetInput.nout = 0 := rfl
@[simp] theorem State.resetInput_ibuf (s : State) : s.resetInput.ibuf = [] := rfl
@[simp] theorem State.resetInput_obuf (s : State) : s.resetInput.obuf = [] := rfl
@[simp] theorem State.resetInput_sbox (s : State) : s.resetInput.sbox = [] := rfl
@[simp] theorem State.resetInput_script (s : State) : s.resetInput.script = s.script := rfl
@[simp] theorem State.resetInput_reads (s : State) : s.resetInput.reads = s.reads := rfl
@[simp] theorem State.resetInput_draws (s : State) : s.resetInput.draws = s.draws := rfl

end Sys2Proof.Machine
end

