-- ==== Sys2Proof/Laws/Memory.lean ====
section
/-! SUPPORT. RAM entries: what each operation does to a read, and that each keeps the canonical form. -/

namespace Sys2Proof.Machine

@[simp] theorem Memory.get_nil (a : Nat) : Memory.get [] a = none := rfl

theorem Memory.get_cons (k : Nat) (b : Byte) (m : Memory) (a : Nat) :
    Memory.get ((k, b) :: m) a = if a = k then some b else if a < k then none else Memory.get m a := rfl

/-- A read after a write: the octet written at its index, everything else as before. -/
theorem Memory.get_set (m : Memory) (a : Nat) (b : Byte) (c : Nat) :
    (m.set a b).get c = if c = a then some b else m.get c := by
  induction m with
  | nil => simp only [Memory.set, Memory.get]; split_ifs <;> rfl
  | cons p m ih =>
    obtain ⟨k, v⟩ := p
    simp only [Memory.set]
    split_ifs <;> simp only [Memory.get, ih] <;> split_ifs <;> first | rfl | omega

@[simp] theorem Memory.get_set_same (m : Memory) (a : Nat) (b : Byte) : (m.set a b).get a = some b := by
  simp [Memory.get_set]

theorem Memory.get_set_other (m : Memory) (b : Byte) {a c : Nat} (h : c ≠ a) : (m.set a b).get c = m.get c := by
  simp [Memory.get_set, h]

/-- An index below every listed one is unwritten. -/
theorem Memory.get_of_lt {m : Memory} {a : Nat} (h : ∀ p ∈ m, a < p.1) : m.get a = none := by
  cases m with
  | nil => rfl
  | cons p m =>
    have := h p (List.mem_cons_self ..)
    rw [Memory.get_cons, if_neg (by omega), if_pos this]

/-- A read after an erase: the index is unwritten, everything else as before. -/
theorem Memory.get_erase {m : Memory} (h : m.wf) (a c : Nat) :
    (m.erase a).get c = if c = a then none else m.get c := by
  induction m with
  | nil => simp [Memory.erase]
  | cons p m ih =>
    obtain ⟨k, v⟩ := p
    obtain ⟨hk, hm⟩ := List.pairwise_cons.mp h
    have tail : ∀ x ≤ k, Memory.get m x = none := fun x hx =>
      Memory.get_of_lt fun p hp => lt_of_le_of_lt hx (hk p hp)
    simp only [Memory.erase]
    split_ifs with h1 h2 h3 h4 h5
    · exact tail c (by omega)
    · rw [Memory.get_cons, if_neg (by omega)]
      split_ifs
      · exact tail c (by omega)
      · rfl
    · rw [Memory.get_cons, if_neg (by omega), if_pos (by omega)]
    · rfl
    · rw [Memory.get_cons, ih hm, if_neg (by omega), if_neg (by omega), if_pos h5]
    · simp only [Memory.get_cons, ih hm, if_neg h5]

theorem Memory.get_put {m : Memory} (h : m.wf) (a : Nat) (o : Option Byte) (c : Nat) :
    (m.put a o).get c = if c = a then o else m.get c := by
  cases o with
  | some b => exact Memory.get_set m a b c
  | none => exact Memory.get_erase h a c

/-- Every index of a memory after a write was there before or is the one written. -/
theorem Memory.mem_set {m : Memory} {a : Nat} {b : Byte} {p : Host.Cell} (h : p ∈ m.set a b) :
    p = (a, b) ∨ p ∈ m := by
  induction m with
  | nil => simpa [Memory.set] using h
  | cons q m ih =>
    obtain ⟨k, v⟩ := q
    simp only [Memory.set] at h
    split_ifs at h
    · rcases List.mem_cons.mp h with h | h
      · exact .inl h
      · exact .inr (List.mem_cons_of_mem _ h)
    · exact List.mem_cons.mp h
    · rcases List.mem_cons.mp h with h | h
      · exact .inr (h ▸ List.mem_cons_self ..)
      · exact (ih h).imp id (List.mem_cons_of_mem _)

theorem Memory.mem_erase {m : Memory} {a : Nat} {p : Host.Cell} (h : p ∈ m.erase a) : p ∈ m := by
  induction m with
  | nil => simp [Memory.erase] at h
  | cons q m ih =>
    obtain ⟨k, v⟩ := q
    simp only [Memory.erase] at h
    split_ifs at h
    · exact List.mem_cons_of_mem _ h
    · exact h
    · rcases List.mem_cons.mp h with h | h
      · exact h ▸ List.mem_cons_self ..
      · exact List.mem_cons_of_mem _ (ih h)

/-! ## Every operation keeps the canonical form -/

theorem Memory.wf_nil : Memory.wf [] := List.Pairwise.nil

theorem Memory.wf_set {m : Memory} (h : m.wf) (a : Nat) (b : Byte) : (m.set a b).wf := by
  induction m with
  | nil => exact List.pairwise_singleton ..
  | cons p m ih =>
    obtain ⟨k, v⟩ := p
    obtain ⟨hk, hm⟩ := List.pairwise_cons.mp h
    simp only [Memory.set]
    split_ifs with h1 h2
    · exact List.pairwise_cons.mpr ⟨fun q hq => h1 ▸ hk q hq, hm⟩
    · refine List.pairwise_cons.mpr ⟨fun q hq => ?_, h⟩
      rcases List.mem_cons.mp hq with rfl | hq
      · exact h2
      · exact h2.trans (hk q hq)
    · refine List.pairwise_cons.mpr ⟨fun q hq => ?_, ih hm⟩
      rcases Memory.mem_set hq with rfl | hq
      · show k < a; omega
      · exact hk q hq

theorem Memory.wf_erase {m : Memory} (h : m.wf) (a : Nat) : (m.erase a).wf := by
  induction m with
  | nil => exact h
  | cons p m ih =>
    obtain ⟨k, v⟩ := p
    obtain ⟨hk, hm⟩ := List.pairwise_cons.mp h
    simp only [Memory.erase]
    split_ifs
    · exact hm
    · exact h
    · exact List.pairwise_cons.mpr ⟨fun q hq => hk q (Memory.mem_erase hq), ih hm⟩

theorem Memory.wf_put {m : Memory} (h : m.wf) (a : Nat) (o : Option Byte) : (m.put a o).wf := by
  cases o with
  | some b => exact Memory.wf_set h a b
  | none => exact Memory.wf_erase h a

theorem Memory.wf_setList {m : Memory} (h : m.wf) (a : Nat) (bs : List Byte) : (m.setList a bs).wf := by
  induction bs generalizing m a with
  | nil => exact h
  | cons b bs ih => exact ih (Memory.wf_set h a b) (a + 1)

theorem Memory.wf_swap {m : Memory} (h : m.wf) (a b : Nat) : (m.swap a b).wf := by
  simp only [Memory.swap]
  split_ifs
  · exact h
  · exact Memory.wf_put (Memory.wf_put h ..) ..

/-- A canonical RAM is its reads: two that read alike are the same list. -/
theorem Memory.ext {m n : Memory} (hm : m.wf) (hn : n.wf) (h : ∀ a, m.get a = n.get a) : m = n := by
  induction m generalizing n with
  | nil =>
    cases n with
    | nil => rfl
    | cons q n => obtain ⟨l, w⟩ := q; simpa [Memory.get_cons] using h l
  | cons p m ih =>
    obtain ⟨k, v⟩ := p
    obtain ⟨hk, hm'⟩ := List.pairwise_cons.mp hm
    cases n with
    | nil => simpa [Memory.get_cons] using h k
    | cons q n =>
      obtain ⟨l, w⟩ := q
      obtain ⟨hl, hn'⟩ := List.pairwise_cons.mp hn
      have hkl : k = l := by
        rcases lt_trichotomy k l with hlt | heq | hgt
        · have := h k
          rw [Memory.get_cons, if_pos rfl, Memory.get_cons, if_neg (by omega), if_pos hlt] at this
          cases this
        · exact heq
        · have := h l
          rw [Memory.get_cons, if_neg (by omega), if_pos hgt, Memory.get_cons, if_pos rfl] at this
          cases this
      subst hkl
      have hvw : v = w := by simpa [Memory.get_cons] using h k
      subst hvw
      congr 1
      refine ih hm' hn' fun a => ?_
      rcases lt_or_ge k a with ha | ha
      · have := h a
        rwa [Memory.get_cons, if_neg (by omega), if_neg (by omega), Memory.get_cons, if_neg (by omega),
          if_neg (by omega)] at this
      · rw [Memory.get_of_lt fun p hp => lt_of_le_of_lt ha (hk p hp),
          Memory.get_of_lt fun p hp => lt_of_le_of_lt ha (hl p hp)]

/-! ## Lists of octets and the exchange -/

/-- A read after writing a list: its octets from `a` on, everything else as before. -/
theorem Memory.get_setList (m : Memory) (a : Nat) (bs : List Byte) (c : Nat) :
    (m.setList a bs).get c = if a ≤ c ∧ c < a + bs.length then bs[c - a]? else m.get c := by
  induction bs generalizing m a with
  | nil => simp only [Memory.setList, List.length_nil]; rw [if_neg (by omega)]
  | cons b bs ih =>
    simp only [Memory.setList, ih, Memory.get_set, List.length_cons]
    by_cases h1 : a + 1 ≤ c ∧ c < a + 1 + bs.length
    · rw [if_pos h1, if_pos (by omega), show c - a = (c - (a + 1)) + 1 by omega, List.getElem?_cons_succ]
    · rw [if_neg h1]
      by_cases h2 : c = a
      · subst h2; simp
      · rw [if_neg h2, if_neg (by omega)]

/-- A read outside a list written is as before. -/
theorem Memory.get_setList_outside (m : Memory) (a : Nat) (bs : List Byte) {c : Nat}
    (h : c < a ∨ a + bs.length ≤ c) : (m.setList a bs).get c = m.get c := by
  rw [Memory.get_setList, if_neg (by omega)]

/-- A read after an exchange (R8). -/
theorem Memory.get_swap {m : Memory} (h : m.wf) (a b c : Nat) :
    (m.swap a b).get c = if c = a then m.get b else if c = b then m.get a else m.get c := by
  simp only [Memory.swap]
  split_ifs with h1 h2 h3 h4 h5 <;>
    simp_all [Memory.get_put, Memory.wf_put]

/-! ## Staying within the space -/

theorem Memory.fits_nil (n : Nat) : Memory.fits [] n := ⟨Memory.wf_nil, by simp⟩

theorem Memory.fits_set {m : Memory} {n a : Nat} (h : m.fits n) (ha : a < n) (b : Byte) : (m.set a b).fits n :=
  ⟨Memory.wf_set h.1 a b, fun p hp => (Memory.mem_set hp).elim (fun e => by rw [e]; exact ha) (h.2 p)⟩

theorem Memory.fits_put {m : Memory} {n a : Nat} (h : m.fits n) (ha : a < n) (o : Option Byte) :
    (m.put a o).fits n := by
  cases o with
  | some b => exact Memory.fits_set h ha b
  | none => exact ⟨Memory.wf_erase h.1 a, fun p hp => h.2 p (Memory.mem_erase hp)⟩

theorem Memory.fits_swap {m : Memory} {n a b : Nat} (h : m.fits n) (ha : a < n) (hb : b < n) :
    (m.swap a b).fits n := by
  simp only [Memory.swap]
  split_ifs
  · exact h
  · exact Memory.fits_put (Memory.fits_put h ha _) hb _

theorem Memory.fits_setList {m : Memory} {n : Nat} (h : m.fits n) (a : Nat) (bs : List Byte)
    (hb : a + bs.length ≤ n) : (m.setList a bs).fits n := by
  induction bs generalizing m a with
  | nil => exact h
  | cons b bs ih =>
    simp only [List.length_cons] at hb
    exact ih (Memory.fits_set h (by omega) b) (a + 1) (by omega)

/-- An exchange of two entries keeps a permutation a permutation (R43). -/
theorem Scheduled.swap {m : Memory} (hm : m.wf) (h : Scheduled m) {a b : Nat} (ha : a < 256) (hb : b < 256) :
    Scheduled (m.swap a b) := by
  constructor
  · intro k hk
    rw [Memory.get_swap hm]
    split_ifs
    · exact h.1 b hb
    · exact h.1 a ha
    · exact h.1 k hk
  · intro v
    obtain ⟨k, hk, hv, huniq⟩ := h.2 v
    have key : ∀ l < 256, (m.swap a b).get l = some v ↔ (if l = a then b else if l = b then a else l) = k := by
      intro l hl
      rw [Memory.get_swap hm]
      split_ifs
      · exact ⟨huniq b hb, fun e => e ▸ hv⟩
      · exact ⟨huniq a ha, fun e => e ▸ hv⟩
      · exact ⟨huniq l hl, fun e => e ▸ hv⟩
    refine ⟨if k = a then b else if k = b then a else k, by split_ifs <;> assumption, ?_, fun l hl hv' => ?_⟩
    · rw [key _ (by split_ifs <;> assumption)]
      split_ifs <;> simp_all
    · rw [key l hl] at hv'
      split_ifs at hv' ⊢ <;> omega

end Sys2Proof.Machine
end

