-- ==== Sys2Proof/Laws/Engine.lean ====
section
/-! SUPPORT. The shared operations of the engine: what each read returns, and one lemma per field for every read and
every engine action. A read changes nothing but the count of draws. -/

namespace Sys2Proof.Machine

/-! ## Reads of RAM entries -/

@[simp] theorem State.readEntry_some (s : State) (b : Byte) : s.readEntry (some b) = (b, s) := rfl

@[simp] theorem State.readEntry_none (s : State) : s.readEntry none = s.draw 8 := rfl

/-- A read of a written entry of IBUF returns it and changes nothing. -/
theorem State.readIbuf_written {s : State} {k : Nat} {b : Byte} (h : s.ibuf.get k = some b) :
    s.readIbuf k = (b, s) := by simp [State.readIbuf, h]

/-- A read of an unwritten entry of IBUF is a free draw (R46). -/
theorem State.readIbuf_unwritten {s : State} {k : Nat} (h : s.ibuf.get k = none) : s.readIbuf k = s.draw 8 := by
  simp [State.readIbuf, h]

/-- A read of a written entry of the S-box returns it and changes nothing. -/
theorem State.readSbox_written {s : State} {k b : Byte} (h : s.sbox.get k.toNat = some b) :
    s.readSbox k = (b, s) := by simp [State.readSbox, h]

/-- A read of an unwritten entry of the S-box is a free draw (R46, R160). -/
theorem State.readSbox_unwritten {s : State} {k : Byte} (h : s.sbox.get k.toNat = none) :
    s.readSbox k = s.draw 8 := by simp [State.readSbox, h]

/-! ## `State.readEntry` -/

@[simp] theorem State.readEntry_snd_cfg (s : State) (o : Option Byte) : (s.readEntry o).2.cfg = s.cfg := by
  cases o <;> rfl
@[simp] theorem State.readEntry_snd_busy (s : State) (o : Option Byte) : (s.readEntry o).2.busy = s.busy := by
  cases o <;> rfl
@[simp] theorem State.readEntry_snd_done (s : State) (o : Option Byte) : (s.readEntry o).2.done = s.done := by
  cases o <;> rfl
@[simp] theorem State.readEntry_snd_err (s : State) (o : Option Byte) : (s.readEntry o).2.err = s.err := by
  cases o <;> rfl
@[simp] theorem State.readEntry_snd_op (s : State) (o : Option Byte) : (s.readEntry o).2.op = s.op := by
  cases o <;> rfl
@[simp] theorem State.readEntry_snd_ilen (s : State) (o : Option Byte) : (s.readEntry o).2.ilen = s.ilen := by
  cases o <;> rfl
@[simp] theorem State.readEntry_snd_olen (s : State) (o : Option Byte) : (s.readEntry o).2.olen = s.olen := by
  cases o <;> rfl
@[simp] theorem State.readEntry_snd_i (s : State) (o : Option Byte) : (s.readEntry o).2.i = s.i := by
  cases o <;> rfl
@[simp] theorem State.readEntry_snd_j (s : State) (o : Option Byte) : (s.readEntry o).2.j = s.j := by
  cases o <;> rfl
@[simp] theorem State.readEntry_snd_acc (s : State) (o : Option Byte) : (s.readEntry o).2.acc = s.acc := by
  cases o <;> rfl
@[simp] theorem State.readEntry_snd_cnt (s : State) (o : Option Byte) : (s.readEntry o).2.cnt = s.cnt := by
  cases o <;> rfl
@[simp] theorem State.readEntry_snd_sub (s : State) (o : Option Byte) : (s.readEntry o).2.sub = s.sub := by
  cases o <;> rfl
@[simp] theorem State.readEntry_snd_nout (s : State) (o : Option Byte) : (s.readEntry o).2.nout = s.nout := by
  cases o <;> rfl
@[simp] theorem State.readEntry_snd_ibuf (s : State) (o : Option Byte) : (s.readEntry o).2.ibuf = s.ibuf := by
  cases o <;> rfl
@[simp] theorem State.readEntry_snd_obuf (s : State) (o : Option Byte) : (s.readEntry o).2.obuf = s.obuf := by
  cases o <;> rfl
@[simp] theorem State.readEntry_snd_sbox (s : State) (o : Option Byte) : (s.readEntry o).2.sbox = s.sbox := by
  cases o <;> rfl
@[simp] theorem State.readEntry_snd_script (s : State) (o : Option Byte) : (s.readEntry o).2.script = s.script := by
  cases o <;> rfl
@[simp] theorem State.readEntry_snd_reads (s : State) (o : Option Byte) : (s.readEntry o).2.reads = s.reads := by
  cases o <;> rfl

/-! ## `State.readIbuf` and `State.readSbox` -/

@[simp] theorem State.readIbuf_snd_cfg (s : State) (k : Nat) : (s.readIbuf k).2.cfg = s.cfg :=
  s.readEntry_snd_cfg _
@[simp] theorem State.readIbuf_snd_busy (s : State) (k : Nat) : (s.readIbuf k).2.busy = s.busy :=
  s.readEntry_snd_busy _
@[simp] theorem State.readIbuf_snd_done (s : State) (k : Nat) : (s.readIbuf k).2.done = s.done :=
  s.readEntry_snd_done _
@[simp] theorem State.readIbuf_snd_err (s : State) (k : Nat) : (s.readIbuf k).2.err = s.err :=
  s.readEntry_snd_err _
@[simp] theorem State.readIbuf_snd_op (s : State) (k : Nat) : (s.readIbuf k).2.op = s.op :=
  s.readEntry_snd_op _
@[simp] theorem State.readIbuf_snd_ilen (s : State) (k : Nat) : (s.readIbuf k).2.ilen = s.ilen :=
  s.readEntry_snd_ilen _
@[simp] theorem State.readIbuf_snd_olen (s : State) (k : Nat) : (s.readIbuf k).2.olen = s.olen :=
  s.readEntry_snd_olen _
@[simp] theorem State.readIbuf_snd_i (s : State) (k : Nat) : (s.readIbuf k).2.i = s.i :=
  s.readEntry_snd_i _
@[simp] theorem State.readIbuf_snd_j (s : State) (k : Nat) : (s.readIbuf k).2.j = s.j :=
  s.readEntry_snd_j _
@[simp] theorem State.readIbuf_snd_acc (s : State) (k : Nat) : (s.readIbuf k).2.acc = s.acc :=
  s.readEntry_snd_acc _
@[simp] theorem State.readIbuf_snd_cnt (s : State) (k : Nat) : (s.readIbuf k).2.cnt = s.cnt :=
  s.readEntry_snd_cnt _
@[simp] theorem State.readIbuf_snd_sub (s : State) (k : Nat) : (s.readIbuf k).2.sub = s.sub :=
  s.readEntry_snd_sub _
@[simp] theorem State.readIbuf_snd_nout (s : State) (k : Nat) : (s.readIbuf k).2.nout = s.nout :=
  s.readEntry_snd_nout _
@[simp] theorem State.readIbuf_snd_ibuf (s : State) (k : Nat) : (s.readIbuf k).2.ibuf = s.ibuf :=
  s.readEntry_snd_ibuf _
@[simp] theorem State.readIbuf_snd_obuf (s : State) (k : Nat) : (s.readIbuf k).2.obuf = s.obuf :=
  s.readEntry_snd_obuf _
@[simp] theorem State.readIbuf_snd_sbox (s : State) (k : Nat) : (s.readIbuf k).2.sbox = s.sbox :=
  s.readEntry_snd_sbox _
@[simp] theorem State.readIbuf_snd_script (s : State) (k : Nat) : (s.readIbuf k).2.script = s.script :=
  s.readEntry_snd_script _
@[simp] theorem State.readIbuf_snd_reads (s : State) (k : Nat) : (s.readIbuf k).2.reads = s.reads :=
  s.readEntry_snd_reads _
@[simp] theorem State.readSbox_snd_cfg (s : State) (k : Byte) : (s.readSbox k).2.cfg = s.cfg :=
  s.readEntry_snd_cfg _
@[simp] theorem State.readSbox_snd_busy (s : State) (k : Byte) : (s.readSbox k).2.busy = s.busy :=
  s.readEntry_snd_busy _
@[simp] theorem State.readSbox_snd_done (s : State) (k : Byte) : (s.readSbox k).2.done = s.done :=
  s.readEntry_snd_done _
@[simp] theorem State.readSbox_snd_err (s : State) (k : Byte) : (s.readSbox k).2.err = s.err :=
  s.readEntry_snd_err _
@[simp] theorem State.readSbox_snd_op (s : State) (k : Byte) : (s.readSbox k).2.op = s.op :=
  s.readEntry_snd_op _
@[simp] theorem State.readSbox_snd_ilen (s : State) (k : Byte) : (s.readSbox k).2.ilen = s.ilen :=
  s.readEntry_snd_ilen _
@[simp] theorem State.readSbox_snd_olen (s : State) (k : Byte) : (s.readSbox k).2.olen = s.olen :=
  s.readEntry_snd_olen _
@[simp] theorem State.readSbox_snd_i (s : State) (k : Byte) : (s.readSbox k).2.i = s.i :=
  s.readEntry_snd_i _
@[simp] theorem State.readSbox_snd_j (s : State) (k : Byte) : (s.readSbox k).2.j = s.j :=
  s.readEntry_snd_j _
@[simp] theorem State.readSbox_snd_acc (s : State) (k : Byte) : (s.readSbox k).2.acc = s.acc :=
  s.readEntry_snd_acc _
@[simp] theorem State.readSbox_snd_cnt (s : State) (k : Byte) : (s.readSbox k).2.cnt = s.cnt :=
  s.readEntry_snd_cnt _
@[simp] theorem State.readSbox_snd_sub (s : State) (k : Byte) : (s.readSbox k).2.sub = s.sub :=
  s.readEntry_snd_sub _
@[simp] theorem State.readSbox_snd_nout (s : State) (k : Byte) : (s.readSbox k).2.nout = s.nout :=
  s.readEntry_snd_nout _
@[simp] theorem State.readSbox_snd_ibuf (s : State) (k : Byte) : (s.readSbox k).2.ibuf = s.ibuf :=
  s.readEntry_snd_ibuf _
@[simp] theorem State.readSbox_snd_obuf (s : State) (k : Byte) : (s.readSbox k).2.obuf = s.obuf :=
  s.readEntry_snd_obuf _
@[simp] theorem State.readSbox_snd_sbox (s : State) (k : Byte) : (s.readSbox k).2.sbox = s.sbox :=
  s.readEntry_snd_sbox _
@[simp] theorem State.readSbox_snd_script (s : State) (k : Byte) : (s.readSbox k).2.script = s.script :=
  s.readEntry_snd_script _
@[simp] theorem State.readSbox_snd_reads (s : State) (k : Byte) : (s.readSbox k).2.reads = s.reads :=
  s.readEntry_snd_reads _

/-! ## `State.packInput` and `State.readText` -/

@[simp] theorem State.packInput_snd_cfg (s : State) (g : Nat) : (s.packInput g).2.cfg = s.cfg := by
  simp only [State.packInput]; split_ifs <;> simp
@[simp] theorem State.packInput_snd_busy (s : State) (g : Nat) : (s.packInput g).2.busy = s.busy := by
  simp only [State.packInput]; split_ifs <;> simp
@[simp] theorem State.packInput_snd_done (s : State) (g : Nat) : (s.packInput g).2.done = s.done := by
  simp only [State.packInput]; split_ifs <;> simp
@[simp] theorem State.packInput_snd_err (s : State) (g : Nat) : (s.packInput g).2.err = s.err := by
  simp only [State.packInput]; split_ifs <;> simp
@[simp] theorem State.packInput_snd_op (s : State) (g : Nat) : (s.packInput g).2.op = s.op := by
  simp only [State.packInput]; split_ifs <;> simp
@[simp] theorem State.packInput_snd_ilen (s : State) (g : Nat) : (s.packInput g).2.ilen = s.ilen := by
  simp only [State.packInput]; split_ifs <;> simp
@[simp] theorem State.packInput_snd_olen (s : State) (g : Nat) : (s.packInput g).2.olen = s.olen := by
  simp only [State.packInput]; split_ifs <;> simp
@[simp] theorem State.packInput_snd_i (s : State) (g : Nat) : (s.packInput g).2.i = s.i := by
  simp only [State.packInput]; split_ifs <;> simp
@[simp] theorem State.packInput_snd_j (s : State) (g : Nat) : (s.packInput g).2.j = s.j := by
  simp only [State.packInput]; split_ifs <;> simp
@[simp] theorem State.packInput_snd_acc (s : State) (g : Nat) : (s.packInput g).2.acc = s.acc := by
  simp only [State.packInput]; split_ifs <;> simp
@[simp] theorem State.packInput_snd_cnt (s : State) (g : Nat) : (s.packInput g).2.cnt = s.cnt := by
  simp only [State.packInput]; split_ifs <;> simp
@[simp] theorem State.packInput_snd_sub (s : State) (g : Nat) : (s.packInput g).2.sub = s.sub := by
  simp only [State.packInput]; split_ifs <;> simp
@[simp] theorem State.packInput_snd_nout (s : State) (g : Nat) : (s.packInput g).2.nout = s.nout := by
  simp only [State.packInput]; split_ifs <;> simp
@[simp] theorem State.packInput_snd_ibuf (s : State) (g : Nat) : (s.packInput g).2.ibuf = s.ibuf := by
  simp only [State.packInput]; split_ifs <;> simp
@[simp] theorem State.packInput_snd_obuf (s : State) (g : Nat) : (s.packInput g).2.obuf = s.obuf := by
  simp only [State.packInput]; split_ifs <;> simp
@[simp] theorem State.packInput_snd_sbox (s : State) (g : Nat) : (s.packInput g).2.sbox = s.sbox := by
  simp only [State.packInput]; split_ifs <;> simp
@[simp] theorem State.packInput_snd_script (s : State) (g : Nat) : (s.packInput g).2.script = s.script := by
  simp only [State.packInput]; split_ifs <;> simp
@[simp] theorem State.packInput_snd_reads (s : State) (g : Nat) : (s.packInput g).2.reads = s.reads := by
  simp only [State.packInput]; split_ifs <;> simp
@[simp] theorem State.readText_snd_cfg (s : State) (g : Nat) : (s.readText g).2.cfg = s.cfg := by
  simp [State.readText]
@[simp] theorem State.readText_snd_busy (s : State) (g : Nat) : (s.readText g).2.busy = s.busy := by
  simp [State.readText]
@[simp] theorem State.readText_snd_done (s : State) (g : Nat) : (s.readText g).2.done = s.done := by
  simp [State.readText]
@[simp] theorem State.readText_snd_err (s : State) (g : Nat) : (s.readText g).2.err = s.err := by
  simp [State.readText]
@[simp] theorem State.readText_snd_op (s : State) (g : Nat) : (s.readText g).2.op = s.op := by
  simp [State.readText]
@[simp] theorem State.readText_snd_ilen (s : State) (g : Nat) : (s.readText g).2.ilen = s.ilen := by
  simp [State.readText]
@[simp] theorem State.readText_snd_olen (s : State) (g : Nat) : (s.readText g).2.olen = s.olen := by
  simp [State.readText]
@[simp] theorem State.readText_snd_i (s : State) (g : Nat) : (s.readText g).2.i = s.i := by
  simp [State.readText]
@[simp] theorem State.readText_snd_j (s : State) (g : Nat) : (s.readText g).2.j = s.j := by
  simp [State.readText]
@[simp] theorem State.readText_snd_acc (s : State) (g : Nat) : (s.readText g).2.acc = s.acc := by
  simp [State.readText]
@[simp] theorem State.readText_snd_cnt (s : State) (g : Nat) : (s.readText g).2.cnt = s.cnt := by
  simp [State.readText]
@[simp] theorem State.readText_snd_sub (s : State) (g : Nat) : (s.readText g).2.sub = s.sub := by
  simp [State.readText]
@[simp] theorem State.readText_snd_nout (s : State) (g : Nat) : (s.readText g).2.nout = s.nout := by
  simp [State.readText]
@[simp] theorem State.readText_snd_ibuf (s : State) (g : Nat) : (s.readText g).2.ibuf = s.ibuf := by
  simp [State.readText]
@[simp] theorem State.readText_snd_obuf (s : State) (g : Nat) : (s.readText g).2.obuf = s.obuf := by
  simp [State.readText]
@[simp] theorem State.readText_snd_sbox (s : State) (g : Nat) : (s.readText g).2.sbox = s.sbox := by
  simp [State.readText]
@[simp] theorem State.readText_snd_script (s : State) (g : Nat) : (s.readText g).2.script = s.script := by
  simp [State.readText]
@[simp] theorem State.readText_snd_reads (s : State) (g : Nat) : (s.readText g).2.reads = s.reads := by
  simp [State.readText]

/-! ## `encodeStep` -/

@[simp] theorem encodeStep_cfg (s : State) : (encodeStep s).cfg = s.cfg := by
  simp [encodeStep]
@[simp] theorem encodeStep_busy (s : State) : (encodeStep s).busy = s.busy := by
  simp [encodeStep]
@[simp] theorem encodeStep_done (s : State) : (encodeStep s).done = s.done := by
  simp [encodeStep]
@[simp] theorem encodeStep_err (s : State) : (encodeStep s).err = s.err := by
  simp [encodeStep]
@[simp] theorem encodeStep_op (s : State) : (encodeStep s).op = s.op := by
  simp [encodeStep]
@[simp] theorem encodeStep_ilen (s : State) : (encodeStep s).ilen = s.ilen := by
  simp [encodeStep]
@[simp] theorem encodeStep_olen (s : State) : (encodeStep s).olen = s.olen := by
  simp [encodeStep]
@[simp] theorem encodeStep_i (s : State) : (encodeStep s).i = s.i := by
  simp [encodeStep]
@[simp] theorem encodeStep_j (s : State) : (encodeStep s).j = s.j := by
  simp [encodeStep]
@[simp] theorem encodeStep_acc (s : State) : (encodeStep s).acc = (s.packInput s.cnt).1 := by
  simp [encodeStep]
@[simp] theorem encodeStep_cnt (s : State) : (encodeStep s).cnt = s.cnt + 1 := by
  simp [encodeStep]
@[simp] theorem encodeStep_sub (s : State) : (encodeStep s).sub = s.sub := by
  simp [encodeStep]
@[simp] theorem encodeStep_nout (s : State) : (encodeStep s).nout = s.nout := by
  simp [encodeStep]
@[simp] theorem encodeStep_ibuf (s : State) : (encodeStep s).ibuf = s.ibuf := by
  simp [encodeStep]
@[simp] theorem encodeStep_obuf (s : State) :
    (encodeStep s).obuf = s.obuf.setList (4 * s.cnt) (groupText s.cfg (s.packInput s.cnt).1 (groupSize s.ilen s.cnt)) := by
  simp [encodeStep]
@[simp] theorem encodeStep_sbox (s : State) : (encodeStep s).sbox = s.sbox := by
  simp [encodeStep]
@[simp] theorem encodeStep_script (s : State) : (encodeStep s).script = s.script := by
  simp [encodeStep]
@[simp] theorem encodeStep_reads (s : State) : (encodeStep s).reads = s.reads := by
  simp [encodeStep]

/-! ## `encodeFinish` -/

@[simp] theorem encodeFinish_cfg (s : State) : (encodeFinish s).cfg = s.cfg := rfl
@[simp] theorem encodeFinish_busy (s : State) : (encodeFinish s).busy = false := rfl
@[simp] theorem encodeFinish_done (s : State) : (encodeFinish s).done = true := rfl
@[simp] theorem encodeFinish_err (s : State) : (encodeFinish s).err = .none := rfl
@[simp] theorem encodeFinish_op (s : State) : (encodeFinish s).op = s.op := rfl
@[simp] theorem encodeFinish_ilen (s : State) : (encodeFinish s).ilen = s.ilen := rfl
@[simp] theorem encodeFinish_olen (s : State) : (encodeFinish s).olen = 4 * s.cnt := rfl
@[simp] theorem encodeFinish_i (s : State) : (encodeFinish s).i = s.i := rfl
@[simp] theorem encodeFinish_j (s : State) : (encodeFinish s).j = s.j := rfl
@[simp] theorem encodeFinish_acc (s : State) : (encodeFinish s).acc = s.acc := rfl
@[simp] theorem encodeFinish_cnt (s : State) : (encodeFinish s).cnt = s.cnt := rfl
@[simp] theorem encodeFinish_sub (s : State) : (encodeFinish s).sub = s.sub := rfl
@[simp] theorem encodeFinish_nout (s : State) : (encodeFinish s).nout = s.nout := rfl
@[simp] theorem encodeFinish_ibuf (s : State) : (encodeFinish s).ibuf = s.ibuf := rfl
@[simp] theorem encodeFinish_obuf (s : State) : (encodeFinish s).obuf = s.obuf := rfl
@[simp] theorem encodeFinish_sbox (s : State) : (encodeFinish s).sbox = s.sbox := rfl
@[simp] theorem encodeFinish_script (s : State) : (encodeFinish s).script = s.script := rfl
@[simp] theorem encodeFinish_reads (s : State) : (encodeFinish s).reads = s.reads := rfl
@[simp] theorem encodeFinish_draws (s : State) : (encodeFinish s).draws = s.draws := rfl

/-! ## `decodeSetup` -/

@[simp] theorem decodeSetup_cfg (s : State) : (decodeSetup s).cfg = s.cfg := by
  simp [decodeSetup]
@[simp] theorem decodeSetup_busy (s : State) : (decodeSetup s).busy = s.busy := by
  simp [decodeSetup]
@[simp] theorem decodeSetup_done (s : State) : (decodeSetup s).done = s.done := by
  simp [decodeSetup]
@[simp] theorem decodeSetup_err (s : State) : (decodeSetup s).err = s.err := by
  simp [decodeSetup]
@[simp] theorem decodeSetup_op (s : State) : (decodeSetup s).op = s.op := by
  simp [decodeSetup]
@[simp] theorem decodeSetup_ilen (s : State) : (decodeSetup s).ilen = s.ilen := by
  simp [decodeSetup]
@[simp] theorem decodeSetup_olen (s : State) : (decodeSetup s).olen = s.olen := by
  simp [decodeSetup]
@[simp] theorem decodeSetup_i (s : State) : (decodeSetup s).i = s.i := by
  simp [decodeSetup]
@[simp] theorem decodeSetup_j (s : State) : (decodeSetup s).j = s.j := by
  simp [decodeSetup]
@[simp] theorem decodeSetup_acc (s : State) : (decodeSetup s).acc = s.acc := by
  simp [decodeSetup]
@[simp] theorem decodeSetup_cnt (s : State) : (decodeSetup s).cnt = s.cnt := by
  simp [decodeSetup]
@[simp] theorem decodeSetup_sub (s : State) : (decodeSetup s).sub = .run := by
  simp [decodeSetup]
@[simp] theorem decodeSetup_nout (s : State) :
    (decodeSetup s).nout = 3 * decodeGroups s.ilen - padCount (s.readIbuf (s.ilen - 1)).1
      - padCount ((s.readIbuf (s.ilen - 1)).2.readIbuf (s.ilen - 2)).1 := by
  simp [decodeSetup]
@[simp] theorem decodeSetup_ibuf (s : State) : (decodeSetup s).ibuf = s.ibuf := by
  simp [decodeSetup]
@[simp] theorem decodeSetup_obuf (s : State) : (decodeSetup s).obuf = s.obuf := by
  simp [decodeSetup]
@[simp] theorem decodeSetup_sbox (s : State) : (decodeSetup s).sbox = s.sbox := by
  simp [decodeSetup]
@[simp] theorem decodeSetup_script (s : State) : (decodeSetup s).script = s.script := by
  simp [decodeSetup]
@[simp] theorem decodeSetup_reads (s : State) : (decodeSetup s).reads = s.reads := by
  simp [decodeSetup]

/-! ## `decodeStep` -/

@[simp] theorem decodeStep_cfg (v : Group) (s : State) : (decodeStep v s).cfg = s.cfg := rfl
@[simp] theorem decodeStep_busy (v : Group) (s : State) : (decodeStep v s).busy = s.busy := rfl
@[simp] theorem decodeStep_done (v : Group) (s : State) : (decodeStep v s).done = s.done := rfl
@[simp] theorem decodeStep_err (v : Group) (s : State) : (decodeStep v s).err = s.err := rfl
@[simp] theorem decodeStep_op (v : Group) (s : State) : (decodeStep v s).op = s.op := rfl
@[simp] theorem decodeStep_ilen (v : Group) (s : State) : (decodeStep v s).ilen = s.ilen := rfl
@[simp] theorem decodeStep_olen (v : Group) (s : State) : (decodeStep v s).olen = s.olen := rfl
@[simp] theorem decodeStep_i (v : Group) (s : State) : (decodeStep v s).i = s.i := rfl
@[simp] theorem decodeStep_j (v : Group) (s : State) : (decodeStep v s).j = s.j := rfl
@[simp] theorem decodeStep_acc (v : Group) (s : State) : (decodeStep v s).acc = v := rfl
@[simp] theorem decodeStep_cnt (v : Group) (s : State) : (decodeStep v s).cnt = s.cnt + 1 := rfl
@[simp] theorem decodeStep_sub (v : Group) (s : State) : (decodeStep v s).sub = s.sub := rfl
@[simp] theorem decodeStep_nout (v : Group) (s : State) : (decodeStep v s).nout = s.nout := rfl
@[simp] theorem decodeStep_ibuf (v : Group) (s : State) : (decodeStep v s).ibuf = s.ibuf := rfl
@[simp] theorem decodeStep_obuf (v : Group) (s : State) : (decodeStep v s).obuf = s.obuf.setList (3 * s.cnt) ((groupBytes v).take (s.nout - 3 * s.cnt)) := rfl
@[simp] theorem decodeStep_sbox (v : Group) (s : State) : (decodeStep v s).sbox = s.sbox := rfl
@[simp] theorem decodeStep_script (v : Group) (s : State) : (decodeStep v s).script = s.script := rfl
@[simp] theorem decodeStep_reads (v : Group) (s : State) : (decodeStep v s).reads = s.reads := rfl
@[simp] theorem decodeStep_draws (v : Group) (s : State) : (decodeStep v s).draws = s.draws := rfl

/-! ## `decodeFinish` -/

@[simp] theorem decodeFinish_cfg (s : State) : (decodeFinish s).cfg = s.cfg := rfl
@[simp] theorem decodeFinish_busy (s : State) : (decodeFinish s).busy = false := rfl
@[simp] theorem decodeFinish_done (s : State) : (decodeFinish s).done = true := rfl
@[simp] theorem decodeFinish_err (s : State) : (decodeFinish s).err = .none := rfl
@[simp] theorem decodeFinish_op (s : State) : (decodeFinish s).op = s.op := rfl
@[simp] theorem decodeFinish_ilen (s : State) : (decodeFinish s).ilen = s.ilen := rfl
@[simp] theorem decodeFinish_olen (s : State) : (decodeFinish s).olen = s.nout := rfl
@[simp] theorem decodeFinish_i (s : State) : (decodeFinish s).i = s.i := rfl
@[simp] theorem decodeFinish_j (s : State) : (decodeFinish s).j = s.j := rfl
@[simp] theorem decodeFinish_acc (s : State) : (decodeFinish s).acc = s.acc := rfl
@[simp] theorem decodeFinish_cnt (s : State) : (decodeFinish s).cnt = s.cnt := rfl
@[simp] theorem decodeFinish_sub (s : State) : (decodeFinish s).sub = s.sub := rfl
@[simp] theorem decodeFinish_nout (s : State) : (decodeFinish s).nout = s.nout := rfl
@[simp] theorem decodeFinish_ibuf (s : State) : (decodeFinish s).ibuf = s.ibuf := rfl
@[simp] theorem decodeFinish_obuf (s : State) : (decodeFinish s).obuf = s.obuf := rfl
@[simp] theorem decodeFinish_sbox (s : State) : (decodeFinish s).sbox = s.sbox := rfl
@[simp] theorem decodeFinish_script (s : State) : (decodeFinish s).script = s.script := rfl
@[simp] theorem decodeFinish_reads (s : State) : (decodeFinish s).reads = s.reads := rfl
@[simp] theorem decodeFinish_draws (s : State) : (decodeFinish s).draws = s.draws := rfl

/-! ## `mixStep` -/

@[simp] theorem mixStep_cfg (s : State) : (mixStep s).cfg = s.cfg := by
  simp [mixStep]
@[simp] theorem mixStep_busy (s : State) : (mixStep s).busy = s.busy := by
  simp [mixStep]
@[simp] theorem mixStep_done (s : State) : (mixStep s).done = s.done := by
  simp [mixStep]
@[simp] theorem mixStep_err (s : State) : (mixStep s).err = s.err := by
  simp [mixStep]
@[simp] theorem mixStep_op (s : State) : (mixStep s).op = s.op := by
  simp [mixStep]
@[simp] theorem mixStep_ilen (s : State) : (mixStep s).ilen = s.ilen := by
  simp [mixStep]
@[simp] theorem mixStep_olen (s : State) : (mixStep s).olen = s.olen := by
  simp [mixStep]
@[simp] theorem mixStep_i (s : State) : (mixStep s).i = s.i := by
  simp [mixStep]
theorem mixStep_j (s : State) :
    (mixStep s).j = s.j + (s.readEntry (s.sbox.get s.cnt)).1
      + ((s.readEntry (s.sbox.get s.cnt)).2.readIbuf (s.cnt % s.ilen)).1 := by
  simp [mixStep]
@[simp] theorem mixStep_acc (s : State) : (mixStep s).acc = s.acc := by
  simp [mixStep]
@[simp] theorem mixStep_cnt (s : State) : (mixStep s).cnt = s.cnt + 1 := by
  simp [mixStep]
@[simp] theorem mixStep_sub (s : State) : (mixStep s).sub = s.sub := by
  simp [mixStep]
@[simp] theorem mixStep_nout (s : State) : (mixStep s).nout = s.nout := by
  simp [mixStep]
@[simp] theorem mixStep_ibuf (s : State) : (mixStep s).ibuf = s.ibuf := by
  simp [mixStep]
@[simp] theorem mixStep_obuf (s : State) : (mixStep s).obuf = s.obuf := by
  simp [mixStep]
@[simp] theorem mixStep_sbox (s : State) :
    (mixStep s).sbox = s.sbox.swap s.cnt (mixStep s).j.toNat := by
  simp [mixStep]
@[simp] theorem mixStep_script (s : State) : (mixStep s).script = s.script := by
  simp [mixStep]
@[simp] theorem mixStep_reads (s : State) : (mixStep s).reads = s.reads := by
  simp [mixStep]

/-! ## `cursorSetup` -/

@[simp] theorem cursorSetup_cfg (s : State) : (cursorSetup s).cfg = s.cfg := by
  simp only [cursorSetup]; split_ifs <;> rfl
@[simp] theorem cursorSetup_busy (s : State) : (cursorSetup s).busy = s.busy := by
  simp only [cursorSetup]; split_ifs <;> rfl
@[simp] theorem cursorSetup_done (s : State) : (cursorSetup s).done = s.done := by
  simp only [cursorSetup]; split_ifs <;> rfl
@[simp] theorem cursorSetup_err (s : State) : (cursorSetup s).err = s.err := by
  simp only [cursorSetup]; split_ifs <;> rfl
@[simp] theorem cursorSetup_op (s : State) : (cursorSetup s).op = s.op := by
  simp only [cursorSetup]; split_ifs <;> rfl
@[simp] theorem cursorSetup_ilen (s : State) : (cursorSetup s).ilen = s.ilen := by
  simp only [cursorSetup]; split_ifs <;> rfl
@[simp] theorem cursorSetup_olen (s : State) : (cursorSetup s).olen = s.olen := by
  simp only [cursorSetup]; split_ifs <;> rfl
@[simp] theorem cursorSetup_i (s : State) :
    (cursorSetup s).i = if s.cfg.persistCursors then s.i else 0#8 := by
  simp only [cursorSetup]; split_ifs <;> rfl
@[simp] theorem cursorSetup_j (s : State) :
    (cursorSetup s).j = if s.cfg.persistCursors then s.j else 0#8 := by
  simp only [cursorSetup]; split_ifs <;> rfl
@[simp] theorem cursorSetup_acc (s : State) : (cursorSetup s).acc = s.acc := by
  simp only [cursorSetup]; split_ifs <;> rfl
@[simp] theorem cursorSetup_cnt (s : State) : (cursorSetup s).cnt = s.cnt := by
  simp only [cursorSetup]; split_ifs <;> rfl
@[simp] theorem cursorSetup_sub (s : State) : (cursorSetup s).sub = .run := by
  simp only [cursorSetup]; split_ifs <;> rfl
@[simp] theorem cursorSetup_nout (s : State) : (cursorSetup s).nout = s.nout := by
  simp only [cursorSetup]; split_ifs <;> rfl
@[simp] theorem cursorSetup_ibuf (s : State) : (cursorSetup s).ibuf = s.ibuf := by
  simp only [cursorSetup]; split_ifs <;> rfl
@[simp] theorem cursorSetup_obuf (s : State) : (cursorSetup s).obuf = s.obuf := by
  simp only [cursorSetup]; split_ifs <;> rfl
@[simp] theorem cursorSetup_sbox (s : State) : (cursorSetup s).sbox = s.sbox := by
  simp only [cursorSetup]; split_ifs <;> rfl
@[simp] theorem cursorSetup_script (s : State) : (cursorSetup s).script = s.script := by
  simp only [cursorSetup]; split_ifs <;> rfl
@[simp] theorem cursorSetup_reads (s : State) : (cursorSetup s).reads = s.reads := by
  simp only [cursorSetup]; split_ifs <;> rfl
@[simp] theorem cursorSetup_draws (s : State) : (cursorSetup s).draws = s.draws := by
  simp only [cursorSetup]; split_ifs <;> rfl

/-! ## `byteStep` -/

@[simp] theorem byteStep_cfg (s : State) : (byteStep s).cfg = s.cfg := by
  simp [byteStep]
@[simp] theorem byteStep_busy (s : State) : (byteStep s).busy = s.busy := by
  simp [byteStep]
@[simp] theorem byteStep_done (s : State) : (byteStep s).done = s.done := by
  simp [byteStep]
@[simp] theorem byteStep_err (s : State) : (byteStep s).err = s.err := by
  simp [byteStep]
@[simp] theorem byteStep_op (s : State) : (byteStep s).op = s.op := by
  simp [byteStep]
@[simp] theorem byteStep_ilen (s : State) : (byteStep s).ilen = s.ilen := by
  simp [byteStep]
@[simp] theorem byteStep_olen (s : State) : (byteStep s).olen = s.olen := by
  simp [byteStep]
@[simp] theorem byteStep_i (s : State) : (byteStep s).i = s.i + 1#8 := by
  simp [byteStep]
theorem byteStep_j (s : State) :
    (byteStep s).j = s.j + (s.readSbox (s.i + 1#8)).1 := by
  simp [byteStep]
@[simp] theorem byteStep_acc (s : State) : (byteStep s).acc = s.acc := by
  simp [byteStep]
@[simp] theorem byteStep_cnt (s : State) : (byteStep s).cnt = s.cnt + 1 := by
  simp [byteStep]
@[simp] theorem byteStep_sub (s : State) : (byteStep s).sub = s.sub := by
  simp [byteStep]
@[simp] theorem byteStep_nout (s : State) : (byteStep s).nout = s.nout := by
  simp [byteStep]
@[simp] theorem byteStep_ibuf (s : State) : (byteStep s).ibuf = s.ibuf := by
  simp [byteStep]
@[simp] theorem byteStep_sbox (s : State) :
    (byteStep s).sbox = s.sbox.swap (s.i + 1#8).toNat (byteStep s).j.toNat := by
  simp [byteStep]
@[simp] theorem byteStep_script (s : State) : (byteStep s).script = s.script := by
  simp [byteStep]
@[simp] theorem byteStep_reads (s : State) : (byteStep s).reads = s.reads := by
  simp [byteStep]

/-! ## `byteFinish` -/

@[simp] theorem byteFinish_cfg (s : State) : (byteFinish s).cfg = s.cfg := rfl
@[simp] theorem byteFinish_busy (s : State) : (byteFinish s).busy = false := rfl
@[simp] theorem byteFinish_done (s : State) : (byteFinish s).done = true := rfl
@[simp] theorem byteFinish_err (s : State) : (byteFinish s).err = .none := rfl
@[simp] theorem byteFinish_op (s : State) : (byteFinish s).op = s.op := rfl
@[simp] theorem byteFinish_ilen (s : State) : (byteFinish s).ilen = s.ilen := rfl
@[simp] theorem byteFinish_olen (s : State) : (byteFinish s).olen = s.ilen := rfl
@[simp] theorem byteFinish_i (s : State) : (byteFinish s).i = s.i := rfl
@[simp] theorem byteFinish_j (s : State) : (byteFinish s).j = s.j := rfl
@[simp] theorem byteFinish_acc (s : State) : (byteFinish s).acc = s.acc := rfl
@[simp] theorem byteFinish_cnt (s : State) : (byteFinish s).cnt = s.cnt := rfl
@[simp] theorem byteFinish_sub (s : State) : (byteFinish s).sub = s.sub := rfl
@[simp] theorem byteFinish_nout (s : State) : (byteFinish s).nout = s.nout := rfl
@[simp] theorem byteFinish_ibuf (s : State) : (byteFinish s).ibuf = s.ibuf := rfl
@[simp] theorem byteFinish_obuf (s : State) : (byteFinish s).obuf = s.obuf := rfl
@[simp] theorem byteFinish_sbox (s : State) : (byteFinish s).sbox = s.sbox := rfl
@[simp] theorem byteFinish_script (s : State) : (byteFinish s).script = s.script := rfl
@[simp] theorem byteFinish_reads (s : State) : (byteFinish s).reads = s.reads := rfl
@[simp] theorem byteFinish_draws (s : State) : (byteFinish s).draws = s.draws := rfl

end Sys2Proof.Machine
end

