-- ==== Sys2Proof/Laws/Loops.lean ====
section
/-! SUPPORT. Loops of engine steps, and what each group, entry and byte step is on written contents: one equation per
step, so that no proof unfolds it. -/

namespace Sys2Proof.Machine

/-! ## Loops -/

@[simp] theorem repeatStep_zero (f : State → State) (s : State) : repeatStep 0 f s = s := rfl

theorem repeatStep_succ (n : Nat) (f : State → State) (s : State) :
    repeatStep (n + 1) f s = f (repeatStep n f s) := by
  induction n generalizing s with
  | zero => rfl
  | succ n ih => exact ih (f s)

/-- What one pass of a loop keeps, counting the passes, the whole loop reaches. -/
theorem repeatStep_induct {P : Nat → State → Prop} {n : Nat} {f : State → State} {s : State} (h0 : P 0 s)
    (hs : ∀ k t, k < n → P k t → P (k + 1) (f t)) : P n (repeatStep n f s) := by
  induction n with
  | zero => exact h0
  | succ n ih =>
    rw [repeatStep_succ]
    exact hs n _ (Nat.lt_succ_self n) (ih fun k t hk => hs k t (Nat.lt_succ_of_lt hk))

/-- A field that one pass keeps, the loop keeps. -/
theorem repeatStep_keeps {α : Type} (field : State → α) {f : State → State} (h : ∀ t, field (f t) = field t)
    (n : Nat) (s : State) : field (repeatStep n f s) = field s := by
  induction n with
  | zero => rfl
  | succ n ih => rw [repeatStep_succ, h, ih]

/-- A loop whose pass advances CNT by one advances it by the number of passes. -/
theorem repeatStep_cnt {f : State → State} (h : ∀ t, (f t).cnt = t.cnt + 1) (n : Nat) (s : State) :
    (repeatStep n f s).cnt = s.cnt + n := by
  induction n with
  | zero => rfl
  | succ n ih => rw [repeatStep_succ, h, ih, Nat.add_assoc]

/-! ## Runs of the engine -/

theorem engineStep_idle {s : State} (h : s.busy = false) : engineStep s = .next s := by
  simp [engineStep, h]

theorem engineRun_idle {s : State} (h : s.busy = false) (n : Nat) : engineRun n s = .next s := by
  induction n with
  | zero => rfl
  | succ n ih => simp only [engineRun, engineStep_idle h, ih]

theorem engineRun_step {s t : State} (h : engineStep s = .next t) (n : Nat) :
    engineRun (n + 1) s = engineRun n t := by
  simp only [engineRun, h]

theorem engineRun_add {s t : State} {m : Nat} (h : engineRun m s = .next t) (n : Nat) :
    engineRun (m + n) s = engineRun n t := by
  induction m generalizing s with
  | zero => cases h; rw [Nat.zero_add]
  | succ m ih =>
    rw [Nat.succ_add]
    simp only [engineRun] at h ⊢
    split at h
    · exact ih h
    · cases h
    · cases h

/-- An engine that makes the loop's pass at each step makes the loop. -/
theorem engineRun_repeat {f : State → State} {n : Nat} {s : State}
    (h : ∀ k < n, engineStep (repeatStep k f s) = .next (f (repeatStep k f s))) :
    engineRun n s = .next (repeatStep n f s) := by
  induction n with
  | zero => rfl
  | succ n ih =>
    rw [engineRun_add (ih fun k hk => h k (Nat.lt_succ_of_lt hk)), engineRun_step (h n (Nat.lt_succ_self n)),
      repeatStep_succ]
    rfl

/-! ## The S-box as a permutation -/

/-- An exchange of two written entries, without the canonical form. -/
theorem Memory.get_swap_written {m : Memory} {a b : Nat} {x y : Byte} (ha : m.get a = some x)
    (hb : m.get b = some y) (c : Nat) :
    (m.swap a b).get c = if c = a then some y else if c = b then some x else m.get c := by
  by_cases h : a = b
  · subst h
    have hxy : x = y := Option.some.inj (ha.symm.trans hb)
    simp only [Memory.swap, if_pos]
    split_ifs with hc
    · rw [hc, hb]
    · rfl
  · simp only [Memory.swap, if_neg h, ha, hb, Memory.put, Memory.get_set]
    split_ifs with hb' ha' <;> simp_all

/-- The S-box holding a permutation, exchanged, holds the exchanged one (R8). -/
theorem Holds.swap {m : Memory} {perm : Byte → Byte} (h : Holds m perm) (a b : Byte) :
    Holds (m.swap a.toNat b.toNat) (exchange perm a b) := by
  intro k
  rw [Memory.get_swap_written (h a) (h b)]
  simp only [BitVec.toNat_inj, exchange]
  split_ifs <;> first | rfl | exact h k

/-- An S-box that is a permutation holds one. -/
theorem Scheduled.holds {m : Memory} (h : Scheduled m) : ∃ perm, Holds m perm :=
  ⟨fun k => (m.get k.toNat).get (h.1 k.toNat k.isLt), fun _ => (Option.some_get _).symm⟩

/-- A fully written S-box reads an octet at every index. -/
theorem Holds.get {m : Memory} {perm : Byte → Byte} (h : Holds m perm) {k : Nat} (hk : k < 256) :
    m.get k = some (perm (BitVec.ofNat 8 k)) := by
  have := h (BitVec.ofNat 8 k)
  rwa [BitVec.toNat_ofNat, Nat.mod_eq_of_lt (by simpa using hk)] at this

/-- Being a permutation is a fact about the reads below 256. -/
theorem Scheduled.congr {m n : Memory} (h : Scheduled m) (he : ∀ k < 256, n.get k = m.get k) : Scheduled n := by
  refine ⟨fun k hk => he k hk ▸ h.1 k hk, fun v => ?_⟩
  obtain ⟨k, hk, hv, hu⟩ := h.2 v
  exact ⟨k, hk, (he k hk).trans hv, fun l hl hlv => hu l hl ((he l hl).symm.trans hlv)⟩

/-- The identity is a permutation (R133). -/
theorem Scheduled.identity {m : Memory} (h : ∀ k < 256, m.get k = some (BitVec.ofNat 8 k)) : Scheduled m := by
  refine ⟨fun k hk => by rw [h k hk]; rfl, fun v => ⟨v.toNat, v.isLt, ?_, fun l hl hlv => ?_⟩⟩
  · rw [h _ v.isLt]; simp
  · rw [h l hl] at hlv
    have := congrArg BitVec.toNat (Option.some.inj hlv)
    rwa [BitVec.toNat_ofNat, Nat.mod_eq_of_lt (by simpa using hl)] at this

/-- An exchange below 256 keeps a permutation, whatever the form of the list. -/
theorem Scheduled.swap_written {m : Memory} (h : Scheduled m) {a b : Nat} (ha : a < 256) (hb : b < 256) :
    Scheduled (m.swap a b) := by
  obtain ⟨x, hx⟩ := Option.isSome_iff_exists.mp (h.1 a ha)
  obtain ⟨y, hy⟩ := Option.isSome_iff_exists.mp (h.1 b hb)
  have get := Memory.get_swap_written hx hy
  have key : ∀ l, (m.swap a b).get l = m.get (if l = a then b else if l = b then a else l) := by
    intro l; rw [get]; split_ifs <;> simp [*]
  refine ⟨fun k hk => ?_, fun v => ?_⟩
  · rw [key]; exact h.1 _ (by split_ifs <;> assumption)
  · obtain ⟨k, hk, hv, hu⟩ := h.2 v
    refine ⟨if k = a then b else if k = b then a else k, by split_ifs <;> assumption, ?_, fun l hl hlv => ?_⟩
    · rw [key]
      split_ifs <;> simp_all
    · rw [key] at hlv
      have := hu _ (by split_ifs <;> assumption) hlv
      split_ifs at this ⊢ <;> omega

/-! ## The steps on written contents -/

/-- The packer on a loaded group (R104). -/
theorem State.packInput_loaded {s : State} {b : Nat → Byte} (h : ∀ k < s.ilen, s.ibuf.get k = some (b k)) {g : Nat}
    (hg : 3 * g < s.ilen) : s.packInput g = (groupValue b s.ilen g, s) := by
  have h0 := State.readIbuf_written (h (3 * g) hg)
  simp only [State.packInput, groupValue, h0]
  by_cases h1 : 2 ≤ groupSize s.ilen g
  · have h1' := State.readIbuf_written (h (3 * g + 1) (by simp only [groupSize] at h1; omega))
    simp only [if_pos h1, h1']
    by_cases h2 : groupSize s.ilen g = 3
    · have h2' := State.readIbuf_written (h (3 * g + 2) (by simp only [groupSize] at h2; omega))
      simp only [if_pos h2, h2']
    · simp only [if_neg h2]
  · simp only [if_neg h1, if_neg (show ¬ groupSize s.ilen g = 3 by omega)]

/-- The reads of a loaded decode group (R115). -/
theorem State.readText_loaded {s : State} {text : Nat → Byte} (h : ∀ k < s.ilen, s.ibuf.get k = some (text k))
    {g : Nat} (hg : 4 * g + 3 < s.ilen) : s.readText g = (textGroup text g, s) := by
  simp only [State.readText, State.readIbuf_written (h (4 * g) (by omega)),
    State.readIbuf_written (h (4 * g + 1) (by omega)), State.readIbuf_written (h (4 * g + 2) (by omega)),
    State.readIbuf_written (h (4 * g + 3) hg), textGroup]

/-- The set-up of a decode of a loaded text (R113). -/
theorem decodeSetup_loaded {s : State} {text : Nat → Byte} (h : ∀ k < s.ilen, s.ibuf.get k = some (text k))
    (hl : 2 ≤ s.ilen) : decodeSetup s = { s with nout := decodedLength text s.ilen, sub := .run } := by
  simp only [decodeSetup, State.readIbuf_written (h (s.ilen - 1) (by omega)),
    State.readIbuf_written (h (s.ilen - 2) (by omega)), decodedLength]

/-- The mixing step on a written S and key byte (R134). -/
theorem mixStep_written {s : State} {x kb : Byte} (hx : s.sbox.get s.cnt = some x)
    (hk : s.ibuf.get (s.cnt % s.ilen) = some kb) :
    mixStep s = { s with
      j := s.j + x + kb, sbox := s.sbox.swap s.cnt (s.j + x + kb).toNat, cnt := s.cnt + 1 } := by
  simp only [mixStep, hx, State.readEntry_some, State.readIbuf_written hk]

/-- The byte step on a written S and data byte (R149). -/
theorem byteStep_written {s : State} {perm : Byte → Byte} {d : Byte} (hS : Holds s.sbox perm)
    (hd : s.ibuf.get s.cnt = some d) :
    byteStep s = { s with
      i := (advance ⟨perm, s.i, s.j⟩).i, j := (advance ⟨perm, s.i, s.j⟩).j
      sbox := s.sbox.swap (advance ⟨perm, s.i, s.j⟩).i.toNat (advance ⟨perm, s.i, s.j⟩).j.toNat
      obuf := s.obuf.set s.cnt (d ^^^ keystream ⟨perm, s.i, s.j⟩ 0), cnt := s.cnt + 1 } := by
  have h1 := State.readSbox_written (hS (s.i + 1#8))
  have hS' := hS.swap (s.i + 1#8) (s.j + perm (s.i + 1#8))
  simp only [byteStep, h1]
  have key : ∀ (t : State) (k : Byte),
      t.sbox = s.sbox.swap (s.i + 1#8).toNat (s.j + perm (s.i + 1#8)).toNat →
      t.readSbox k = (exchange perm (s.i + 1#8) (s.j + perm (s.i + 1#8)) k, t) := by
    intro t k ht
    exact State.readSbox_written (by rw [ht]; exact hS' k)
  have keyI : ∀ t : State, t.ibuf = s.ibuf → t.readIbuf s.cnt = (d, t) := by
    intro t ht
    exact State.readIbuf_written (by rw [ht]; exact hd)
  let s1 : State := { s with
    i := s.i + 1#8, j := s.j + perm (s.i + 1#8)
    sbox := s.sbox.swap (s.i + 1#8).toNat (s.j + perm (s.i + 1#8)).toNat }
  have hi := key s1 (s.i + 1#8) rfl
  have hj := key s1 (s.j + perm (s.i + 1#8)) rfl
  have hk := fun k => key s1 k rfl
  have hd' := keyI s1 rfl
  simp only [s1] at hi hj hk hd'
  simp only [hi, hj, hd', hk]
  rfl

/-- The byte step writes one entry of OBUF, whatever it reads (R149). -/
theorem byteStep_obuf (s : State) : ∃ v, (byteStep s).obuf = s.obuf.set s.cnt v := by
  simp only [byteStep, State.readSbox_snd_obuf, State.readIbuf_snd_obuf]
  exact ⟨_, rfl⟩

end Sys2Proof.Machine
end

