-- ==== Sys2Proof/Laws/Units.lean ====
section
/-! SUPPORT. One lemma for the loop of each command that says everything the loop can do, on any contents and on loaded
ones. -/

namespace Sys2Proof.Machine

/-! ## The parameters and the ROMs -/

/-- Every ALPHA entry is in the alphabet (R35). -/
theorem alpha_mem (c : Config) (k : Sextet) : alpha c k ∈ c.alphabet.toList := by
  simp [alpha, Vector.get]

/-- A read of ALPHA is an entry of the list (R35). -/
theorem alpha_eq_getElem (c : Config) (k : Sextet) : alpha c k = c.alphabet.toList[k.toNat]'(by simpa using k.isLt) :=
    by
  simp [alpha, Vector.get]

/-- The alphabet has no repeats (R6). -/
theorem configWf_nodup {c : Config} (h : c.wf = true) : c.alphabet.toList.Nodup := by
  simp only [Config.wf, Config.alphabetDistinct, Bool.and_eq_true, decide_eq_true_eq] at h
  exact h.1.1.2

/-- PAD is not in the alphabet (R38). -/
theorem configWf_pad_notMem {c : Config} (h : c.wf = true) : pad ∉ c.alphabet.toList := by
  simp only [Config.wf, Config.alphabetNoPad, Bool.and_eq_true, decide_eq_true_eq] at h
  exact h.1.2

/-- `LENW >= 3` (R6). -/
theorem configWf_lenw {c : Config} (h : c.wf = true) : 3 ≤ c.lenw := by
  simp only [Config.wf, Config.lenwOk, Bool.and_eq_true, decide_eq_true_eq] at h
  exact h.1.1.1.1

/-! ## B64ENC -/

/-- What the group loop of B64ENC keeps (R102). -/
theorem encodeLoop_keeps (s : State) (n : Nat) :
   let t := repeatStep n encodeStep (s.accept .b64enc).enterRun
   t.cnt = n ∧ t.cfg = s.cfg ∧ t.ilen = s.ilen ∧ t.i = s.i ∧ t.j = s.j ∧ t.nout = s.nout ∧ t.ibuf = s.ibuf ∧
     t.sbox = s.sbox ∧ t.script = s.script ∧ t.reads = s.reads ∧ t.op = .b64enc
     := by
  have k := fun {α} (f : State → α) h => repeatStep_keeps (f := encodeStep) f h n (s.accept .b64enc).enterRun
  refine ⟨by rw [repeatStep_cnt (fun t => by simp)]; simp, ?_,?_,?_,?_,?_,?_,?_,?_,?_,?_⟩
  · exact k (·.cfg) (by simp)
  · exact k (·.ilen) (by simp)
  · exact k (·.i) (by simp)
  · exact k (·.j) (by simp)
  · exact k (·.nout) (by simp)
  · exact k (·.ibuf) (by simp)
  · exact k (·.sbox) (by simp)
  · exact k (·.script) (by simp)
  · exact k (·.reads) (by simp)
  · exact k (·.op) (by simp)

/-- What the group loop of B64ENC writes, on any input, and on a loaded one (R100). -/
theorem encodeLoop_obuf (s : State) (n : Nat) : ∃ v : Nat → Group,
   let t := repeatStep n encodeStep (s.accept .b64enc).enterRun
   (∀ g < n, ∀ m < 4, t.obuf.get (4*g+m) = (groupText s.cfg (v g) (groupSize s.ilen g))[m]?) ∧
   (∀ k, 4*n ≤ k → t.obuf.get k = s.obuf.get k) ∧
   (∀ b : Nat → Byte, (∀ k < s.ilen, s.ibuf.get k = some (b k)) → n ≤ encodeGroups s.ilen →
     (∀ g < n, v g = groupValue b s.ilen g) ∧ t.draws = s.draws ∧ t = { t with draws := s.draws}) := by
  induction n with
  | zero => exact ⟨fun _ => 0, by simp, by simp, by simp; exact fun _ _ => rfl⟩
  | succ n ih =>
    obtain ⟨v, h1, h2, h3⟩ := ih
    obtain ⟨c0, c1, c2, c3, c4, c5, c6, c7, c8, c9⟩ := encodeLoop_keeps s n
    set t := repeatStep n encodeStep (s.accept .b64enc).enterRun with ht
    refine ⟨Function.update v n (t.packInput t.cnt).1, ?_⟩
    simp only [repeatStep_succ, ← ht]
    refine ⟨fun g hg m hm => ?_, fun k hk => ?_, fun b hb hn => ?_⟩
    · rw [encodeStep_obuf, Memory.get_setList, c0, c1, c2]
      by_cases hgn : g = n
      · subst hgn
        rw [if_pos (by simp [groupText]; omega)]
        simp
      · rw [if_neg (by simp [groupText]; omega), Function.update_of_ne hgn]
        exact h1 g (by omega) m hm
    · rw [encodeStep_obuf, Memory.get_setList_outside _ _ _ (by simp [groupText, c0]; omega)]
      exact h2 k (by omega)
    · obtain ⟨hv, hd, he⟩ := h3 b hb (by omega)
      have hp : t.packInput t.cnt = (groupValue b s.ilen n, t) := by
        rw [c0, State.packInput_loaded (b := b) (by rw [c2, c6]; exact hb) (by rw [c2]; simp only [encodeGroups] at hn; omega), c2]
      refine ⟨fun g hg => ?_, ?_, ?_⟩
      · by_cases hgn : g = n
        · subst hgn; simp [hp]
        · rw [Function.update_of_ne hgn]; exact hv g (by omega)
      · simp [encodeStep, hp, hd]
      · have : (encodeStep t).draws = s.draws := by simp [encodeStep, hp, hd]
        rw [← this]

/-! ## B64DEC -/

/-- What the group loop of B64DEC keeps (R123). -/
theorem decodeLoop_keeps (n : Nat) (s : State) :
  (decodeLoop n s).cfg = s.cfg ∧ (decodeLoop n s).ilen = s.ilen ∧ (decodeLoop n s).i = s.i ∧
    (decodeLoop n s).j = s.j ∧ (decodeLoop n s).ibuf = s.ibuf ∧ (decodeLoop n s).sbox = s.sbox ∧
  (decodeLoop n s).script = s.script ∧ (decodeLoop n s).reads = s.reads ∧ (decodeLoop n s).op = s.op ∧
    (decodeLoop n s).nout = s.nout ∧ (decodeLoop n s).busy = false ∧ (decodeLoop n s).done = true ∧
    (decodeLoop n s).sub = s.sub := by
  induction n generalizing s with
  | zero => simp [decodeLoop]
  | succ n ih =>
    simp only [decodeLoop]
    split
    · rename_i v hv
      have := ih (decodeStep v (s.readText s.cnt).2)
      simpa using this
    · simp

/-- A read of OBUF after a decode group (R115). -/
theorem decodeStep_get (v : Group) (s : State) (k : Nat) : (decodeStep v s).obuf.get k =
    if 3 * s.cnt ≤ k ∧ k < 3 * s.cnt + 3 ∧ k < s.nout then some (byteOf v (k - 3 * s.cnt)) else s.obuf.get k := by
  rw [decodeStep_obuf, Memory.get_setList]
  by_cases h : 3 * s.cnt ≤ k ∧ k < 3 * s.cnt + 3 ∧ k < s.nout
  · rw [if_pos h, if_pos (by simp [groupBytes]; omega), List.getElem?_take_of_lt (by omega)]
    have : k - 3 * s.cnt = 0 ∨ k - 3 * s.cnt = 1 ∨ k - 3 * s.cnt = 2 := by omega
    rcases this with h | h | h <;> rw [h] <;> rfl
  · rw [if_neg h, if_neg (by simp [groupBytes]; omega)]

/-- How the group loop of B64DEC ends, and what of OBUF it leaves (R116, R117). -/
theorem decodeLoop_obuf (n : Nat) (s : State) : s.cnt ≤ (decodeLoop n s).cnt ∧ (decodeLoop n s).cnt ≤ s.cnt + n ∧
   (((decodeLoop n s).err = .none ∧ (decodeLoop n s).olen = s.nout ∧ (decodeLoop n s).cnt = s.cnt + n) ∨
     ((decodeLoop n s).err = .invalidCharacter ∧ (decodeLoop n s).olen = 0)) ∧
   ∀ k, (k < 3 * s.cnt ∨ min s.nout (3 * (decodeLoop n s).cnt) ≤ k) → (decodeLoop n s).obuf.get k = s.obuf.get k := by
  induction n generalizing s with
  | zero => simp [decodeLoop]
  | succ n ih =>
    simp only [decodeLoop]
    split
    · rename_i v hv
      obtain ⟨h1, h2, h3, h4⟩ := ih (decodeStep v (s.readText s.cnt).2)
      simp only [decodeStep_cnt, State.readText_snd_cnt, decodeStep_nout, State.readText_snd_nout] at *
      refine ⟨by omega, by omega, by rw [show s.cnt + (n+1) = s.cnt + 1 + n by omega]; exact h3, fun k hk => ?_⟩
      rw [h4 k (by omega), decodeStep_get, if_neg (by simp; omega)]
      simp
    · simp

/-- The group loop of B64DEC on a loaded text (R110). -/
theorem decodeLoop_loaded (n : Nat) (s : State) (text : Nat → Byte) (hl : ∀ k < s.ilen,
    s.ibuf.get k = some (text k)) (hn : s.cnt + n = s.ilen / 4) :
   (decodeLoop n s).draws = s.draws ∧
   ((∃ g, s.cnt ≤ g ∧ g < s.cnt + n ∧ unpackText s.cfg (textGroup text g) = none) →
     (decodeLoop n s).err = .invalidCharacter) ∧
   ((∀ g, s.cnt ≤ g → g < s.cnt + n → (unpackText s.cfg (textGroup text g)).isSome) → (decodeLoop n s).err = .none ∧
     ∀ g, s.cnt ≤ g → g < s.cnt + n → ∃ v, unpackText s.cfg (textGroup text g) = some v ∧ ∀ m < 3, 3*g+m < s.nout →
       (decodeLoop n s).obuf.get (3*g+m) = some (byteOf v m)) := by
  induction n generalizing s with
  | zero => simp [decodeLoop]; exact ⟨by intro g; omega, by intro g; omega⟩
  | succ n ih =>
    have hr := State.readText_loaded hl (g := s.cnt) (by omega)
    simp only [decodeLoop, hr]
    split
    · rename_i v hv
      obtain ⟨h1, h2, h3⟩ := ih (decodeStep v s) hl (by simp; omega)
      have hob := (decodeLoop_obuf n (decodeStep v s)).2.2.2
      simp only [decodeStep_cnt, decodeStep_nout, decodeStep_cfg, decodeStep_draws] at *
      refine ⟨h1, ?_, fun hall => ?_⟩
      · rintro ⟨g, g1, g2, g3⟩
        refine h2 ⟨g, ?_, by omega, g3⟩
        rcases Nat.lt_or_ge s.cnt g with h | h
        · omega
        · have : g = s.cnt := by omega
          subst this; rw [g3] at hv; cases hv
      · obtain ⟨e1, e2⟩ := h3 fun g a b => hall g (by omega) (by omega)
        refine ⟨e1, fun g a b => ?_⟩
        rcases Nat.lt_or_ge s.cnt g with h | h
        · exact e2 g (by omega) (by omega)
        · have : g = s.cnt := by omega
          subst this
          refine ⟨v, hv, fun m hm hlt => ?_⟩
          rw [hob _ (by omega), decodeStep_get, if_pos (by omega)]
          congr 2; omega
    · rename_i hv
      refine ⟨rfl, fun _ => rfl, fun hall => ?_⟩
      have := hall s.cnt (by omega) (by omega)
      rw [hv] at this; cases this

/-- A group is invalid when one of its characters is (R116). -/
theorem unpackText_eq_none {c : Config} {t : Byte × Byte × Byte × Byte} : unpackText c t = none ↔
    (sextetValue c t.1 = none ∨ sextetValue c t.2.1 = none ∨ sextetValue c t.2.2.1 = none ∨
    sextetValue c t.2.2.2 = none) := by
  simp only [unpackText]
  split
  · simp [*]
  · rename_i h
    simp
    by_contra hc
    simp at hc
    obtain ⟨a, b, d, e⟩ := hc
    obtain ⟨a, ha⟩ := Option.ne_none_iff_exists'.mp a
    obtain ⟨b, hb⟩ := Option.ne_none_iff_exists'.mp b
    obtain ⟨d, hd⟩ := Option.ne_none_iff_exists'.mp d
    obtain ⟨e, he⟩ := Option.ne_none_iff_exists'.mp e
    exact h a b d e ha hb hd he

/-- A valid group is its four sextets (R115). -/
theorem unpackText_eq_some {c : Config} {t : Byte × Byte × Byte × Byte} {v : Group} (h : unpackText c t = some v) :
    ∃ a b d e : Sextet, sextetValue c t.1 = some a ∧ sextetValue c t.2.1 = some b ∧ sextetValue c t.2.2.1 = some d ∧
    sextetValue c t.2.2.2 = some e ∧ v = a ++ b ++ d ++ e := by
  simp only [unpackText] at h
  split at h
  · rename_i a b d e ha hb hd he
    cases h
    exact ⟨a, b, d, e, ha, hb, hd, he, rfl⟩
  · cases h

/-- The length check (R112). -/
theorem lengthBad_eq_true (n : Nat) : lengthBad n = true ↔ n = 0 ∨ n % 4 ≠ 0 := by simp [lengthBad]

/-- The length check passed (R112). -/
theorem lengthBad_eq_false (n : Nat) : lengthBad n = false ↔ n ≠ 0 ∧ n % 4 = 0 := by simp [lengthBad]

/-- Characters valid one by one, or group by group. -/
theorem characters_valid_iff {c : Config} {text : Nat → Byte} {n : Nat} (hn : n % 4 = 0) :
    (∀ k < n, (sextetValue c (text k)).isSome) ↔ ∀ g < n / 4, (unpackText c (textGroup text g)).isSome := by
  constructor
  · intro h g hg
    rw [Option.isSome_iff_ne_none, ne_eq, unpackText_eq_none]
    simp only [textGroup]
    have a := h (4*g) (by omega); have b := h (4*g+1) (by omega); have c := h (4*g+2) (by omega); have d :=
      h (4*g+3) (by omega)
    rintro (e | e | e | e) <;> simp [e] at *
  · intro h k hk
    have := h (k/4) (by omega)
    rw [Option.isSome_iff_ne_none, ne_eq, unpackText_eq_none] at this
    simp only [textGroup, not_or] at this
    obtain ⟨a, b, c, d⟩ := this
    have h4 : k % 4 = 0 ∨ k % 4 = 1 ∨ k % 4 = 2 ∨ k % 4 = 3 := by omega
    have hk4 := Nat.div_add_mod k 4
    rw [Option.isSome_iff_ne_none]
    rcases h4 with h4 | h4 | h4 | h4 <;> rw [h4] at hk4 <;> rw [← hk4] <;> assumption

/-! ## RC4KSA -/

/-- The fill (R133). -/
theorem fillLoop_spec (s : State) (n : Nat) (h0 : s.cnt = 0) : ∃ m : Memory,
    repeatStep n fillStep s = { s with cnt := n, sbox := m} ∧
   (∀ k, m.get k = if k < n then some (BitVec.ofNat 8 k) else s.sbox.get k) := by
  induction n with
  | zero => exact ⟨s.sbox, by rw [repeatStep_zero, ← h0], by simp⟩
  | succ n ih =>
    obtain ⟨m, h1, h2⟩ := ih
    refine ⟨m.set n (BitVec.ofNat 8 n), by rw [repeatStep_succ, h1]; rfl, fun k => ?_⟩
    rw [Memory.get_set, h2]
    split_ifs <;> first | rfl | omega | simp_all

/-- The fields a mixing step writes (R134). -/
theorem mixStep_eta (t : State) :
    mixStep t = { t with
    cnt := t.cnt + 1, sbox := (mixStep t).sbox, j := (mixStep t).j, draws := (mixStep t).draws} := by
  apply State.ext <;> simp

/-- The mixing loop on a permutation, the key loaded or not (R43, R134). -/
theorem mixLoop_spec (s : State) (n : Nat) (hn : n ≤ 256) (h0 : s.cnt = 0) (hs : Scheduled s.sbox) : ∃ (m : Memory)
    (j : Byte) (d : Nat),
  repeatStep n mixStep s = { s with cnt := n, sbox := m, j := j, draws := d} ∧
  Scheduled m ∧ (∀ k, 256 ≤ k → m.get k = s.sbox.get k) := by
  induction n with
  | zero => exact ⟨s.sbox, s.j, s.draws, by rw [repeatStep_zero, ← h0], hs, fun _ _ => rfl⟩
  | succ n ih =>
    obtain ⟨m, j, d, h1, h2, h3⟩ := ih (by omega)
    rw [repeatStep_succ, h1, mixStep_eta]
    set t : State := { s with cnt := n, sbox := m, j := j, draws := d} with ht
    have hj : (mixStep t).j.toNat < 256 := (mixStep t).j.isLt
    refine ⟨_, _, _, rfl, ?_, fun k hk => ?_⟩
    · rw [mixStep_sbox]; exact h2.swap_written (by show n < 256; omega) hj
    · obtain ⟨x, hx⟩ := Option.isSome_iff_exists.mp (h2.1 n (by omega))
      obtain ⟨y, hy⟩ := Option.isSome_iff_exists.mp (h2.1 _ hj)
      rw [mixStep_sbox]
      have := Memory.get_swap_written hx hy k
      rw [if_neg (by omega), if_neg (by omega), h3 k hk] at this
      exact this

/-- The mixing loop on a loaded key is RC4's key schedule (R130). -/
theorem mixLoop_schedule (s : State) (key : Nat → Byte) (h0 : s.cnt = 0) (hid : Holds s.sbox id) (hj : s.j = 0#8)
    (hi : 0 < s.ilen) (hl : ∀ k < min s.ilen 256, s.ibuf.get k = some (key k)) (n : Nat) (hn : n ≤ 256) :
   let t := repeatStep n mixStep s
   t.cnt = n ∧ t.ilen = s.ilen ∧ t.ibuf = s.ibuf ∧ Holds t.sbox (scheduleAfter key s.ilen n).1 ∧
     t.j = (scheduleAfter key s.ilen n).2 ∧ t.draws = s.draws := by
  induction n with
  | zero => exact ⟨h0, rfl, rfl, hid, hj, rfl⟩
  | succ n ih =>
    obtain ⟨h1, h2, h3, h4, h5, h6⟩ := ih (by omega)
    simp only [repeatStep_succ]
    set t := repeatStep n mixStep s with ht
    have hx : t.sbox.get t.cnt = some ((scheduleAfter key s.ilen n).1 (BitVec.ofNat 8 n)) :=
      by rw [h1]; exact h4.get (by omega)
    have hk : t.ibuf.get (t.cnt % t.ilen) = some (key (n % s.ilen)) := by
      rw [h1, h2, h3]; apply hl
      have := Nat.mod_lt n hi
      have := Nat.mod_le n s.ilen
      omega
    rw [mixStep_written hx hk]
    have hnn : n = (BitVec.ofNat 8 n).toNat := by simp; omega
    refine ⟨by simp [h1], h2, h3, ?_, ?_, h6⟩
    · simp only [scheduleAfter, h5, h1]
      have := h4.swap (BitVec.ofNat 8 n)
        ((scheduleAfter key s.ilen n).2 + (scheduleAfter key s.ilen n).1 (BitVec.ofNat 8 n) + key (n % s.ilen))
      rwa [← hnn] at this
    · simp [scheduleAfter, h5]

/-! ## RC4PRGA -/

/-- The first advance taken apart. -/
theorem advanceBy_succ' (n : Nat) (c : CipherState) : advanceBy (n+1) c = advanceBy n (advance c) := by
  induction n with
  | zero => rfl
  | succ n ih => rw [advanceBy, ih]; rfl

/-- Advancing twice. -/
theorem advanceBy_add (a b : Nat) (c : CipherState) : advanceBy (a+b) c = advanceBy b (advanceBy a c) := by
  induction b with
  | zero => rfl
  | succ b ih => rw [← Nat.add_assoc, advanceBy, ih]; rfl

/-- The keystream further on. -/
theorem keystream_add (a b : Nat) (c : CipherState) : keystream c (a+b) = keystream (advanceBy a c) b := by
  simp only [keystream, Nat.add_assoc, advanceBy_add]

/-- The fields a byte step writes (R149). -/
theorem byteStep_eta (s : State) :
    byteStep s = { s with
      cnt := s.cnt + 1, sbox := (byteStep s).sbox, i := s.i + 1#8, j := (byteStep s).j
      obuf := (byteStep s).obuf, draws := (byteStep s).draws } := by
  apply State.ext <;> simp

/-- The byte loop on any S and data (R157). -/
theorem byteLoop_spec (s : State) (n : Nat) (h0 : s.cnt = 0) : ∃ (m q : Memory) (j : Byte) (d : Nat),
  repeatStep n byteStep s = { s with
    cnt := n, sbox := m, i := s.i + BitVec.ofNat 8 n, j := j, obuf := q, draws := d} ∧
  (∀ k < n, (q.get k).isSome) ∧ (∀ k, n ≤ k → q.get k = s.obuf.get k) ∧
    (s.sbox.wf → m.wf ∧ ∀ k, 256 ≤ k → m.get k = s.sbox.get k) ∧
   (Scheduled s.sbox → Scheduled m) := by
  induction n with
  | zero => refine ⟨s.sbox, s.obuf, s.j, s.draws, by apply State.ext <;> simp [h0], by simp, by simp, by simp,
    by simp⟩
  | succ n ih =>
    obtain ⟨m, q, j, d, h1, h2, h3, h4, h5⟩ := ih
    rw [repeatStep_succ, h1, byteStep_eta]
    set t : State := { s with cnt := n, sbox := m, i := s.i + BitVec.ofNat 8 n, j := j, obuf := q, draws := d} with ht
    obtain ⟨v, hv⟩ := byteStep_obuf t
    have hj : (byteStep t).j.toNat < 256 := (byteStep t).j.isLt
    have hi : (t.i + 1#8).toNat < 256 := (t.i + 1#8).isLt
    have hii : t.i + 1#8 = s.i + BitVec.ofNat 8 (n+1) := by
      show s.i + BitVec.ofNat 8 n + 1#8 = _
      rw [BitVec.add_assoc]; congr 1; apply BitVec.eq_of_toNat_eq; simp
    refine ⟨_, _, _, _, by rw [← hii], ?_, ?_, ?_, ?_⟩
    · rw [hv]; intro k hk; rw [Memory.get_set]; split_ifs with h
      · rfl
      · exact h2 k (by have : k ≠ n := h; omega)
    · rw [hv]; intro k hk; rw [Memory.get_set, if_neg (by show k ≠ n; omega)]; exact h3 k (by omega)
    · rw [byteStep_sbox]; intro hw; refine ⟨Memory.wf_swap (h4 hw).1 .., fun k hk => ?_⟩
      rw [Memory.get_swap (h4 hw).1, if_neg (by omega), if_neg (by omega)]; exact (h4 hw).2 k hk
    · rw [byteStep_sbox]; intro hS; exact (h5 hS).swap_written hi hj

/-- The byte loop on a written S and loaded data is the cipher (R145). -/
theorem byteLoop_cipher (s : State) (perm : Byte → Byte) (data : Nat → Byte) (h0 : s.cnt = 0)
    (hS : Holds s.sbox perm) (n : Nat) (hl : ∀ k < n, s.ibuf.get k = some (data k)) :
   let t := repeatStep n byteStep s
   t.cnt = n ∧ t.ibuf = s.ibuf ∧ Holds t.sbox (advanceBy n ⟨perm, s.i, s.j⟩).perm ∧
     t.i = (advanceBy n ⟨perm, s.i, s.j⟩).i ∧ t.j = (advanceBy n ⟨perm, s.i, s.j⟩).j ∧ t.draws = s.draws ∧ ∀ p < n,
     t.obuf.get p = some (data p ^^^ keystream ⟨perm, s.i, s.j⟩ p) := by
  induction n with
  | zero => exact ⟨h0, rfl, hS, rfl, rfl, rfl, by simp⟩
  | succ n ih =>
    obtain ⟨h1, h2, h3, h4, h5, h6, h7⟩ := ih (fun k hk => hl k (by omega))
    simp only [repeatStep_succ]
    set t := repeatStep n byteStep s with ht
    have hd : t.ibuf.get t.cnt = some (data n) := by rw [h1, h2, hl n (by omega)]
    rw [byteStep_written h3 hd, h4, h5]
    refine ⟨by simp [h1], h2, ?_, rfl, rfl, h6, fun p hp => ?_⟩
    · exact h3.swap _ _
    · simp only [Memory.get_set, h1]
      split_ifs with h
      · subst h
        have := keystream_add p 0 ⟨perm, s.i, s.j⟩
        rw [Nat.add_zero] at this
        rw [this]
      · exact h7 p (by omega)

end Sys2Proof.Machine
end

