-- ==== Sys2Proof/Laws/Step.lean ====
section
/-! SUPPORT. What a step of the engine and a step of the machine can do, and what keeps the invariant: each said once. -/

namespace Sys2Proof.Machine

/-! ## The engine -/

/-- What a step of a BUSY engine can do: what it keeps, whether it ends, and how an error leaves the state. -/
theorem engineStep_cases {s t : State} (hb : s.busy = true) (h : engineStep s = .next t) :
    t.cfg = s.cfg ∧ t.ibuf = s.ibuf ∧ t.ilen = s.ilen ∧ t.script = s.script ∧ t.reads = s.reads ∧ t.op = s.op ∧
    (t.sbox = s.sbox ∨ s.op = .rc4ksa ∨ s.op = .rc4prga) ∧
    ((t.busy = true ∧ t.done = false ∧ t.err = s.err ∧ t.olen = s.olen) ∨ (t.busy = false ∧ t.done = true)) ∧
    (t.err = s.err ∨ t.err = .none ∨
      t = { s with err := t.err, olen := 0, busy := false, done := true, draws := t.draws }) := by
  have txt : ∀ e : ErrCode,
    (s.readText s.cnt).2.raise e = { s with
    err := e, olen := 0, busy := false, done := true, draws := (s.readText s.cnt).2.draws } := by
    intro e; apply State.ext <;> simp
  simp only [engineStep, hb, if_true] at h
  split at h
  · cases h
  · rename_i hd
    rw [Bool.not_eq_true] at hd
    have go : ∀ {u : State}, u.cfg = s.cfg → u.ibuf = s.ibuf → u.ilen = s.ilen → u.script = s.script →
      u.reads = s.reads → u.op = s.op →
       (u.sbox = s.sbox ∨ s.op = .rc4ksa ∨ s.op = .rc4prga) → u.busy = s.busy → u.done = s.done → u.err = s.err →
         u.olen = s.olen →
          u.cfg = s.cfg ∧ u.ibuf = s.ibuf ∧ u.ilen = s.ilen ∧ u.script = s.script ∧ u.reads = s.reads ∧ u.op = s.op ∧
    (u.sbox = s.sbox ∨ s.op = .rc4ksa ∨ s.op = .rc4prga) ∧
    ((u.busy = true ∧ u.done = false ∧ u.err = s.err ∧ u.olen = s.olen) ∨ (u.busy = false ∧ u.done = true)) ∧
    (u.err = s.err ∨ u.err = .none ∨
      u = { s with err := u.err, olen := 0, busy := false, done := true, draws := u.draws }) := by
      intro u a b c d e f g h1 h2 h3 h4
      exact ⟨a, b, c, d, e, f, g, .inl ⟨h1.trans hb, h2.trans hd, h3, h4⟩, .inl h3⟩
    split at h <;> rename_i ho
    · simp only [tickB64enc] at h
      split at h
      · cases h; exact go rfl rfl rfl rfl rfl rfl (.inl rfl) rfl rfl rfl rfl
      · cases h
      · split_ifs at h
        · cases h; refine go ?_ ?_ ?_ ?_ ?_ ?_ (.inl ?_) ?_ ?_ ?_ ?_ <;> simp
        · cases h; exact ⟨rfl, rfl, rfl, rfl, rfl, rfl, .inl rfl, .inr ⟨rfl, rfl⟩, .inr (.inl rfl)⟩
    · simp only [tickB64dec] at h
      split at h
      · split_ifs at h
        · cases h; exact ⟨rfl, rfl, rfl, rfl, rfl, rfl, .inl rfl, .inr ⟨rfl, rfl⟩, .inr (.inr rfl)⟩
        · cases h; refine go ?_ ?_ ?_ ?_ ?_ ?_ (.inl ?_) ?_ ?_ ?_ ?_ <;> simp
      · cases h
      · split_ifs at h
        · split at h
          · cases h; refine go ?_ ?_ ?_ ?_ ?_ ?_ (.inl ?_) ?_ ?_ ?_ ?_ <;> simp
          · cases h; rw [txt]; exact ⟨rfl, rfl, rfl, rfl, rfl, rfl, .inl rfl, .inr ⟨rfl, rfl⟩, .inr (.inr rfl)⟩
        · cases h; exact ⟨rfl, rfl, rfl, rfl, rfl, rfl, .inl rfl, .inr ⟨rfl, rfl⟩, .inr (.inl rfl)⟩
    · simp only [tickRc4ksa] at h
      split at h
      · split_ifs at h
        · cases h; exact ⟨rfl, rfl, rfl, rfl, rfl, rfl, .inl rfl, .inr ⟨rfl, rfl⟩, .inr (.inr rfl)⟩
        · cases h; exact go rfl rfl rfl rfl rfl rfl (.inl rfl) rfl rfl rfl rfl
      · split_ifs at h
        · cases h; exact go rfl rfl rfl rfl rfl rfl (.inr (.inl ho)) rfl rfl rfl rfl
        · cases h; exact go rfl rfl rfl rfl rfl rfl (.inl rfl) rfl rfl rfl rfl
      · split_ifs at h
        · cases h; refine go ?_ ?_ ?_ ?_ ?_ ?_ (.inr (.inl ho)) ?_ ?_ ?_ ?_ <;> simp
        · cases h; exact ⟨rfl, rfl, rfl, rfl, rfl, rfl, .inl rfl, .inr ⟨rfl, rfl⟩, .inr (.inl rfl)⟩
    · simp only [tickRc4prga] at h
      split at h
      · cases h; refine go ?_ ?_ ?_ ?_ ?_ ?_ (.inl ?_) ?_ ?_ ?_ ?_ <;> simp
      · cases h
      · split_ifs at h
        · cases h; refine go ?_ ?_ ?_ ?_ ?_ ?_ (.inr (.inr ho)) ?_ ?_ ?_ ?_ <;> simp
        · cases h; exact ⟨rfl, rfl, rfl, rfl, rfl, rfl, .inl rfl, .inr ⟨rfl, rfl⟩, .inr (.inl rfl)⟩

/-- What every engine step keeps. -/
def Kept (s t : State) : Prop := t.cfg = s.cfg ∧ t.ibuf = s.ibuf ∧ t.ilen = s.ilen ∧ t.script = s.script ∧
    t.reads = s.reads ∧ t.op = s.op ∧
    (t.sbox = s.sbox ∨ s.op = .rc4ksa ∨ s.op = .rc4prga)

/-- A step not taken keeps everything. -/
theorem Kept.refl (s : State) : Kept s s := ⟨rfl, rfl, rfl, rfl, rfl, rfl, .inl rfl⟩

/-- Two steps. -/
theorem Kept.trans {s t u : State} (h : Kept s t) (g : Kept t u) : Kept s u := by
  obtain ⟨a, b, c, d, e, f, i⟩ := h
  obtain ⟨a', b', c', d', e', f', i'⟩ := g
  refine ⟨a'.trans a, b'.trans b, c'.trans c, d'.trans d, e'.trans e, f'.trans f, ?_⟩
  rcases i' with i' | i'
  · rcases i with i | i
    · exact .inl (i'.trans i)
    · exact .inr i
  · rw [f] at i'; exact .inr i'

/-- Every engine step keeps the parameters, the input, the script and the readings (R55). -/
theorem engineStep_kept {s t : State} (h : engineStep s = .next t) : Kept s t := by
  cases hb : s.busy
  · rw [engineStep_idle hb] at h; cases h; exact .refl _
  · obtain ⟨a, b, c, d, e, f, g, -⟩ := engineStep_cases hb h; exact ⟨a, b, c, d, e, f, g⟩

/-- So does every run of the engine. -/
theorem engineRun_kept {n : Nat} {s t : State} (h : engineRun n s = .next t) : Kept s t := by
  induction n generalizing s with
  | zero => cases h; exact .refl _
  | succ n ih =>
    simp only [engineRun] at h
    split at h
    · rename_i u hu; exact (engineStep_kept hu).trans (ih h)
    · cases h
    · cases h

/-- A set-up step and then a loop of steps. -/
theorem engineRun_trace {f : State → State} {s0 s1 : State} {n : Nat} (h1 : engineStep s0 = .next s1)
    (h : ∀ k < n, engineStep (repeatStep k f s1) = .next (f (repeatStep k f s1))) :
    ∀ m ≤ n, engineRun (m + 1) s0 = .next (repeatStep m f s1) := by
  intro m hm
  rw [engineRun_step h1, engineRun_repeat fun k hk => h k (by omega)]

/-- One more step at the end. -/
theorem engineRun_last {s t u : State} {n : Nat} (h : engineRun n s = .next t) (h1 : engineStep t = .next u) :
    engineRun (n+1) s = .next u := by
  rw [engineRun_add h, engineRun_step h1]; rfl

/-- The engine on a B64DEC past its set-up (R122). -/
theorem engineRun_decodeLoop (n : Nat) (t : State) (hb : t.busy = true) (hd : t.done = false) (ho : t.op = .b64dec)
    (hs : t.sub = .run) (he : t.err = .none)
  (hn : t.cnt + n = t.ilen / 4) : engineRun (n+1) t = .next (decodeLoop n t) ∧
    ((decodeLoop n t).err = .none → ∀ m ≤ n, ∃ u, engineRun m t = .next u ∧ u.busy = true) := by
  induction n generalizing t with
  | zero =>
    refine ⟨?_, fun _ m hm => ⟨t, by obtain rfl : m = 0 := by omega
                                     rfl, hb⟩⟩
    have : engineStep t = .next (decodeFinish t) := by
      simp [engineStep, hb, hd, ho, hs, tickB64dec, decodeGroups, ← hn]
    rw [engineRun_step this]; rfl
  | succ n ih =>
    rw [decodeLoop]
    cases hu : unpackText t.cfg (t.readText t.cnt).1 with
    | none =>
      have : engineStep t = .next ((t.readText t.cnt).2.raise .invalidCharacter) := by
        simp [engineStep, hb, hd, ho, hs, tickB64dec, decodeGroups, ← hn, hu]
      rw [engineRun_step this, engineRun_idle rfl]
      exact ⟨rfl, fun h => by cases h⟩
    | some v =>
      have : engineStep t = .next (decodeStep v (t.readText t.cnt).2) := by
        simp [engineStep, hb, hd, ho, hs, tickB64dec, decodeGroups, ← hn, hu]
      rw [engineRun_step this]
      obtain ⟨i1, i2⟩ := ih (decodeStep v (t.readText t.cnt).2) (by simpa) (by simpa) (by simpa) (by simpa)
        (by simpa) (by simp; omega)
      refine ⟨i1, fun h m hm => ?_⟩
      cases m with
      | zero => exact ⟨t, rfl, hb⟩
      | succ m => rw [engineRun_step this]; exact i2 h m (by omega)

/-! ## The invariant -/

/-- Acceptance keeps the invariant (R74). -/
theorem Inv.accept {s : State} (h : Inv s) (i : Instr) : Inv (s.accept i) where
  cfg_wf := h.cfg_wf
  ibuf_fits := h.ibuf_fits
  obuf_fits := h.obuf_fits
  sbox_fits := h.sbox_fits
  ilen_lt := h.ilen_lt
  olen_lt := by show 0 < _; exact Nat.pow_pos (by omega)
  nout_lt := h.nout_lt
  cnt_lt := by show 0 < _; exact Nat.pow_pos (by omega)
  busy_clear := fun _ => ⟨rfl, rfl, rfl⟩
  idle_clear := fun h => by cases h
  err_ok := trivial
  err_empty := fun h => by cases h rfl
  sequencer_ok := fun _ => by cases i <;> exact rfl
  output_ok := fun k h => by cases i <;> simp [outputWritten] at h

/-- A completion keeps the invariant (R80, R175). -/
theorem Inv.complete {s : State} (h : Inv s) {e : ErrCode} {n : Nat} (hn : n < 2 ^ (s.cfg.lenw+1)) (he : match e with
   | .none => True | .invalidKey => s.op = .rc4ksa | _ => s.op = .b64dec) (hz : e ≠ .none → n = 0)
   (ho : ∀ k < n, (s.obuf.get k).isSome) : Inv (s.complete e n) where
  cfg_wf := h.cfg_wf
  ibuf_fits := h.ibuf_fits
  obuf_fits := h.obuf_fits
  sbox_fits := h.sbox_fits
  ilen_lt := h.ilen_lt
  olen_lt := hn
  nout_lt := h.nout_lt
  cnt_lt := h.cnt_lt
  busy_clear := fun h => by cases h
  idle_clear := fun _ h => by cases h
  err_ok := by cases e <;> exact he
  err_empty := hz
  sequencer_ok := fun h => by cases h
  output_ok := fun k h => ho k (by simpa [outputWritten] using h)

/-- The host agent's own fields play no part in the invariant. -/
theorem Inv.host {s : State} (h : Inv s) (sc : List Turn) (r : List Reading) (d : Nat) :
    Inv { s with script := sc, reads := r, draws := d} where
  cfg_wf := h.cfg_wf
  ibuf_fits := h.ibuf_fits
  obuf_fits := h.obuf_fits
  sbox_fits := h.sbox_fits
  ilen_lt := h.ilen_lt
  olen_lt := h.olen_lt
  nout_lt := h.nout_lt
  cnt_lt := h.cnt_lt
  busy_clear := h.busy_clear
  idle_clear := h.idle_clear
  err_ok := h.err_ok
  err_empty := h.err_empty
  sequencer_ok := h.sequencer_ok
  output_ok := h.output_ok

/-- A step after which the engine still runs keeps the invariant when it keeps the reported fields. -/
theorem Inv.running {s t : State} (h : Inv s) (hb : s.busy = true) (c : t.cfg = s.cfg) (b : t.busy = s.busy)
    (d : t.done = s.done) (e : t.err = s.err) (ol : t.olen = s.olen)
   (il : t.ilen = s.ilen) (ib : t.ibuf = s.ibuf) (ob : t.obuf.fits s.cfg.obufSize) (sb : t.sbox.fits 256)
     (n : t.nout < 2 ^ (s.cfg.lenw+1)) (cn : t.cnt < 2 ^ s.cfg.cntWidth)
   (sq : SequencerOk t) (ow : ∀ k < outputWritten t, (t.obuf.get k).isSome) : Inv t where
  cfg_wf := by rw [c]; exact h.cfg_wf
  ibuf_fits := by rw [c, ib]; exact h.ibuf_fits
  obuf_fits := by rw [c]; exact ob
  sbox_fits := sb
  ilen_lt := by rw [c, il]; exact h.ilen_lt
  olen_lt := by rw [c, ol]; exact h.olen_lt
  nout_lt := by rw [c]; exact n
  cnt_lt := by rw [c]; exact cn
  busy_clear := fun _ => by rw [d, e, ol]; exact h.busy_clear hb
  idle_clear := fun hh => by rw [b, hb] at hh; cases hh
  err_ok := by
    have := (h.busy_clear hb).2.1
    rw [this] at e; simp [ErrOk, e]
  err_empty := fun hh => by rw [e, (h.busy_clear hb).2.1] at hh; cases hh rfl
  sequencer_ok := fun _ => sq
  output_ok := ow

/-! ## The step -/

/-- What a step can do: an engine step, nothing but the host agent's own fields, an acceptance, a write of ILEN or
IBUF, a whole command, or the reset. -/
theorem step_cases {s t : State} (h : step s = .next t) :
   (s.busy = true ∧ ∃ sc, engineStep { s with script := sc} = .next t ∧
     (s.script = [] ∨ (∃ r, s.script = .engine :: r) ∨ ∃ r, s.script = .wait :: r)) ∨
   (∃ sc r d, t = { s with script := sc, reads := r, draws := d}) ∨
   (∃ v rest, s.busy = false ∧ s.script = .write (.csr .cmd) v :: rest ∧
     t = { s with script := rest}.accept (commandOf v)) ∨
   (∃ v rest, s.busy = false ∧ s.script = .write (.csr .ilen) v :: rest ∧
     t = { s with script := rest, ilen := v % 2 ^ s.cfg.lenw}) ∨
   (∃ k v rest, s.busy = false ∧ s.script = .write (.ibuf k) v :: rest ∧
     t = { s with script := rest, ibuf := s.ibuf.set k (BitVec.ofNat 8 v)}) ∨
   (∃ v rest, s.busy = false ∧ s.script = .run v :: rest ∧ exec (commandOf v) { s with
     script := .wait :: rest} = .next t) ∨
   (∃ rest, s.script = .reset :: rest ∧ t = { s with script := rest}.resetInput) := by
  simp only [step, fetch] at h
  cases hs : s.script with
  | nil =>
    simp only [hs] at h
    by_cases hb : s.busy = true
    · refine .inl ⟨hb, s.script, ?_, .inl rfl⟩
      rw [← h]
    · rw [engineStep_idle (by simpa using hb)] at h; cases h; exact .inr (.inl ⟨_, _, _, rfl⟩)
  | cons x rest =>
    simp only [hs] at h
    cases x with
    | read p =>
      simp only [hostRead] at h
      split at h
      · split at h <;> cases h <;> exact .inr (.inl ⟨_, _, _, rfl⟩)
      · cases h
    | write p v =>
      simp only [hostWrite] at h
      split at h
      · split at h
        · cases h; exact .inr (.inl ⟨_, _, _, rfl⟩)
        · rename_i hb
          rw [Bool.not_eq_true] at hb
          split at h
          · cases h; exact .inr (.inr (.inl ⟨v, rest, hb, rfl, rfl⟩))
          · cases h; exact .inr (.inl ⟨_, _, _, rfl⟩)
          · cases h; exact .inr (.inr (.inr (.inl ⟨v, rest, hb, rfl, rfl⟩)))
          · cases h; exact .inr (.inl ⟨_, _, _, rfl⟩)
          · cases h; exact .inr (.inr (.inr (.inr (.inl ⟨_, v, rest, hb, rfl, rfl⟩))))
          · cases h; exact .inr (.inl ⟨_, _, _, rfl⟩)
          · cases h; exact .inr (.inl ⟨_, _, _, rfl⟩)
      · cases h
    | run v =>
      dsimp only at h
      by_cases hb : s.busy = true
      · rw [if_pos hb] at h; cases h
        exact .inr (.inl ⟨_, _, _, rfl⟩)
      · rw [if_neg hb] at h
        exact .inr (.inr (.inr (.inr (.inr (.inl ⟨v, rest, by simpa using hb, rfl, h⟩)))))
    | wait =>
      dsimp only at h
      split_ifs at h with h1 h2
      · refine .inl ⟨h1, s.script, ?_, .inr (.inr ⟨rest, rfl⟩)⟩
        rw [← h]
      · simp only [hostRead] at h
        split at h
        · split at h <;> cases h <;> exact .inr (.inl ⟨_, _, _, rfl⟩)
        · cases h
      · cases h; exact .inr (.inl ⟨_, _, _, rfl⟩)
    | reset => exact .inr (.inr (.inr (.inr (.inr (.inr ⟨rest, rfl, (Host.Outcome.next.inj h).symm⟩)))))
    | engine =>
      dsimp only at h
      by_cases hb : s.busy = true
      · exact .inl ⟨hb, rest, h, .inr (.inl ⟨rest, rfl⟩)⟩
      · rw [engineStep_idle (by simpa using hb)] at h; cases h; exact .inr (.inl ⟨_, _, _, rfl⟩)

/-- A run begins with a step. -/
theorem core_run_succ {a u : State} (h : step a = .next u) (k : Nat) :
    Sys2Proof.core.run (k+1) a = Sys2Proof.core.run k u := by
  have : Sys2Proof.core.step a = .next u := h
  simp only [Host.Core.run, this]

/-- Two runs, one after the other. -/
theorem core_run_add (a b : Nat) (s t : State) (h : Sys2Proof.core.run a s = .next t) :
    Sys2Proof.core.run (a+b) s = Sys2Proof.core.run b t := by
  induction a generalizing s with
  | zero => cases h; rw [Nat.zero_add]
  | succ a ih =>
    rw [Nat.succ_add]
    simp only [Host.Core.run] at h ⊢
    split at h
    · exact ih _ h
    · cases h
    · cases h

/-- The turns of an LD line (R77). -/
theorem loadTurns_run (bs : List Byte) : ∀ (a : Nat) (s : State) (rest : List Turn), s.busy = false →
    a + bs.length ≤ s.cfg.ibufSize →
   ∃ m : Memory, Sys2Proof.core.run bs.length { s with script := loadTurns a bs ++ rest} = .next { s with
     script := rest, ibuf := m} ∧
    (∀ k < bs.length, m.get (a+k) = bs[k]?) ∧ ∀ k, k < a ∨ a + bs.length ≤ k → m.get k = s.ibuf.get k := by
  induction bs with
  | nil => intro a s rest hb _; exact ⟨s.ibuf, rfl, by simp, fun _ _ => rfl⟩
  | cons b bs ih =>
    intro a s rest hb hl
    simp only [List.length_cons] at hl
    obtain ⟨m, h1, h2, h3⟩ := ih (a+1) { s with ibuf := s.ibuf.set a b} rest hb (by simpa using by omega)
    refine ⟨m, ?_, fun k hk => ?_, fun k hk => ?_⟩
    · have : step { s with script := loadTurns a (b :: bs) ++ rest} = .next { s with
        ibuf := s.ibuf.set a b, script := loadTurns (a+1) bs ++ rest} := by
        have : a < s.cfg.ibufSize := by omega
        simp [step, fetch, loadTurns, hostWrite, Port.inRange, hb, this]
      rw [List.length_cons, core_run_succ this]; exact h1
    · cases k with
      | zero => simp; rw [h3 a (by omega)]; simp
      | succ k =>
        have := h2 k (by simpa using hk)
        rw [List.getElem?_cons_succ, ← this]; congr 1; omega
    · simp only [List.length_cons] at hk
      rw [h3 k (by omega)]; exact Memory.get_set_other _ _ (by omega)

end Sys2Proof.Machine
end

