-- ==== Sys2Proof/Laws/PerInstr.lean ====
section
/-! SUPPORT. One family of statements per command: its row of spec/opcode_table.json (30_encoding.md R72). -/

/-- The row of the table: the match word and the mask. -/
def Sys2Proof.Laws.OpcodeRow.row : Sys2Proof.Instr → BitVec 8 × BitVec 8
  | .b64enc => (0x00#8, 0x03#8)
  | .b64dec => (0x01#8, 0x03#8)
  | .rc4ksa => (0x02#8, 0x03#8)
  | .rc4prga => (0x03#8, 0x03#8)

/-- A word is the command's exactly when it matches the command's row; the encoder writes the row's match word. -/
def Sys2Proof.Laws.OpcodeRow.Statement (i : Sys2Proof.Instr) : Prop :=
  i.wf = true
    ∧ (∀ v : BitVec 8, Sys2Proof.decode v = i ↔
      v &&& (Sys2Proof.Laws.OpcodeRow.row i).2 = (Sys2Proof.Laws.OpcodeRow.row i).1)
    ∧ Sys2Proof.encode i = (Sys2Proof.Laws.OpcodeRow.row i).1

theorem Sys2Proof.Laws.OpcodeRow.b64enc : Sys2Proof.Laws.OpcodeRow.Statement .b64enc :=
  ⟨rfl, by decide, rfl⟩

theorem Sys2Proof.Laws.OpcodeRow.b64dec : Sys2Proof.Laws.OpcodeRow.Statement .b64dec :=
  ⟨rfl, by decide, rfl⟩

theorem Sys2Proof.Laws.OpcodeRow.rc4ksa : Sys2Proof.Laws.OpcodeRow.Statement .rc4ksa :=
  ⟨rfl, by decide, rfl⟩

theorem Sys2Proof.Laws.OpcodeRow.rc4prga : Sys2Proof.Laws.OpcodeRow.Statement .rc4prga :=
  ⟨rfl, by decide, rfl⟩
end

