-- ==== Sys2Proof/Tests/Slice0.lean ====
section
/-! SUPPORT. The model's own tests: decoding, the checks of WellFormed on ill-formed terms, one or two single steps per
command with results from the spec's tables, and for every statement with hypotheses a state that meets them. -/

namespace Sys2Proof.Machine

/-! ## Helpers -/

/-- The next state of an outcome, if there is one. -/
def after : Result → Option State
  | .next t => some t
  | .fault _ => none
  | .refused _ => none

/-- Octets as the contents of a RAM, from an index on. -/
def cellsFrom : Nat → List Byte → Memory
  | _, [] => []
  | a, b :: bs => (a, b) :: cellsFrom (a + 1) bs

/-- The block after reset with an input loaded. -/
def loaded (octets : List Byte) : State := { State.reset with ilen := octets.length, ibuf := cellsFrom 0 octets }

/-- A running command: BUSY, the sub-phase and the counter. -/
def State.running (s : State) (i : Instr) (p : Sub) (n : Nat) : State :=
  { s with op := i, busy := true, sub := p, cnt := n }

/-- The identity S-box (R133). -/
def identityBox : Memory := cellsFrom 0 ((List.range 256).map (BitVec.ofNat 8))

/-- The S-box after RC4KSA with the key "Key" (95_test_vectors.md section 4), rows 0x00 to 0x30. -/
def keyBoxLow : List Byte :=
  [0x4B, 0x33, 0x84, 0x9D, 0xC0, 0xC8, 0x1D, 0xA8, 0x4A, 0xF3, 0x83, 0xE4, 0x12, 0x70, 0x82, 0x90]
  ++ [0x5B, 0x8F, 0xEC, 0x22, 0x29, 0xB9, 0xCC, 0x5C, 0xBF, 0xD8, 0xBA, 0x0E, 0x6E, 0x4D, 0x08, 0x23]
  ++ [0xBC, 0x1B, 0x67, 0x89, 0xB6, 0x40, 0x3B, 0x69, 0xD7, 0xF7, 0xEE, 0x7E, 0x8A, 0x1A, 0xE3, 0x37]
  ++ [0x15, 0x54, 0x68, 0x4E, 0x87, 0x71, 0xFF, 0xAC, 0x38, 0x59, 0xBB, 0x1C, 0x3E, 0x20, 0x2D, 0x41]

/-- The same table, row 0x80. -/
def keyBoxRow80 : List Byte :=
  [0xB7, 0xEB, 0x36, 0x62, 0x99, 0x79, 0x7B, 0x26, 0x28, 0xB4, 0xB3, 0x8B, 0xCB, 0x46, 0x05, 0x18]

/-! ## The command word (R70, R72): words written out bit by bit -/

theorem test_decode_b64enc : decode 0b00000000#8 = .b64enc := by decide
theorem test_decode_b64dec : decode 0b00000001#8 = .b64dec := by decide
theorem test_decode_rc4ksa : decode 0b00000010#8 = .rc4ksa := by decide
theorem test_decode_rc4prga : decode 0b00000011#8 = .rc4prga := by decide

/-- Bits 7:2 are ignored (R70); program P3 uses 0xFC. -/
theorem test_decode_reserved_bits :
    [decode 0b11111100#8, decode 0b10000001#8, decode 0b01010110#8, decode 0b11111111#8]
      = [.b64enc, .b64dec, .rc4ksa, .rc4prga] := by decide

/-- A value wider than 8 bits is truncated (R70). -/
theorem test_command_truncated : commandOf 0x102 = .rc4ksa := by decide

theorem test_decode_table_words :
    [decodeTableWord 8 0, decodeTableWord 8 1, decodeTableWord 8 2, decodeTableWord 8 3]
      = [some .b64enc, some .b64dec, some .rc4ksa, some .rc4prga] := by decide

/-- The decoder rejects a list of bytes only when no command word is there. -/
theorem test_decode_no_bytes : (match decodeBytes [] with | .error e => some e | .ok _ => none) = some .noCommandWord := by
  decide

/-! ## WellFormed: one ill-formed term for each check -/

theorem test_default_config_wf : defaultConfig.wf = true := by decide +kernel

/-- `LENW = 2` (R6: at least 3). -/
theorem test_wf_refuses_short_lenw : Config.wf { defaultConfig with lenw := 2 } = false := by decide +kernel

/-- 0x7F is not printable (R6). -/
theorem test_wf_refuses_unprintable :
    Config.alphabetPrintable { defaultConfig with alphabet := defaultAlphabet.set 0 0x7F#8 } = false := by
  decide +kernel

/-- `B` twice (R6). -/
theorem test_wf_refuses_repeat :
    Config.alphabetDistinct { defaultConfig with alphabet := defaultAlphabet.set 0 0x42#8 } = false := by
  decide +kernel

/-- `=` in the alphabet (R6, R38). -/
theorem test_wf_refuses_pad :
    Config.alphabetNoPad { defaultConfig with alphabet := defaultAlphabet.set 0 0x3D#8 } = false := by
  decide +kernel

/-- Index 2 must be `C` (R36). -/
theorem test_wf_refuses_unpinned :
    Config.alphabetPinned { defaultConfig with alphabet := defaultAlphabet.set 2 0x2D#8 } = false := by
  decide +kernel

/-- A word with a reserved bit set is not canonical (R70). -/
theorem test_canonical_refuses_reserved : canonicalWord 0b00000100#8 = false := by decide

/-! ## Reset -/

theorem test_reset_memories_wf : State.reset.ibuf.wf ∧ State.reset.obuf.wf ∧ State.reset.sbox.wf := by decide

theorem test_reset_status : State.reset.status = 0x00#8 := by decide

/-! ## Single steps, with results from 95_test_vectors.md -/

/-- "M" is `TQ==`: the four octets 54 51 3D 3D (section 3.1). -/
theorem test_b64enc_one_byte :
    (after (step ((loaded [0x4D]).withFetchWord 8 0))).map (fun t => (t.olen, t.obuf)) =
      some (4, cellsFrom 0 [0x54, 0x51, 0x3D, 0x3D]) := by decide +kernel

/-- "Man" is `TWFu`, with `ACC = 0x4D616E` (section 3.1); the step is the engine's. -/
theorem test_b64enc_group :
    (after (engineStep ((loaded [0x4D, 0x61, 0x6E]).running .b64enc .run 0))).map (fun t => (t.acc, t.obuf, t.cnt)) =
      some (0x4D616E, cellsFrom 0 [0x54, 0x57, 0x46, 0x75], 1) := by decide +kernel

/-- `TQ==TWFu` decodes to 4D 00 00 4D 61 6E (section 3.2). -/
theorem test_b64dec_inner_pad :
    (after (exec .b64dec (loaded [0x54, 0x51, 0x3D, 0x3D, 0x54, 0x57, 0x46, 0x75]))).map
      (fun t => (t.err, t.olen, t.obuf)) =
      some (.none, 6, cellsFrom 0 [0x4D, 0x00, 0x00, 0x4D, 0x61, 0x6E]) := by decide +kernel

/-- `TW!u` is InvalidCharacter, STATUS 0x1A (section 3.3). -/
theorem test_b64dec_invalid_character :
    (after (exec .b64dec (loaded [0x54, 0x57, 0x21, 0x75]))).map (fun t => (t.status, t.olen)) = some (0x1A#8, 0) := by
  decide +kernel

/-- `TW!` is InvalidLength and not InvalidCharacter, STATUS 0x16 (section 3.3). -/
theorem test_b64dec_invalid_length :
    (after (exec .b64dec (loaded [0x54, 0x57, 0x21]))).map (fun t => (t.status, t.olen)) = some (0x16#8, 0) := by
  decide +kernel

/-- The third mixing step of the key "Key": J goes from 177 to 44, and `S[2] = 44`, `S[44] = 2` (section 2). -/
theorem test_rc4ksa_mixing :
    (after (engineStep { (loaded [0x4B, 0x65, 0x79]).running .rc4ksa .run 2 with j := 177, sbox := identityBox })).map
      (fun t => (t.j, t.sbox.get 2, t.sbox.get 44, t.cnt)) = some (44, some 44, some 2, 3) := by decide +kernel

/-- An empty key is InvalidKey, STATUS 0x2E (section 5.1). -/
theorem test_rc4ksa_empty_key :
    (after (step (State.reset.withFetchWord 8 2))).map (fun t => (t.status, t.olen)) = some (0x2E#8, 0) := by
  decide +kernel

/-- The first byte of the source's vector: I = 1, J = 51, the octet BB (section 2). -/
theorem test_rc4prga_first_byte :
    (after (engineStep { (loaded [0x50]).running .rc4prga .run 0 with
      sbox := cellsFrom 0 keyBoxLow ++ cellsFrom 128 keyBoxRow80 })).map
      (fun t => (t.i, t.j, t.obuf.get 0, t.sbox.get 1, t.sbox.get 51)) =
      some (1, 51, some 0xBB, some 0x4E, some 0x33) := by decide +kernel

/-- Zero bytes of data: no error and nothing written (42_rc4_prga.md R152), STATUS 0x32. -/
theorem test_rc4prga_nothing :
    (after (step (State.reset.withFetchWord 8 3))).map (fun t => (t.status, t.olen, t.obuf)) =
      some (0x32#8, 0, []) := by decide +kernel

/-! ## For every statement with hypotheses, states and operands that meet them -/

/-- A text as a function of the index. -/
def textOf (octets : List Byte) : Nat → Byte := fun k => octets.getD k 0

theorem identityBox_get : ∀ k < 256, identityBox.get k = some (BitVec.ofNat 8 k) := by decide +kernel

theorem identityBox_holds : Holds identityBox id := fun k => by
  rw [identityBox_get _ k.isLt]; simp

theorem identityBox_scheduled : Scheduled identityBox := Scheduled.identity identityBox_get

theorem identityBox_wf : identityBox.wf := by decide +kernel

/-- The block after reset satisfies the invariant, field by field. -/
theorem reset_meets_Inv : Inv State.reset where
  cfg_wf := test_default_config_wf
  ibuf_fits := Memory.fits_nil _
  obuf_fits := Memory.fits_nil _
  sbox_fits := Memory.fits_nil _
  ilen_lt := by decide
  olen_lt := by decide
  nout_lt := by decide
  cnt_lt := by decide
  busy_clear := by decide
  idle_clear := by decide
  err_ok := trivial
  err_empty := by decide
  sequencer_ok := fun h => by cases h
  output_ok := by decide

/-- A block that has just accepted command `i` satisfies the invariant and is BUSY. -/
def accepted (i : Instr) : State := State.reset.accept i

theorem accepted_meets_Inv (i : Instr) : Inv (accepted i) := reset_meets_Inv.accept i

/-- The same with a host turn waiting. -/
def acceptedWith (i : Instr) (turns : List Turn) : State := { accepted i with script := turns }

theorem acceptedWith_meets_Inv (i : Instr) (turns : List Turn) : Inv (acceptedWith i turns) :=
  (accepted_meets_Inv i).host turns [] 0

/-- The block after reset with host turns waiting. -/
def resetWithTurns (turns : List Turn) : State := { State.reset with script := turns }

theorem witness_EncodeDecodeAgree : Instr.wf .rc4ksa = true ∧ canonicalWord 0x03#8 = true := by decide

theorem witness_StepRunsDecodedCommand :
    ∃ (s : State) (v : Nat) (rest : List Turn), s.script = .run v :: rest ∧ s.busy = false :=
  ⟨resetWithTurns [.run 2], 2, [], rfl, rfl⟩

theorem witness_EngineStepsOnlyWhileBusy :
    (∃ s : State, s.script = [] ∧ s.busy = true)
      ∧ (∃ (s : State) (rest : List Turn), s.script = .engine :: rest ∧ s.busy = true)
      ∧ (∃ s : State, s.script = [] ∧ s.busy = false)
      ∧ ∃ (s : State) (rest : List Turn), s.script = .engine :: rest ∧ s.busy = false :=
  ⟨⟨accepted .rc4ksa, rfl, rfl⟩, ⟨acceptedWith .b64dec [.engine], [], rfl, rfl⟩, ⟨State.reset, rfl, rfl⟩,
    ⟨resetWithTurns [.engine, .wait], [.wait], rfl, rfl⟩⟩

theorem witness_CommandWriteAccepted :
    (∃ (s : State) (v : Nat) (rest : List Turn), s.script = .write (.csr .cmd) v :: rest ∧ s.busy = false)
      ∧ (∀ i : Instr, ∃ s : State, s.busy = true ∧ s.done = false ∧ s.op = i)
      ∧ ∃ (s : State) (v : Nat) (rest : List Turn), s.script = .write (.csr .cmd) v :: rest ∧ s.busy = true :=
  ⟨⟨resetWithTurns [.write (.csr .cmd) 0xFC], 0xFC, [], rfl, rfl⟩, fun i => ⟨accepted i, rfl, rfl, rfl⟩,
    ⟨acceptedWith .b64enc [.write (.csr .cmd) 1], 1, [], rfl, rfl⟩⟩

/-- One port for each clause, at the ends of the index ranges. -/
def portsAtTheEnds : List Port :=
  [.csr .cmd, .csr .status, .csr .ilen, .csr .olen, .ibuf 0, .ibuf 4095, .obuf 0, .obuf 8191, .sbox 0, .sbox 255]

theorem witness_HostWriteWhileIdle :
    ∀ p ∈ portsAtTheEnds, ∃ (s : State) (v : Nat) (rest : List Turn),
      s.script = .write p v :: rest ∧ s.busy = false ∧ p.inRange s.cfg = true := fun p hp =>
  ⟨resetWithTurns [.write p 0x1FF], 0x1FF, [], rfl, rfl, by revert p; decide +kernel⟩

theorem witness_HostAccessWhileBusy :
    (∃ (s : State) (rest : List Turn), Inv s ∧ s.busy = true ∧ s.script = .read (.csr .status) :: rest)
      ∧ (∀ p ∈ portsAtTheEnds, ∃ (s : State) (rest : List Turn),
        Inv s ∧ s.busy = true ∧ s.script = .read p :: rest ∧ p.inRange s.cfg = true)
      ∧ ∀ p ∈ portsAtTheEnds, ∃ (s : State) (v : Nat) (rest : List Turn),
        Inv s ∧ s.busy = true ∧ s.script = .write p v :: rest ∧ p.inRange s.cfg = true :=
  ⟨⟨acceptedWith .b64enc [.read (.csr .status)], [], acceptedWith_meets_Inv .., rfl, rfl⟩,
    fun p hp => ⟨acceptedWith .rc4prga [.read p], [], acceptedWith_meets_Inv .., rfl, rfl, by
      revert p; decide +kernel⟩,
    fun p hp => ⟨acceptedWith .rc4prga [.write p 7], 7, [], acceptedWith_meets_Inv .., rfl, rfl, by
      revert p; decide +kernel⟩⟩

theorem witness_HostReadWhileIdle :
    (∀ p ∈ portsAtTheEnds, ∃ (s : State) (rest : List Turn),
      s.script = .read p :: rest ∧ s.busy = false ∧ p.inRange s.cfg = true)
      ∧ ∃ s : State, s.busy = false ∧ s.ibuf.get 0 = some 9#8 ∧ s.ibuf.get 1 = none
        ∧ (0 < s.olen ∧ s.obuf.get 0 = some 8#8) ∧ (s.olen ≤ 1 ∧ s.obuf.get 1 = some 7#8) ∧ s.obuf.get 2 = none
        ∧ s.sbox.get 255 = some 6#8 ∧ s.sbox.get 0 = none :=
  ⟨fun p hp => ⟨resetWithTurns [.read p], [], rfl, rfl, by revert p; decide +kernel⟩,
    ⟨{ State.reset with olen := 1, ibuf := [(0, 9#8)], obuf := [(0, 8#8), (1, 7#8)], sbox := [(255, 6#8)] }, by
      decide⟩⟩

theorem witness_ResetInputValues : ∃ (s : State) (rest : List Turn), s.script = .reset :: rest ∧ s.busy = true :=
  ⟨acceptedWith .rc4ksa [.reset, .wait], [.wait], rfl, rfl⟩

theorem witness_ReverseTableInvertsAlphabet :
    defaultConfig.wf = true ∧ rev defaultConfig 0x2F#8 = some 63#6 ∧ rev defaultConfig 0x3D#8 = none := by
  decide +kernel

theorem witness_CharacterClassification : ∃ (c : Config) (ch : Byte), c.wf = true ∧ 0x80 ≤ ch.toNat :=
  ⟨defaultConfig, 0x80#8, test_default_config_wf, by decide⟩

theorem witness_EncodeWritesTheText :
    ∀ octets ∈ [[], [0x4D], [0x4D, 0x61], [0x4D, 0x61, 0x6E], [0x4D, 0x61, 0x6E, 0x4D]],
      (loaded octets).busy = false
        ∧ ∀ k < (loaded octets).ilen, (loaded octets).ibuf.get k = some (textOf octets k) := by
  decide +kernel

theorem witness_EncodePaddingLaw :
    (loaded [0x4D]).busy = false ∧ (loaded [0x4D]).cfg.wf = true ∧ (loaded [0x4D]).ilen ≤ (loaded [0x4D]).cfg.imax := by
  decide +kernel

theorem witness_EncodeFrame : ∃ s : State, s.busy = false ∧ 4 * ((s.ilen + 2) / 3) ≤ 0 := ⟨State.reset, rfl, by decide⟩

theorem witness_EncodeGroupStep :
    ∀ octets ∈ [[0x4D], [0x4D, 0x61], [0x4D, 0x61, 0x6E]],
      ∃ s : State, s.busy = true ∧ s.done = false ∧ s.op = .b64enc ∧ s.sub = .run ∧ s.cnt < (s.ilen + 2) / 3
        ∧ ∀ k < s.ilen, s.ibuf.get k = some (textOf octets k) := fun octets h =>
  ⟨(loaded octets).running .b64enc .run 0, rfl, rfl, rfl, rfl, by revert octets; decide, by
    revert octets; decide⟩

theorem witness_DecodeInvalidLength :
    (∃ s : State, s.busy = false ∧ s.ilen = 0) ∧ (∃ s : State, s.busy = false ∧ s.ilen % 4 ≠ 0)
      ∧ ∃ s : State, s.busy = true ∧ s.done = false ∧ s.op = .b64dec ∧ s.sub = .check
        ∧ (s.ilen = 0 ∨ s.ilen % 4 ≠ 0) :=
  ⟨⟨State.reset, rfl, rfl⟩, ⟨loaded [0x41, 0x42, 0x43, 0x44, 0x45], rfl, by decide⟩,
    ⟨accepted .b64dec, rfl, rfl, rfl, rfl, .inl rfl⟩⟩

/-- `TW!u`, `TQ==` and `TWFu` as octets (95_test_vectors.md section 3). -/
def textBad : List Byte := [0x54, 0x57, 0x21, 0x75]
/-- `TQ==`. -/
def textTwoPads : List Byte := [0x54, 0x51, 0x3D, 0x3D]
/-- `TWFu`. -/
def textNoPad : List Byte := [0x54, 0x57, 0x46, 0x75]

theorem witness_DecodeInvalidCharacter :
    ∀ octets ∈ [textBad, textTwoPads],
      (loaded octets).busy = false ∧ (loaded octets).ilen ≠ 0 ∧ (loaded octets).ilen % 4 = 0
        ∧ (∀ k < (loaded octets).ilen, (loaded octets).ibuf.get k = some (textOf octets k))
        ∧ ((∃ k < (loaded octets).ilen, textOf octets k ≠ pad ∧ ∀ n : Sextet, alpha defaultConfig n ≠ textOf octets k)
          ↔ octets = textBad)
        ∧ ((∀ k < (loaded octets).ilen,
            textOf octets k = pad ∨ ∃ n : Sextet, alpha defaultConfig n = textOf octets k)
          ↔ octets = textTwoPads) := by
  decide +kernel

theorem witness_DecodeWritesTheBytes :
    ∀ octets ∈ [textTwoPads, textNoPad],
      (loaded octets).busy = false ∧ (loaded octets).ilen ≠ 0 ∧ (loaded octets).ilen % 4 = 0
        ∧ (∀ k < (loaded octets).ilen, (loaded octets).ibuf.get k = some (textOf octets k))
        ∧ ∀ k < (loaded octets).ilen, (sextetValue (loaded octets).cfg (textOf octets k)).isSome := by
  decide +kernel

theorem witness_DecodeFrame :
    (∃ s : State, s.busy = false ∧ s.ilen = 0) ∧ (∃ s : State, s.busy = false ∧ s.ilen % 4 ≠ 0)
      ∧ ∃ s : State, s.busy = false ∧ s.ilen ≠ 0 ∧ s.ilen % 4 = 0 :=
  ⟨⟨State.reset, rfl, rfl⟩, ⟨loaded [0x41], rfl, by decide⟩, ⟨loaded textNoPad, rfl, by decide, rfl⟩⟩

/-- The second text is for the step clause of `DecodeInvalidCharacter`. -/
theorem witness_DecodeGroupStep :
    ∀ octets ∈ [textTwoPads, textBad], ∃ s : State, s.busy = true ∧ s.done = false ∧ s.op = .b64dec ∧ s.sub = .run
      ∧ s.cnt < s.ilen / 4 ∧ (∀ k < s.ilen, s.ibuf.get k = some (textOf octets k))
      ∧ ((∃ a b c d : Sextet, sextetValue s.cfg (textOf octets (4 * s.cnt)) = some a
          ∧ sextetValue s.cfg (textOf octets (4 * s.cnt + 1)) = some b
          ∧ sextetValue s.cfg (textOf octets (4 * s.cnt + 2)) = some c
          ∧ sextetValue s.cfg (textOf octets (4 * s.cnt + 3)) = some d)
        ∨ ∃ n < 4, sextetValue s.cfg (textOf octets (4 * s.cnt + n)) = none) := by
  intro octets h
  refine ⟨(loaded octets).running .b64dec .run 0, rfl, rfl, rfl, rfl, by revert octets; decide, by
    revert octets; decide, ?_⟩
  rcases List.mem_pair.mp h with rfl | rfl
  · exact .inl ⟨19, 16, 0, 0, by decide +kernel⟩
  · exact .inr ⟨2, by decide +kernel⟩

theorem witness_DecodeLengthStep :
    ∀ octets ∈ [textTwoPads, textNoPad], ∃ s : State, s.busy = true ∧ s.done = false ∧ s.op = .b64dec ∧ s.sub = .check
      ∧ s.ilen ≠ 0 ∧ s.ilen % 4 = 0 ∧ ∀ k < s.ilen, s.ibuf.get k = some (textOf octets k) := fun octets h =>
  ⟨(loaded octets).running .b64dec .check 0, rfl, rfl, rfl, rfl, by revert octets; decide, by
    revert octets; decide, by revert octets; decide⟩

theorem witness_DecodeInvertsEncode_empty :
    ∃ s t u : State, s.busy = false ∧ s.ilen = 0 ∧ exec .b64enc s = .next t ∧ u.busy = false ∧ u.ilen = t.olen :=
  ⟨State.reset, _, State.reset, rfl, rfl, rfl, rfl, rfl⟩

theorem witness_DecodeInvertsEncode :
    ∃ (s : State) (b : Nat → Byte), s.busy = false ∧ s.cfg.wf = true ∧ 1 ≤ s.ilen
      ∧ 4 * ((s.ilen + 2) / 3) ≤ s.cfg.imax ∧ (∀ k < s.ilen, s.ibuf.get k = some (b k))
      ∧ ∃ t, exec .b64enc s = .next t
        ∧ ∃ u : State, u.busy = false ∧ u.cfg = s.cfg ∧ u.ilen = t.olen
          ∧ ∀ k < t.olen, u.ibuf.get k = t.obuf.get k :=
  ⟨loaded [0x4D], fun _ => 0x4D, rfl, test_default_config_wf, by decide, by decide +kernel, by decide, _, rfl,
    loaded textTwoPads, rfl, rfl, by decide +kernel, by decide +kernel⟩

theorem witness_EmptyKeyRejected : ∃ s : State, s.busy = false ∧ s.ilen = 0 := ⟨State.reset, rfl, rfl⟩

theorem witness_KeyScheduleComputesThePermutation :
    ∃ (s : State) (key : Nat → Byte), s.busy = false ∧ 0 < s.ilen ∧ ∀ k < min s.ilen 256, s.ibuf.get k = some (key k) :=
  ⟨loaded [0x4B], fun _ => 0x4B, rfl, by decide, by decide⟩

theorem witness_KeyBytesUsedCyclically :
    ∃ (s u : State) (key key' : Nat → Byte), s.busy = false ∧ u.busy = false ∧ 0 < s.ilen ∧ 0 < u.ilen
      ∧ s.ilen ≠ u.ilen ∧ (∀ k < min s.ilen 256, s.ibuf.get k = some (key k))
      ∧ (∀ k < min u.ilen 256, u.ibuf.get k = some (key' k)) ∧ ∀ n < 256, key (n % s.ilen) = key' (n % u.ilen) :=
  ⟨loaded [0x4B], loaded [0x4B, 0x4B], fun _ => 0x4B, fun _ => 0x4B, rfl, rfl, by decide, by decide, by decide, by
    decide, by decide, fun _ _ => rfl⟩

theorem witness_KeyScheduleFrame : ∃ s : State, s.busy = false ∧ 0 < s.ilen := ⟨loaded [0x4B], rfl, by decide⟩

theorem witness_KeyFillSteps :
    (∃ s : State, s.busy = true ∧ s.done = false ∧ s.op = .rc4ksa ∧ s.sub = .check ∧ 0 < s.ilen)
      ∧ (∃ s : State, s.busy = true ∧ s.done = false ∧ s.op = .rc4ksa ∧ s.sub = .check ∧ s.ilen = 0)
      ∧ (∃ s : State, s.busy = true ∧ s.done = false ∧ s.op = .rc4ksa ∧ s.sub = .fill ∧ s.cnt < 256 ∧ s.cnt = 255)
      ∧ (∃ s : State, s.busy = true ∧ s.done = false ∧ s.op = .rc4ksa ∧ s.sub = .fill ∧ s.cnt = 256)
      ∧ ∃ s : State, s.busy = true ∧ s.done = false ∧ s.op = .rc4ksa ∧ s.sub = .fill ∧ s.cnt = 0 :=
  ⟨⟨(loaded [0x4B]).running .rc4ksa .check 0, by decide⟩, ⟨accepted .rc4ksa, by decide⟩,
    ⟨(loaded [0x4B]).running .rc4ksa .fill 255, by decide⟩, ⟨(loaded [0x4B]).running .rc4ksa .fill 256, by decide⟩,
    ⟨(loaded [0x4B]).running .rc4ksa .fill 0, by decide⟩⟩

theorem witness_KeyMixStep :
    ∃ (s : State) (perm : Byte → Byte) (kb : Byte), s.busy = true ∧ s.done = false ∧ s.op = .rc4ksa ∧ s.sub = .run
      ∧ s.cnt < 256 ∧ Holds s.sbox perm ∧ s.ibuf.get (s.cnt % s.ilen) = some kb :=
  ⟨{ (loaded [0x4B, 0x65]).running .rc4ksa .run 255 with sbox := identityBox }, id, 0x65#8, rfl, rfl, rfl, rfl, by
    decide, identityBox_holds, by decide⟩

/-- A block with a key schedule and data loaded. -/
def scheduled (octets : List Byte) : State := { loaded octets with sbox := identityBox }

theorem witness_TransformComputesTheKeystream :
    ∀ mode : Bool, ∃ (s : State) (perm : Byte → Byte) (data : Nat → Byte) (start : CipherState), s.busy = false
      ∧ s.cfg.persistCursors = mode ∧ Holds s.sbox perm ∧ (∀ p < s.ilen, s.ibuf.get p = some (data p))
      ∧ start = (if s.cfg.persistCursors then ⟨perm, s.i, s.j⟩ else ⟨perm, 0#8, 0#8⟩) := fun mode =>
  ⟨{ scheduled [0x50] with cfg := { defaultConfig with persistCursors := mode } }, id, fun _ => 0x50, _, rfl, rfl,
    identityBox_holds, by
      intro p hp
      obtain rfl : p = 0 := by have : p < 1 := hp; omega
      rfl, rfl⟩

theorem witness_TransformFrame :
    ∃ s : State, s.busy = false ∧ s.sbox.wf ∧ s.cfg.persistCursors = false ∧ 0 < s.ilen :=
  ⟨scheduled [0x50], rfl, identityBox_wf, rfl, by decide⟩

theorem witness_StreamByteStep :
    ∃ (s : State) (perm : Byte → Byte) (d : Byte), s.busy = true ∧ s.done = false ∧ s.op = .rc4prga ∧ s.sub = .run
      ∧ s.cnt < s.ilen ∧ Holds s.sbox perm ∧ s.ibuf.get s.cnt = some d :=
  ⟨(scheduled [0x50]).running .rc4prga .run 0, id, 0x50#8, rfl, rfl, rfl, rfl, by decide, identityBox_holds, by decide⟩

theorem witness_TransformOfNothing : ∃ s : State, s.busy = false ∧ s.ilen = 0 := ⟨State.reset, rfl, rfl⟩

theorem witness_KeystreamIgnoresData :
    ∃ (s u : State) (data data' : Nat → Byte), s.busy = false ∧ u.busy = false ∧ Scheduled s.sbox ∧ u.cfg = s.cfg
      ∧ u.ilen = s.ilen ∧ u.i = s.i ∧ u.j = s.j ∧ (∀ k < 256, u.sbox.get k = s.sbox.get k)
      ∧ (∀ p < s.ilen, s.ibuf.get p = some (data p)) ∧ (∀ p < s.ilen, u.ibuf.get p = some (data' p))
      ∧ ∃ p < s.ilen, data p = 0#8 :=
  ⟨scheduled [0x00], scheduled [0x50], fun _ => 0x00, fun _ => 0x50, rfl, rfl, identityBox_scheduled, rfl, rfl, rfl,
    rfl, fun _ _ => rfl, by decide, by decide, 0, by decide⟩

theorem witness_TransformIsItsOwnInverse :
    ∃ (s : State) (key data : Nat → Byte) (n : Nat), s.busy = false ∧ 0 < s.ilen
      ∧ (∀ k < min s.ilen 256, s.ibuf.get k = some (key k))
      ∧ ∃ t, exec .rc4ksa s = .next t
        ∧ ∃ u : State, u.busy = false ∧ u.cfg = s.cfg ∧ u.sbox = t.sbox ∧ u.i = t.i ∧ u.j = t.j ∧ u.ilen = n
          ∧ (∀ p < n, u.ibuf.get p = some (data p))
          ∧ ∃ c, exec .rc4prga u = .next c
            ∧ ∃ v : State, v.busy = false ∧ v.cfg = s.cfg ∧ v.ilen = s.ilen
              ∧ (∀ k < min s.ilen 256, v.ibuf.get k = some (key k))
              ∧ ∃ w, exec .rc4ksa v = .next w
                ∧ ∃ x : State, x.busy = false ∧ x.cfg = s.cfg ∧ x.sbox = w.sbox ∧ x.i = w.i ∧ x.j = w.j
                  ∧ x.ilen = c.olen ∧ ∀ p < n, x.ibuf.get p = c.obuf.get p := by
  have key : ∀ t : State, t.busy = false → t.ilen = 1 → ∃ r, exec .rc4ksa t = .next r := fun t hb hl => by
    simp only [exec, execRc4ksa, hb, hl, Bool.false_eq_true, if_false, one_ne_zero]; exact ⟨_, rfl⟩
  have prga : ∀ t : State, t.busy = false → ∃ r, exec .rc4prga t = .next r := fun t hb => by
    simp only [exec, execRc4prga, hb, Bool.false_eq_true, if_false]; exact ⟨_, rfl⟩
  obtain ⟨t, ht⟩ := key (loaded [0x4B]) rfl rfl
  obtain ⟨c, hc⟩ := prga { loaded [0x50] with sbox := t.sbox, i := t.i, j := t.j } rfl
  exact ⟨loaded [0x4B], fun _ => 0x4B, fun _ => 0x50, 1, rfl, by decide, by decide, t, ht,
    { loaded [0x50] with sbox := t.sbox, i := t.i, j := t.j }, rfl, rfl, rfl, rfl, rfl, rfl,
    by intro p hp; obtain rfl : p = 0 := by omega
       rfl, c, hc, loaded [0x4B], rfl, rfl, rfl, by decide, t, ht,
    { State.reset with sbox := t.sbox, i := t.i, j := t.j, ilen := c.olen, ibuf := c.obuf }, rfl, rfl, rfl, rfl, rfl,
    rfl, fun _ _ => rfl⟩

theorem witness_PersistentCursorsContinue :
    ∃ (s : State) (data : Nat → Byte) (a b : Nat), s.busy = false ∧ s.cfg.persistCursors = true ∧ s.ilen = a + b
      ∧ Scheduled s.sbox ∧ (∀ p < a + b, s.ibuf.get p = some (data p))
      ∧ ∃ t t1, exec .rc4prga s = .next t ∧ exec .rc4prga { s with ilen := a } = .next t1
        ∧ ∃ u : State, u.busy = false ∧ u.cfg = s.cfg ∧ u.sbox = t1.sbox ∧ u.i = t1.i ∧ u.j = t1.j ∧ u.ilen = b
          ∧ ∀ p < b, u.ibuf.get p = some (data (a + p)) := by
  have prga : ∀ t : State, t.busy = false → ∃ r, exec .rc4prga t = .next r := fun t hb => by
    simp only [exec, execRc4prga, hb, Bool.false_eq_true, if_false]; exact ⟨_, rfl⟩
  let s : State := { scheduled [0x50, 0x51] with cfg := { defaultConfig with persistCursors := true } }
  obtain ⟨t, ht⟩ := prga s rfl
  obtain ⟨t1, h1⟩ := prga { s with ilen := 1 } rfl
  refine ⟨s, textOf [0x50, 0x51], 1, 1, rfl, rfl, rfl, identityBox_scheduled, ?_, t, t1, ht, h1,
    { loaded [0x51] with cfg := s.cfg, sbox := t1.sbox, i := t1.i, j := t1.j }, rfl, rfl, rfl, rfl, rfl, rfl, ?_⟩
  · intro p hp
    have : p = 0 ∨ p = 1 := by omega
    rcases this with rfl | rfl <;> rfl
  · intro p hp
    obtain rfl : p = 0 := by omega
    rfl

theorem witness_SboxStaysAPermutation :
    (∃ s : State, s.busy = false ∧ 0 < s.ilen)
      ∧ (∃ s t : State, s.busy = true ∧ s.op = .rc4prga ∧ Scheduled s.sbox ∧ engineStep s = .next t)
      ∧ ∃ s : State, s.busy = false ∧ Scheduled s.sbox :=
  ⟨⟨loaded [0x4B], rfl, by decide⟩, ⟨(scheduled [0x50]).running .rc4prga .run 0, byteStep ((scheduled [0x50]).running .rc4prga .run 0), rfl, rfl,
    identityBox_scheduled, rfl⟩, ⟨scheduled [0x50], rfl, identityBox_scheduled⟩⟩

theorem witness_CheckStepsThatPass :
    (∃ s : State, s.busy = true ∧ s.done = false ∧ s.op = .b64enc ∧ s.sub = .check)
      ∧ ∀ mode : Bool, ∃ s : State, s.busy = true ∧ s.done = false ∧ s.op = .rc4prga ∧ s.sub = .check
        ∧ s.cfg.persistCursors = mode :=
  ⟨⟨accepted .b64enc, rfl, rfl, rfl, rfl⟩, fun mode =>
    ⟨{ accepted .rc4prga with cfg := { defaultConfig with persistCursors := mode } }, rfl, rfl, rfl, rfl, rfl⟩⟩

theorem witness_CompletionSteps :
    ∀ i : Instr, ∃ s : State, s.busy = true ∧ s.done = false ∧ s.sub = .run ∧ s.op = i
      ∧ (i = .b64enc → s.cnt = (s.ilen + 2) / 3) ∧ (i = .b64dec → s.cnt = s.ilen / 4) ∧ (i = .rc4ksa → s.cnt = 256)
      ∧ (i = .rc4prga → s.cnt = s.ilen) := fun i =>
  ⟨State.reset.running i .run (if i = .rc4ksa then 256 else 0), rfl, rfl, rfl, rfl, by cases i <;> decide⟩

theorem witness_ErrorWritesOnlyItsReport :
    ∃ s t : State, Inv s ∧ s.busy = true ∧ engineStep s = .next t ∧ t.err ≠ .none :=
  ⟨accepted .rc4ksa, (accepted .rc4ksa).raise .invalidKey, accepted_meets_Inv _, rfl, rfl, by decide⟩

theorem witness_EncodeStepsAgree : ∃ s : State, s.busy = false ∧ 0 < (s.ilen + 2) / 3 + 2 := ⟨State.reset, rfl, by decide⟩

theorem witness_DecodeStepsAgree :
    (∃ s t : State, s.busy = false ∧ exec .b64dec s = .next t ∧ t.err = .none)
      ∧ ∃ s : State, s.busy = false ∧ (s.ilen = 0 ∨ s.ilen % 4 ≠ 0) :=
  ⟨⟨loaded textTwoPads, _, rfl, rfl, by decide +kernel⟩, ⟨State.reset, rfl, .inl rfl⟩⟩

theorem witness_KeyScheduleStepsAgree :
    (∃ s : State, s.busy = false ∧ 0 < s.ilen) ∧ ∃ s : State, s.busy = false ∧ s.ilen = 0 :=
  ⟨⟨loaded [0x4B], rfl, by decide⟩, ⟨State.reset, rfl, rfl⟩⟩

theorem witness_TransformStepsAgree : ∃ s : State, s.busy = false ∧ 1 < s.ilen + 2 := ⟨loaded [0x50], rfl, by decide⟩

theorem witness_RunIsCommandThenWait : ∃ s : State, s.busy = false := ⟨State.reset, rfl⟩

theorem witness_LoadLineLoadsTheInput :
    ∃ (s : State) (octets : List Byte), s.busy = false ∧ octets.length ≤ s.cfg.imax :=
  ⟨State.reset, textNoPad, rfl, by decide +kernel⟩

theorem witness_InvariantAfterReset : ∃ c : Config, c.wf = true ∧ c.lenw = 3 :=
  ⟨{ defaultConfig with lenw := 3 }, by decide +kernel⟩

theorem witness_StepKeepsInvariant : ∃ s t : State, Inv s ∧ step s = .next t :=
  ⟨accepted .b64enc, (accepted .b64enc).enterRun, accepted_meets_Inv _, rfl⟩

theorem witness_BusyEngineHasARow : ∃ s : State, Inv s ∧ s.busy = true := ⟨accepted .b64dec, accepted_meets_Inv _, rfl⟩

theorem witness_EveryCommandCompletes : ∀ i : Instr, ∃ s : State, Inv s ∧ s.busy = true ∧ s.op = i := fun i =>
  ⟨accepted i, accepted_meets_Inv i, rfl, rfl⟩

theorem witness_IdleOnlyByReset :
    ∃ s t : State, step s = .next t ∧ (∀ rest, s.script ≠ .reset :: rest) ∧ (s.busy = true ∨ s.done = true) :=
  ⟨accepted .b64enc, (accepted .b64enc).enterRun, rfl, fun _ h => (by cases h), .inl rfl⟩

theorem witness_WhatWritesTheFlags :
    (∃ (s t : State) (p : Port) (rest : List Turn), Inv s ∧ step s = .next t ∧ s.script = .read p :: rest)
      ∧ (∃ (s t : State) (p : Port) (v : Nat) (rest : List Turn), Inv s ∧ step s = .next t
        ∧ s.script = .write p v :: rest ∧ p ≠ .csr .cmd)
      ∧ (∃ (s t : State) (v : Nat) (rest : List Turn), Inv s ∧ step s = .next t
        ∧ s.script = .write (.csr .cmd) v :: rest ∧ s.busy = true)
      ∧ (∃ (s t : State) (v : Nat) (rest : List Turn), Inv s ∧ step s = .next t
        ∧ s.script = .write (.csr .cmd) v :: rest ∧ s.busy = false)
      ∧ (∃ (s t : State) (rest : List Turn), Inv s ∧ step s = .next t ∧ s.script = .reset :: rest)
      ∧ (∀ b : Bool, ∃ (s t : State) (v : Nat) (rest : List Turn), Inv s ∧ step s = .next t
        ∧ s.script = .run v :: rest ∧ s.busy = b)
      ∧ (∀ b : Bool, (∃ s t : State, Inv s ∧ step s = .next t ∧ s.script = [] ∧ s.busy = b)
        ∧ (∃ (s t : State) (rest : List Turn), Inv s ∧ step s = .next t ∧ s.script = .wait :: rest ∧ s.busy = b)
        ∧ ∃ (s t : State) (rest : List Turn), Inv s ∧ step s = .next t ∧ s.script = .engine :: rest ∧ s.busy = b)
      ∧ ∃ s t u : State, Inv s ∧ step s = .next t ∧ s.busy = true ∧ engineStep s = .next u :=
  have idle := fun turns => reset_meets_Inv.host turns [] 0
  ⟨⟨resetWithTurns [.read (.csr .olen)], _, _, _, idle _, rfl, rfl⟩,
    ⟨resetWithTurns [.write (.csr .ilen) 5], _, _, _, _, idle _, rfl, rfl, by decide⟩,
    ⟨acceptedWith .b64enc [.write (.csr .cmd) 1], _, _, _, acceptedWith_meets_Inv .., rfl, rfl, rfl⟩,
    ⟨resetWithTurns [.write (.csr .cmd) 1], _, _, _, idle _, rfl, rfl, rfl⟩,
    ⟨resetWithTurns [.reset], _, _, idle _, rfl, rfl⟩,
    fun b => match b with
      | false => ⟨resetWithTurns [.run 2], _, _, _, idle _, rfl, rfl, rfl⟩
      | true => ⟨acceptedWith .b64enc [.run 2], _, _, _, acceptedWith_meets_Inv .., rfl, rfl, rfl⟩,
    fun b => match b with
      | false => ⟨⟨State.reset, _, reset_meets_Inv, rfl, rfl, rfl⟩,
        ⟨resetWithTurns [.wait], _, _, idle _, rfl, rfl, rfl⟩, ⟨resetWithTurns [.engine], _, _, idle _, rfl, rfl, rfl⟩⟩
      | true => ⟨⟨accepted .b64enc, _, accepted_meets_Inv _, rfl, rfl, rfl⟩,
        ⟨acceptedWith .b64enc [.wait], _, _, acceptedWith_meets_Inv .., rfl, rfl, rfl⟩,
        ⟨acceptedWith .b64enc [.engine], _, _, acceptedWith_meets_Inv .., rfl, rfl, rfl⟩⟩,
    ⟨accepted .b64enc, _, _, accepted_meets_Inv _, rfl, rfl, rfl⟩⟩

theorem witness_OnlyCipherCommandsWriteSbox : ∃ s t : State, step s = .next t ∧ t.sbox ≠ s.sbox :=
  ⟨(loaded [0x4B]).running .rc4ksa .fill 0, _, rfl, by decide⟩

theorem witness_OnlyTheHostWritesInputs :
    (∃ s t : State, step s = .next t ∧ t.ibuf ≠ s.ibuf) ∧ ∃ s t : State, step s = .next t ∧ t.ilen ≠ s.ilen :=
  ⟨⟨resetWithTurns [.write (.ibuf 0) 9], _, rfl, by decide +kernel⟩,
    ⟨resetWithTurns [.write (.csr .ilen) 9], _, rfl, by decide +kernel⟩⟩

theorem witness_ResultDependsOnInputOnly :
    ∃ s u : State, s.busy = false ∧ u.busy = false ∧ InputLoaded s ∧ u.cfg = s.cfg ∧ u.ilen = s.ilen
      ∧ (∀ k < s.ilen, u.ibuf.get k = s.ibuf.get k) ∧ u.sbox ≠ s.sbox :=
  ⟨loaded textNoPad, scheduled textNoPad, rfl, rfl, by unfold InputLoaded; decide, rfl, rfl, fun _ _ => rfl, by
    decide +kernel⟩

theorem witness_DutiesKeptNeedNoFreeValue :
    (∃ s t : State, Inv s ∧ DutiesKept s ∧ (∀ turn rest, s.script = turn :: rest → DutyKept s turn) ∧ step s = .next t
      ∧ s.busy = true)
      ∧ ∀ turn ∈ [Turn.read (.csr .cmd), .write (.csr .cmd) 2, .write (.csr .ilen) 3, .run 0, .wait, .reset, .engine],
        ∃ s t : State, Inv s ∧ DutiesKept s ∧ s.script = [turn] ∧ DutyKept s turn ∧ step s = .next t := by
  have empty : ∀ turns, InputLoaded (resetWithTurns turns) := fun _ _ h => absurd h (Nat.not_lt_zero _)
  have ready : ∀ turns (i : Instr), i ≠ .rc4prga → Ready (resetWithTurns turns) i := fun turns i h =>
    ⟨empty turns, fun e => absurd e h⟩
  have idle : ∀ turns, DutiesKept (resetWithTurns turns) := fun _ h => by cases h
  refine ⟨⟨accepted .rc4ksa, _, accepted_meets_Inv _, fun _ => ⟨fun _ h => absurd h (Nat.not_lt_zero _), fun h =>
    (by cases h)⟩, fun _ _ h => (by cases h), rfl, rfl⟩, fun turn h => ⟨resetWithTurns [turn], ?_⟩⟩
  have inv : Inv (resetWithTurns [turn]) := reset_meets_Inv.host [turn] [] 0
  simp only [List.mem_cons, List.not_mem_nil, or_false] at h
  rcases h with rfl | rfl | rfl | rfl | rfl | rfl | rfl
  · exact ⟨_, inv, idle _, rfl, rfl, rfl⟩
  · exact ⟨_, inv, idle _, rfl, ⟨rfl, fun _ => ready _ _ (by decide)⟩, rfl⟩
  · exact ⟨_, inv, idle _, rfl, ⟨rfl, fun h => by cases h⟩, rfl⟩
  · exact ⟨_, inv, idle _, rfl, ⟨rfl, ready _ _ (by decide)⟩, rfl⟩
  · exact ⟨_, inv, idle _, rfl, trivial, rfl⟩
  · exact ⟨_, inv, idle _, rfl, trivial, rfl⟩
  · exact ⟨_, inv, idle _, rfl, trivial, rfl⟩

theorem witness_UnmadeSboxReadIsFree :
    ∃ s : State, s.busy = true ∧ s.done = false ∧ s.op = .rc4prga ∧ s.sub = .run ∧ s.cnt < s.ilen
      ∧ s.sbox.get (s.i + 1#8).toNat = none :=
  ⟨(loaded [0x50]).running .rc4prga .run 0, by decide⟩

theorem witness_IndexOutsideTheSpaceFaults :
    ∀ p ∈ [Port.ibuf 4096, .obuf 8192, .sbox 256], p.inRange defaultConfig = false
      ∧ (∃ s : State, s.cfg = defaultConfig ∧ s.script = .read p :: [])
      ∧ ∃ s : State, s.cfg = defaultConfig ∧ s.script = .write p 1 :: [] := fun p hp =>
  ⟨by revert p; decide +kernel, ⟨resetWithTurns [.read p], rfl, rfl⟩, ⟨resetWithTurns [.write p 1], rfl, rfl⟩⟩

end Sys2Proof.Machine
end

/-! PROOF. The family 00_scope.md: what a command word on a block that takes commands runs. -/

namespace Sys2Proof.Machine

/-- A turn RUN of a word on a block that is not BUSY runs the decoded command, with the WAIT of R78 as the next turn. -/
theorem step_of_run {s : State} {v : Nat} {rest : List Turn} (hs : s.script = .run v :: rest) (hb : s.busy = false) :
    step s = exec (commandOf v) { s with script := .wait :: rest } := by
  have hf : fetch s = .command (commandOf v) { s with script := .wait :: rest } := by simp [fetch, hs, hb]
  simp only [step, hf]

/-- Settles O4: a placed word is a turn RUN of it on a block made not BUSY, so `step_of_run` gives both halves. -/
theorem stepRunsDecodedCommand : Obligations.StepRunsDecodedCommand := by
  refine ⟨fun s v rest => step_of_run, fun s w hw => ?_⟩
  have hscript : (s.withFetchWord 8 w).script = .run w :: s.script :=
    congrArg (fun v => Turn.run v :: s.script) (Nat.mod_eq_of_lt hw)
  exact step_of_run hscript rfl

end Sys2Proof.Machine

/-! PROOF. The family 10_state.md: the rows of the sequencer, a command as a run of them, the invariant, and what
each step of the machine leaves alone. -/

namespace Sys2Proof.Machine

/-! ## The rows of the sequencer (30_encoding.md R80) -/

/-- The engine runs command `i` in its sub-phase `p` (R21, R22, R30). -/
structure AtRow (s : State) (i : Instr) (p : Sub) : Prop where
  busy : s.busy = true
  done : s.done = false
  op : s.op = i
  sub : s.sub = p

/-- Acceptance puts the engine at the CHECK row of the command (R74). -/
theorem AtRow.accept (s : State) (i : Instr) : AtRow (s.accept i) i .check := ⟨rfl, rfl, rfl, rfl⟩

/-- What selects a row, CNT apart. -/
def rowKey (s : State) : Bool × Bool × Instr × Sub × Nat := (s.busy, s.done, s.op, s.sub, s.ilen)

theorem AtRow.of_rowKey {s t : State} {i : Instr} {p : Sub} (h : AtRow s i p) (hk : rowKey t = rowKey s) :
    AtRow t i p ∧ t.ilen = s.ilen := by
  simp only [rowKey, Prod.mk.injEq] at hk
  obtain ⟨hb, hd, ho, hs, hi⟩ := hk
  exact ⟨⟨hb.trans h.busy, hd.trans h.done, ho.trans h.op, hs.trans h.sub⟩, hi⟩

/-- The table of R80: the step of a BUSY engine, one constructor per row. -/
inductive EngineRow (s : State) : State → Prop
  | encStart (h : AtRow s .b64enc .check) : EngineRow s s.enterRun
  | encGroup (h : AtRow s .b64enc .run) (hc : s.cnt < encodeGroups s.ilen) : EngineRow s (encodeStep s)
  | encEnd (h : AtRow s .b64enc .run) (hc : s.cnt = encodeGroups s.ilen) : EngineRow s (encodeFinish s)
  | decBadLength (h : AtRow s .b64dec .check) (hl : lengthBad s.ilen = true) : EngineRow s (s.raise .invalidLength)
  | decStart (h : AtRow s .b64dec .check) (hl : lengthBad s.ilen = false) : EngineRow s (decodeSetup s)
  | decGroup (v : Group) (h : AtRow s .b64dec .run) (hc : s.cnt < decodeGroups s.ilen)
      (hv : unpackText s.cfg (s.readText s.cnt).1 = some v) : EngineRow s (decodeStep v (s.readText s.cnt).2)
  | decBadText (h : AtRow s .b64dec .run) (hc : s.cnt < decodeGroups s.ilen)
      (hv : unpackText s.cfg (s.readText s.cnt).1 = none) :
      EngineRow s ((s.readText s.cnt).2.raise .invalidCharacter)
  | decEnd (h : AtRow s .b64dec .run) (hc : s.cnt = decodeGroups s.ilen) : EngineRow s (decodeFinish s)
  | keyEmpty (h : AtRow s .rc4ksa .check) (hl : s.ilen = 0) : EngineRow s (s.raise .invalidKey)
  | keyStart (h : AtRow s .rc4ksa .check) (hl : s.ilen ≠ 0) : EngineRow s (keySetup s)
  | keyFill (h : AtRow s .rc4ksa .fill) (hc : s.cnt < 256) : EngineRow s (fillStep s)
  | keyFillEnd (h : AtRow s .rc4ksa .fill) (hc : s.cnt = 256) : EngineRow s (fillFinish s)
  | keyMix (h : AtRow s .rc4ksa .run) (hc : s.cnt < 256) : EngineRow s (mixStep s)
  | keyEnd (h : AtRow s .rc4ksa .run) (hc : s.cnt = 256) : EngineRow s (keyFinish s)
  | strStart (h : AtRow s .rc4prga .check) : EngineRow s (cursorSetup s)
  | strByte (h : AtRow s .rc4prga .run) (hc : s.cnt < s.ilen) : EngineRow s (byteStep s)
  | strEnd (h : AtRow s .rc4prga .run) (hc : s.cnt = s.ilen) : EngineRow s (byteFinish s)

/-- The engine takes the step of its row. -/
theorem EngineRow.engineStep_eq {s t : State} (r : EngineRow s t) : engineStep s = .next t := by
  cases r with
  | encStart h | strStart h => simp [engineStep, tickB64enc, tickRc4prga, h.busy, h.done, h.op, h.sub]
  | encGroup h hc | encEnd h hc => simp [engineStep, tickB64enc, h.busy, h.done, h.op, h.sub, hc]
  | decBadLength h hl | decStart h hl => simp [engineStep, tickB64dec, h.busy, h.done, h.op, h.sub, hl]
  | decGroup v h hc hv | decBadText h hc hv =>
    simp [engineStep, tickB64dec, h.busy, h.done, h.op, h.sub, hc, hv]
  | decEnd h hc => simp [engineStep, tickB64dec, h.busy, h.done, h.op, h.sub, hc]
  | keyEmpty h hc | keyStart h hc | keyFill h hc | keyFillEnd h hc | keyMix h hc | keyEnd h hc =>
    simp [engineStep, tickRc4ksa, h.busy, h.done, h.op, h.sub, hc]
  | strByte h hc | strEnd h hc => simp [engineStep, tickRc4prga, h.busy, h.done, h.op, h.sub, hc]

/-- A step of a BUSY engine is the step of a row: every other sequencer state faults. -/
theorem engineRow_of_engineStep {s t : State} (hb : s.busy = true) (h : engineStep s = .next t) : EngineRow s t := by
  simp only [engineStep, hb, if_true] at h
  split at h
  · cases h
  · rename_i hd
    rw [Bool.not_eq_true] at hd
    split at h <;> rename_i ho
    · simp only [tickB64enc] at h
      split at h <;> rename_i hs
      · cases h; exact .encStart ⟨hb, hd, ho, hs⟩
      · cases h
      · split_ifs at h with h1 h2 <;> cases h
        · exact .encGroup ⟨hb, hd, ho, hs⟩ h1
        · exact .encEnd ⟨hb, hd, ho, hs⟩ h2
    · simp only [tickB64dec] at h
      split at h <;> rename_i hs
      · split_ifs at h with h1 <;> cases h
        · exact .decBadLength ⟨hb, hd, ho, hs⟩ h1
        · exact .decStart ⟨hb, hd, ho, hs⟩ (by simpa using h1)
      · cases h
      · split_ifs at h with h1 h2
        · split at h <;> rename_i hv <;> cases h
          · exact .decGroup _ ⟨hb, hd, ho, hs⟩ h1 hv
          · exact .decBadText ⟨hb, hd, ho, hs⟩ h1 hv
        · cases h; exact .decEnd ⟨hb, hd, ho, hs⟩ h2
    · simp only [tickRc4ksa] at h
      split at h <;> rename_i hs
      · split_ifs at h with h1 <;> cases h
        · exact .keyEmpty ⟨hb, hd, ho, hs⟩ h1
        · exact .keyStart ⟨hb, hd, ho, hs⟩ h1
      · split_ifs at h with h1 h2 <;> cases h
        · exact .keyFill ⟨hb, hd, ho, hs⟩ h1
        · exact .keyFillEnd ⟨hb, hd, ho, hs⟩ h2
      · split_ifs at h with h1 h2 <;> cases h
        · exact .keyMix ⟨hb, hd, ho, hs⟩ h1
        · exact .keyEnd ⟨hb, hd, ho, hs⟩ h2
    · simp only [tickRc4prga] at h
      split at h <;> rename_i hs
      · cases h; exact .strStart ⟨hb, hd, ho, hs⟩
      · cases h
      · split_ifs at h with h1 h2 <;> cases h
        · exact .strByte ⟨hb, hd, ho, hs⟩ h1
        · exact .strEnd ⟨hb, hd, ho, hs⟩ h2

/-! ## A whole command is a run of the engine from acceptance (00_scope.md R10) -/

/-- What every engine step keeps, every run of the engine keeps. -/
theorem engineRun_induct {P : State → Prop} (hstep : ∀ {s t}, engineStep s = .next t → P s → P t) {n : Nat}
    {s t : State} (h : engineRun n s = .next t) (h0 : P s) : P t := by
  induction n generalizing s with
  | zero => cases h; exact h0
  | succ n ih =>
    simp only [engineRun] at h
    split at h
    · rename_i u hu
      exact ih h (hstep hu h0)
    · cases h
    · cases h

/-- The rows of one sub-phase: `n` passes of the loop body `f` and then the step `g` that ends the sub-phase. -/
theorem engineRun_loop {f g : State → State} {i : Instr} {p : Sub} {s : State} {n : Nat} (h : AtRow s i p)
    (h0 : s.cnt = 0) (hf : ∀ t, rowKey (f t) = rowKey t) (hc : ∀ t, (f t).cnt = t.cnt + 1)
    (body : ∀ t, AtRow t i p → t.ilen = s.ilen → t.cnt < n → EngineRow t (f t))
    (last : ∀ t, AtRow t i p → t.ilen = s.ilen → t.cnt = n → EngineRow t (g t)) :
    engineRun (n + 1) s = .next (g (repeatStep n f s)) := by
  have row : ∀ k, AtRow (repeatStep k f s) i p ∧ (repeatStep k f s).ilen = s.ilen := fun k =>
    h.of_rowKey (repeatStep_keeps rowKey hf k s)
  have cnt : ∀ k, (repeatStep k f s).cnt = k := fun k => by rw [repeatStep_cnt hc, h0, Nat.zero_add]
  refine engineRun_last (engineRun_repeat fun k hk => ?_) (last _ (row n).1 (row n).2 (cnt n)).engineStep_eq
  exact (body _ (row k).1 (row k).2 (by rw [cnt]; exact hk)).engineStep_eq

/-- R107: B64ENC is `G + 2` engine steps. -/
theorem engineRun_b64enc {s : State} (hb : s.busy = false) :
    engineRun (encodeGroups s.ilen + 2) (s.accept .b64enc) = exec .b64enc s := by
  have start : EngineRow (s.accept .b64enc) (s.accept .b64enc).enterRun := .encStart (.accept s _)
  rw [engineRun_step start.engineStep_eq]
  simp only [exec, execB64enc, hb, Bool.false_eq_true, if_false]
  refine engineRun_loop (i := .b64enc) (p := .run) ⟨rfl, rfl, rfl, rfl⟩ rfl (fun t => by simp [rowKey]) (by simp)
    (fun t ht hi hc => .encGroup ht ?_) (fun t ht hi hc => .encEnd ht ?_)
  · rw [hi]; exact hc
  · rw [hi]; exact hc

/-- R122: B64DEC is at most `Q + 2` engine steps. -/
theorem engineRun_b64dec {s : State} (hb : s.busy = false) :
    engineRun (decodeGroups s.ilen + 2) (s.accept .b64dec) = exec .b64dec s := by
  simp only [exec, execB64dec, hb, Bool.false_eq_true, if_false]
  split_ifs with hl
  · have bad : EngineRow (s.accept .b64dec) ((s.accept .b64dec).raise .invalidLength) := .decBadLength (.accept s _) hl
    rw [engineRun_step bad.engineStep_eq, engineRun_idle rfl]
  · have start : EngineRow (s.accept .b64dec) (decodeSetup (s.accept .b64dec)) :=
      .decStart (.accept s _) (by simpa using hl)
    rw [engineRun_step start.engineStep_eq]
    exact (engineRun_decodeLoop _ _ (by simp) (by simp) (by simp) (by simp) (by simp)
      (by simp [decodeGroups])).1

/-- R140: RC4KSA with no key is one engine step. -/
theorem engineRun_rc4ksa_empty {s : State} (hb : s.busy = false) (hl : s.ilen = 0) :
    engineRun 1 (s.accept .rc4ksa) = exec .rc4ksa s := by
  have empty : EngineRow (s.accept .rc4ksa) ((s.accept .rc4ksa).raise .invalidKey) := .keyEmpty (.accept s _) hl
  rw [engineRun_step empty.engineStep_eq]
  simp [engineRun, exec, execRc4ksa, hb, hl]

/-- R134, R136: the mixing of RC4KSA and its completion are 257 engine steps. -/
theorem engineRun_mixing {s : State} (h : AtRow s .rc4ksa .fill) :
    engineRun 257 (fillFinish s) = .next (keyFinish (repeatStep 256 mixStep (fillFinish s))) :=
  engineRun_loop (i := .rc4ksa) (p := .run) ⟨h.busy, h.done, h.op, rfl⟩ rfl (fun t => by simp [rowKey]) (by simp)
    (fun _ ht _ hc => .keyMix ht hc) (fun _ ht _ hc => .keyEnd ht hc)

/-- R140: RC4KSA with a key is the CHECK step, 257 steps of the fill and 257 of the mixing. -/
theorem engineRun_rc4ksa {s : State} (hb : s.busy = false) (hl : s.ilen ≠ 0) :
    engineRun 515 (s.accept .rc4ksa) = exec .rc4ksa s := by
  have start : EngineRow (s.accept .rc4ksa) (keySetup (s.accept .rc4ksa)) := .keyStart (.accept s _) hl
  have hf : ∀ t, rowKey (fillStep t) = rowKey t := fun t => by simp [rowKey]
  have atFill : AtRow (keySetup (s.accept .rc4ksa)) .rc4ksa .fill := ⟨rfl, rfl, rfl, rfl⟩
  have fill : engineRun 257 (keySetup (s.accept .rc4ksa)) = _ :=
    engineRun_loop atFill rfl hf (by simp) (fun _ ht _ hc => .keyFill ht hc) (fun _ ht _ hc => .keyFillEnd ht hc)
  have filled := (atFill.of_rowKey (repeatStep_keeps rowKey hf 256 _)).1
  calc engineRun (514 + 1) (s.accept .rc4ksa)
      = engineRun (257 + 257) (keySetup (s.accept .rc4ksa)) := engineRun_step start.engineStep_eq _
    _ = engineRun 257 _ := engineRun_add fill _
    _ = _ := engineRun_mixing filled
    _ = exec .rc4ksa s := by simp [exec, execRc4ksa, hb, hl]

/-- R158: RC4PRGA is `ILEN + 2` engine steps. -/
theorem engineRun_rc4prga {s : State} (hb : s.busy = false) :
    engineRun (s.ilen + 2) (s.accept .rc4prga) = exec .rc4prga s := by
  have start : EngineRow (s.accept .rc4prga) (cursorSetup (s.accept .rc4prga)) := .strStart (.accept s _)
  rw [engineRun_step start.engineStep_eq]
  simp only [exec, execRc4prga, hb, Bool.false_eq_true, if_false]
  refine engineRun_loop (i := .rc4prga) (p := .run) ⟨by simp, by simp, by simp, by simp⟩ (by simp)
    (fun t => by simp [rowKey]) (by simp) (fun t ht hi hc => .strByte ht ?_) (fun t ht hi hc => .strEnd ht ?_)
  · simpa [hi] using hc
  · simpa [hi] using hc

/-- R10: a whole command leaves the state some number of engine steps from its acceptance leave. -/
theorem exec_eq_engineRun {s : State} (hb : s.busy = false) (i : Instr) :
    ∃ n, engineRun n (s.accept i) = exec i s := by
  cases i with
  | b64enc => exact ⟨_, engineRun_b64enc hb⟩
  | b64dec => exact ⟨_, engineRun_b64dec hb⟩
  | rc4ksa =>
    by_cases hl : s.ilen = 0
    · exact ⟨_, engineRun_rc4ksa_empty hb hl⟩
    · exact ⟨_, engineRun_rc4ksa hb hl⟩
  | rc4prga => exact ⟨_, engineRun_rc4prga hb⟩

/-- What acceptance makes true and every engine step keeps is true after a whole command. -/
theorem exec_induct {P : State → Prop} (hstep : ∀ {s t}, engineStep s = .next t → P s → P t) {i : Instr}
    {s t : State} (h : exec i s = .next t) (hb : s.busy = false) (h0 : P (s.accept i)) : P t := by
  obtain ⟨n, hn⟩ := exec_eq_engineRun hb i
  exact engineRun_induct hstep (hn.trans h) h0

/-! ## The invariant, row by row -/

/-- The sizes of R6 as plain numbers: `N = 2^LENW`, and what CNT can count to. -/
theorem Inv.sizes {s : State} (h : Inv s) : ∃ N, 8 ≤ N ∧ s.ilen < N ∧ 2 ^ (s.cfg.lenw + 1) = 2 * N
    ∧ s.cfg.obufSize = 2 * N ∧ 2 * N ≤ 2 ^ s.cfg.cntWidth ∧ 512 ≤ 2 ^ s.cfg.cntWidth := by
  have two : 2 ^ (s.cfg.lenw + 1) = 2 * 2 ^ s.cfg.lenw := by rw [Nat.pow_succ, Nat.mul_comm]
  refine ⟨2 ^ s.cfg.lenw, ?_, h.ilen_lt, two, two, ?_, ?_⟩
  · exact Nat.pow_le_pow_right (n := 2) (i := 3) (by decide) (configWf_lenw h.cfg_wf)
  · exact two ▸ Nat.pow_le_pow_right (by decide) (le_max_left _ 9)
  · exact Nat.pow_le_pow_right (n := 2) (i := 9) (by decide) (le_max_right _ 9)

/-- R45 at any parameters of R6. -/
theorem Inv.resetWith {c : Config} (hc : c.wf = true) : Inv (State.resetWith c) where
  cfg_wf := hc
  ibuf_fits := Memory.fits_nil _
  obuf_fits := Memory.fits_nil _
  sbox_fits := Memory.fits_nil _
  ilen_lt := Nat.two_pow_pos _
  olen_lt := Nat.two_pow_pos _
  nout_lt := Nat.two_pow_pos _
  cnt_lt := Nat.two_pow_pos _
  busy_clear := fun h => by cases h
  idle_clear := fun _ _ => ⟨rfl, rfl, rfl⟩
  err_ok := trivial
  err_empty := fun _ => rfl
  sequencer_ok := fun h => by cases h
  output_ok := fun _ hk => absurd hk (Nat.not_lt_zero _)

/-- The invariant says nothing of the cursors. -/
theorem Inv.cursors {s : State} (h : Inv s) (i j : Byte) : Inv { s with i := i, j := j } := { h with }

/-- A host write of ILEN on a block that is not BUSY (R58). -/
theorem Inv.writeIlen {s : State} (h : Inv s) (hb : s.busy = false) (v : Nat) :
    Inv { s with ilen := v % 2 ^ s.cfg.lenw } :=
  { h with
    ilen_lt := Nat.mod_lt _ (Nat.two_pow_pos _)
    sequencer_ok := fun h' => absurd (hb.symm.trans h') Bool.false_ne_true }

/-- A host write of IBUF within its space on a block that is not BUSY (R58). -/
theorem Inv.writeIbuf {s : State} (h : Inv s) (hb : s.busy = false) {k : Nat} (hk : k < s.cfg.ibufSize) (b : Byte) :
    Inv { s with ibuf := s.ibuf.set k b } :=
  { h with
    ibuf_fits := Memory.fits_set h.ibuf_fits hk b
    sequencer_ok := fun h' => absurd (hb.symm.trans h') Bool.false_ne_true }

/-- The reads of a decode group advance the count of draws alone. -/
theorem Inv.readText {s : State} (h : Inv s) (g : Nat) : Inv (s.readText g).2 := by
  have hr : (s.readText g).2 = { s with script := s.script, reads := s.reads, draws := (s.readText g).2.draws } := by
    apply State.ext <;> simp
  rw [hr]
  exact h.host ..

/-- An error its command raises keeps the invariant: it leaves no output (R170, R175). -/
theorem Inv.raise {s : State} (h : Inv s) {e : ErrCode} (he : ErrOk (s.raise e)) : Inv (s.raise e) :=
  h.complete (Nat.two_pow_pos _) (by cases e <;> exact he) (fun _ => rfl) (fun _ hk => absurd hk (Nat.not_lt_zero _))

/-! ### `SequencerOk` and `outputWritten` at a row -/

section
variable {s : State}

theorem AtRow.sequencerOk_check {i : Instr} (h : AtRow s i .check) : SequencerOk s ↔ s.cnt = 0 := by
  cases i <;> simp only [SequencerOk, h.op, h.sub]

theorem AtRow.sequencerOk_encode (h : AtRow s .b64enc .run) : SequencerOk s ↔ s.cnt ≤ encodeGroups s.ilen := by
  simp only [SequencerOk, h.op, h.sub]

theorem AtRow.sequencerOk_decode (h : AtRow s .b64dec .run) : SequencerOk s ↔ lengthBad s.ilen = false
    ∧ s.cnt ≤ decodeGroups s.ilen ∧ 1 ≤ s.nout ∧ s.nout ≤ 3 * decodeGroups s.ilen
    ∧ 3 * decodeGroups s.ilen ≤ s.nout + 2 := by
  simp only [SequencerOk, h.op, h.sub]

theorem AtRow.sequencerOk_fill (h : AtRow s .rc4ksa .fill) : SequencerOk s ↔ 0 < s.ilen ∧ s.cnt ≤ 256
    ∧ ∀ k < s.cnt, s.sbox.get k = some (BitVec.ofNat 8 k) := by
  simp only [SequencerOk, h.op, h.sub]

theorem AtRow.sequencerOk_mix (h : AtRow s .rc4ksa .run) :
    SequencerOk s ↔ 0 < s.ilen ∧ s.cnt ≤ 256 ∧ Scheduled s.sbox := by
  simp only [SequencerOk, h.op, h.sub]

theorem AtRow.sequencerOk_stream (h : AtRow s .rc4prga .run) : SequencerOk s ↔ s.cnt ≤ s.ilen := by
  simp only [SequencerOk, h.op, h.sub]

theorem AtRow.outputWritten_encode (h : AtRow s .b64enc .run) : outputWritten s = 4 * s.cnt := by
  simp [outputWritten, h.busy, h.done, h.op, h.sub]

theorem AtRow.outputWritten_decode (h : AtRow s .b64dec .run) : outputWritten s = min s.nout (3 * s.cnt) := by
  simp [outputWritten, h.busy, h.done, h.op, h.sub]

/-- RC4KSA writes no output. -/
theorem AtRow.outputWritten_key {p : Sub} (h : AtRow s .rc4ksa p) : outputWritten s = 0 := by
  cases p <;> simp [outputWritten, h.busy, h.done, h.op, h.sub]

theorem AtRow.outputWritten_stream (h : AtRow s .rc4prga .run) : outputWritten s = s.cnt := by
  simp [outputWritten, h.busy, h.done, h.op, h.sub]

end

/-- A step from row to row keeps the invariant when it keeps what no row but a completion writes. -/
theorem Inv.toRow {s t : State} {i i' : Instr} {p p' : Sub} (h : Inv s) (hs : AtRow s i p) (ht : AtRow t i' p')
    (keeps : t.cfg = s.cfg ∧ t.err = s.err ∧ t.olen = s.olen ∧ t.ilen = s.ilen ∧ t.ibuf = s.ibuf)
    (obuf : t.obuf.fits s.cfg.obufSize) (sbox : t.sbox.fits 256) (nout : t.nout < 2 ^ (s.cfg.lenw + 1))
    (cnt : t.cnt < 2 ^ s.cfg.cntWidth) (seq : SequencerOk t) (out : ∀ k < outputWritten t, (t.obuf.get k).isSome) :
    Inv t := by
  obtain ⟨hcfg, herr, holen, hilen, hibuf⟩ := keeps
  exact h.running hs.busy hcfg (ht.busy.trans hs.busy.symm) (ht.done.trans hs.done.symm) herr holen hilen hibuf obuf
    sbox nout cnt seq out

/-- A CHECK step that passes finds CNT at 0. -/
theorem AtRow.cnt_of_check {s : State} {i : Instr} (hs : AtRow s i .check) (h : Inv s) : s.cnt = 0 :=
  hs.sequencerOk_check.mp (h.sequencer_ok hs.busy)

/-- Writing a list where the entries written end leaves every entry up to its end written. -/
theorem Memory.isSome_setList {m : Memory} {a n : Nat} {bs : List Byte} (h : ∀ k < a, (m.get k).isSome)
    (hn : n ≤ a + bs.length) : ∀ k < n, ((m.setList a bs).get k).isSome := by
  intro k hk
  rw [Memory.get_setList]
  split_ifs with hin
  · rw [List.getElem?_eq_getElem (by omega)]; rfl
  · exact h k (by omega)

/-! ### B64ENC -/

theorem AtRow.enterRun {s : State} (hs : AtRow s .b64enc .check) : AtRow s.enterRun .b64enc .run :=
  ⟨hs.busy, hs.done, hs.op, rfl⟩

theorem AtRow.encodeStep {s : State} (hs : AtRow s .b64enc .run) : AtRow (encodeStep s) .b64enc .run :=
  ⟨by simp [hs.busy], by simp [hs.done], by simp [hs.op], by simp [hs.sub]⟩

theorem Inv.encStart {s : State} (h : Inv s) (hs : AtRow s .b64enc .check) : Inv s.enterRun := by
  have hc := hs.cnt_of_check h
  refine h.toRow hs hs.enterRun ⟨rfl, rfl, rfl, rfl, rfl⟩ h.obuf_fits h.sbox_fits h.nout_lt h.cnt_lt ?_ ?_
  · exact hs.enterRun.sequencerOk_encode.mpr (by simp [hc])
  · rw [hs.enterRun.outputWritten_encode]; simp [hc]

theorem Inv.encGroup {s : State} (h : Inv s) (hs : AtRow s .b64enc .run) (hc : s.cnt < encodeGroups s.ilen) :
    Inv (encodeStep s) := by
  obtain ⟨N, hN, hi, hpow, hobuf, hcw, -⟩ := h.sizes
  have hc' := hc
  simp only [encodeGroups] at hc
  have out := h.output_ok
  rw [hs.outputWritten_encode] at out
  refine h.toRow hs hs.encodeStep (by simp) ?_ (by simpa using h.sbox_fits) (by simpa using h.nout_lt) ?_ ?_ ?_
  · rw [encodeStep_obuf]
    exact Memory.fits_setList h.obuf_fits _ _ (by simp only [groupText, List.length_cons, List.length_nil]; omega)
  · rw [encodeStep_cnt]; omega
  · exact hs.encodeStep.sequencerOk_encode.mpr (by simpa using hc')
  · rw [hs.encodeStep.outputWritten_encode, encodeStep_cnt, encodeStep_obuf]
    exact Memory.isSome_setList out (by simp [groupText]; omega)

theorem Inv.encEnd {s : State} (h : Inv s) (hs : AtRow s .b64enc .run) (hc : s.cnt = encodeGroups s.ilen) :
    Inv (encodeFinish s) := by
  obtain ⟨N, hN, hi, hpow, -⟩ := h.sizes
  refine h.complete ?_ trivial (fun e => absurd rfl e) ?_
  · rw [hc, encodeGroups]; omega
  · have out := h.output_ok
    rwa [hs.outputWritten_encode] at out

/-! ### B64DEC -/

theorem AtRow.decodeSetup {s : State} (hs : AtRow s .b64dec .check) : AtRow (decodeSetup s) .b64dec .run :=
  ⟨by simp [hs.busy], by simp [hs.done], by simp [hs.op], by simp⟩

theorem AtRow.readText {s : State} {i : Instr} {p : Sub} (hs : AtRow s i p) (g : Nat) :
    AtRow (s.readText g).2 i p :=
  (hs.of_rowKey (by simp [rowKey])).1

theorem AtRow.decodeStep {s : State} (hs : AtRow s .b64dec .run) (v : Group) : AtRow (decodeStep v s) .b64dec .run :=
  ⟨hs.busy, hs.done, hs.op, hs.sub⟩

theorem padCount_le_one (ch : Byte) : padCount ch ≤ 1 := by
  rw [padCount]; split_ifs <;> omega

theorem Inv.decStart {s : State} (h : Inv s) (hs : AtRow s .b64dec .check) (hl : lengthBad s.ilen = false) :
    Inv (decodeSetup s) := by
  obtain ⟨N, hN, hi, hpow, -⟩ := h.sizes
  have hc := hs.cnt_of_check h
  obtain ⟨hne, hmod⟩ := (lengthBad_eq_false _).mp hl
  have h1 := padCount_le_one (s.readIbuf (s.ilen - 1)).1
  have h2 := padCount_le_one ((s.readIbuf (s.ilen - 1)).2.readIbuf (s.ilen - 2)).1
  have hnout := decodeSetup_nout s
  rw [decodeGroups] at hnout
  refine h.toRow hs hs.decodeSetup (by simp) (by simpa using h.obuf_fits) (by simpa using h.sbox_fits) (by omega)
    (by simpa using h.cnt_lt) ?_ ?_
  · rw [hs.decodeSetup.sequencerOk_decode, decodeSetup_ilen, decodeSetup_cnt, hc, decodeGroups]
    exact ⟨hl, by omega, by omega, by omega, by omega⟩
  · rw [hs.decodeSetup.outputWritten_decode, decodeSetup_cnt, hc]; simp

theorem Inv.decGroup {s : State} (h : Inv s) (hs : AtRow s .b64dec .run) (hc : s.cnt < decodeGroups s.ilen)
    (v : Group) : Inv (decodeStep v s) := by
  obtain ⟨N, hN, hi, hpow, hobuf, hcw, -⟩ := h.sizes
  obtain ⟨hl, -, hn1, hn2, hn3⟩ := hs.sequencerOk_decode.mp (h.sequencer_ok hs.busy)
  have hnout := h.nout_lt
  have hq : decodeGroups s.ilen ≤ s.ilen := Nat.div_le_self _ _
  have hq4 : 4 * decodeGroups s.ilen ≤ s.ilen := Nat.mul_div_le _ _
  have out := h.output_ok
  rw [hs.outputWritten_decode] at out
  refine h.toRow hs (hs.decodeStep v) (by simp) ?_ h.sbox_fits h.nout_lt ?_ ?_ ?_
  · rw [decodeStep_obuf]
    exact Memory.fits_setList h.obuf_fits _ _ (by rw [List.length_take]; omega)
  · rw [decodeStep_cnt]; omega
  · exact (hs.decodeStep v).sequencerOk_decode.mpr ⟨hl, hc, hn1, hn2, hn3⟩
  · rw [(hs.decodeStep v).outputWritten_decode, decodeStep_nout, decodeStep_cnt]
    intro k hk
    rw [decodeStep_get]
    split_ifs
    · rfl
    · exact out k (by omega)

theorem Inv.decEnd {s : State} (h : Inv s) (hs : AtRow s .b64dec .run) (hc : s.cnt = decodeGroups s.ilen) :
    Inv (decodeFinish s) := by
  obtain ⟨-, -, -, hn, -⟩ := hs.sequencerOk_decode.mp (h.sequencer_ok hs.busy)
  refine h.complete h.nout_lt trivial (fun e => absurd rfl e) ?_
  have out := h.output_ok
  rwa [hs.outputWritten_decode, hc, min_eq_left hn] at out

/-! ### RC4KSA -/

theorem AtRow.keySetup {s : State} (hs : AtRow s .rc4ksa .check) : AtRow (keySetup s) .rc4ksa .fill :=
  ⟨hs.busy, hs.done, hs.op, rfl⟩

theorem AtRow.fillStep {s : State} (hs : AtRow s .rc4ksa .fill) : AtRow (fillStep s) .rc4ksa .fill :=
  ⟨hs.busy, hs.done, hs.op, hs.sub⟩

theorem AtRow.fillFinish {s : State} (hs : AtRow s .rc4ksa .fill) : AtRow (fillFinish s) .rc4ksa .run :=
  ⟨hs.busy, hs.done, hs.op, rfl⟩

theorem AtRow.mixStep {s : State} (hs : AtRow s .rc4ksa .run) : AtRow (mixStep s) .rc4ksa .run :=
  (hs.of_rowKey (by simp [rowKey])).1

theorem Inv.keyStart {s : State} (h : Inv s) (hs : AtRow s .rc4ksa .check) (hl : s.ilen ≠ 0) : Inv (keySetup s) := by
  have hc := hs.cnt_of_check h
  refine h.toRow hs hs.keySetup ⟨rfl, rfl, rfl, rfl, rfl⟩ h.obuf_fits h.sbox_fits h.nout_lt h.cnt_lt ?_ ?_
  · rw [hs.keySetup.sequencerOk_fill, keySetup_cnt, hc]
    exact ⟨Nat.pos_of_ne_zero hl, by omega, fun _ hk => absurd hk (Nat.not_lt_zero _)⟩
  · rw [hs.keySetup.outputWritten_key]; simp

theorem Inv.keyFill {s : State} (h : Inv s) (hs : AtRow s .rc4ksa .fill) (hc : s.cnt < 256) : Inv (fillStep s) := by
  obtain ⟨N, -, -, -, -, -, hcw⟩ := h.sizes
  obtain ⟨hl, -, hid⟩ := hs.sequencerOk_fill.mp (h.sequencer_ok hs.busy)
  refine h.toRow hs hs.fillStep ⟨rfl, rfl, rfl, rfl, rfl⟩ h.obuf_fits (Memory.fits_set h.sbox_fits hc _) h.nout_lt
    (by rw [fillStep_cnt]; omega) ?_ ?_
  · rw [hs.fillStep.sequencerOk_fill, fillStep_cnt, fillStep_sbox]
    refine ⟨hl, by omega, fun k hk => ?_⟩
    rw [Memory.get_set]
    split_ifs with hkc
    · rw [hkc]
    · exact hid k (by omega)
  · rw [hs.fillStep.outputWritten_key]; simp

theorem Inv.keyFillEnd {s : State} (h : Inv s) (hs : AtRow s .rc4ksa .fill) (hc : s.cnt = 256) :
    Inv (fillFinish s) := by
  obtain ⟨hl, -, hid⟩ := hs.sequencerOk_fill.mp (h.sequencer_ok hs.busy)
  rw [hc] at hid
  refine h.toRow hs hs.fillFinish ⟨rfl, rfl, rfl, rfl, rfl⟩ h.obuf_fits h.sbox_fits h.nout_lt (Nat.two_pow_pos _) ?_ ?_
  · exact hs.fillFinish.sequencerOk_mix.mpr ⟨hl, by simp, Scheduled.identity hid⟩
  · rw [hs.fillFinish.outputWritten_key]; simp

theorem Inv.keyMix {s : State} (h : Inv s) (hs : AtRow s .rc4ksa .run) (hc : s.cnt < 256) : Inv (mixStep s) := by
  obtain ⟨N, -, -, -, -, -, hcw⟩ := h.sizes
  obtain ⟨hl, -, hperm⟩ := hs.sequencerOk_mix.mp (h.sequencer_ok hs.busy)
  have hj : (mixStep s).j.toNat < 256 := (mixStep s).j.isLt
  refine h.toRow hs hs.mixStep (by simp) (by simpa using h.obuf_fits) ?_ (by simpa using h.nout_lt)
    (by rw [mixStep_cnt]; omega) ?_ ?_
  · rw [mixStep_sbox]; exact Memory.fits_swap h.sbox_fits hc hj
  · rw [hs.mixStep.sequencerOk_mix, mixStep_ilen, mixStep_cnt, mixStep_sbox]
    exact ⟨hl, hc, hperm.swap_written hc hj⟩
  · rw [hs.mixStep.outputWritten_key]; simp

theorem Inv.keyEnd {s : State} (h : Inv s) : Inv (keyFinish s) :=
  (h.cursors 0#8 0#8).complete (Nat.two_pow_pos _) trivial (fun e => absurd rfl e)
    (fun _ hk => absurd hk (Nat.not_lt_zero _))

/-! ### RC4PRGA -/

theorem AtRow.cursorSetup {s : State} (hs : AtRow s .rc4prga .check) : AtRow (cursorSetup s) .rc4prga .run :=
  ⟨by simp [hs.busy], by simp [hs.done], by simp [hs.op], by simp⟩

theorem AtRow.byteStep {s : State} (hs : AtRow s .rc4prga .run) : AtRow (byteStep s) .rc4prga .run :=
  (hs.of_rowKey (by simp [rowKey])).1

theorem Inv.strStart {s : State} (h : Inv s) (hs : AtRow s .rc4prga .check) : Inv (cursorSetup s) := by
  have hc := hs.cnt_of_check h
  refine h.toRow hs hs.cursorSetup (by simp) (by simpa using h.obuf_fits) (by simpa using h.sbox_fits)
    (by simpa using h.nout_lt) (by simpa using h.cnt_lt) ?_ ?_
  · rw [hs.cursorSetup.sequencerOk_stream, cursorSetup_cnt, hc]; exact Nat.zero_le _
  · rw [hs.cursorSetup.outputWritten_stream, cursorSetup_cnt, hc]; simp

theorem Inv.strByte {s : State} (h : Inv s) (hs : AtRow s .rc4prga .run) (hc : s.cnt < s.ilen) : Inv (byteStep s) := by
  obtain ⟨N, hN, hi, hpow, hobuf, hcw, -⟩ := h.sizes
  obtain ⟨v, hv⟩ := byteStep_obuf s
  have out := h.output_ok
  rw [hs.outputWritten_stream] at out
  refine h.toRow hs hs.byteStep (by simp) ?_ ?_ (by simpa using h.nout_lt) (by rw [byteStep_cnt]; omega) ?_ ?_
  · rw [hv]; exact Memory.fits_set h.obuf_fits (by omega) v
  · rw [byteStep_sbox]; exact Memory.fits_swap h.sbox_fits (BitVec.isLt _) (BitVec.isLt _)
  · rw [hs.byteStep.sequencerOk_stream, byteStep_cnt, byteStep_ilen]; exact hc
  · rw [hs.byteStep.outputWritten_stream, byteStep_cnt, hv]
    intro k hk
    rw [Memory.get_set]
    split_ifs
    · rfl
    · exact out k (by omega)

theorem Inv.strEnd {s : State} (h : Inv s) (hs : AtRow s .rc4prga .run) (hc : s.cnt = s.ilen) :
    Inv (byteFinish s) := by
  obtain ⟨N, hN, hi, hpow, -⟩ := h.sizes
  refine h.complete (by omega) trivial (fun e => absurd rfl e) ?_
  have out := h.output_ok
  rwa [hs.outputWritten_stream, hc] at out

/-! ### Every row, every step -/

/-- Every row of R80 keeps the invariant. -/
theorem EngineRow.keeps_inv {s t : State} (r : EngineRow s t) (h : Inv s) : Inv t := by
  cases r with
  | encStart hs => exact h.encStart hs
  | encGroup hs hc => exact h.encGroup hs hc
  | encEnd hs hc => exact h.encEnd hs hc
  | decBadLength hs => exact h.raise hs.op
  | decStart hs hl => exact h.decStart hs hl
  | decGroup v hs hc => exact (h.readText _).decGroup (hs.readText _) (by simpa using hc) v
  | decBadText hs => exact (h.readText _).raise (hs.readText _).op
  | decEnd hs hc => exact h.decEnd hs hc
  | keyEmpty hs => exact h.raise hs.op
  | keyStart hs hl => exact h.keyStart hs hl
  | keyFill hs hc => exact h.keyFill hs hc
  | keyFillEnd hs hc => exact h.keyFillEnd hs hc
  | keyMix hs hc => exact h.keyMix hs hc
  | keyEnd => exact h.keyEnd
  | strStart hs => exact h.strStart hs
  | strByte hs hc => exact h.strByte hs hc
  | strEnd hs hc => exact h.strEnd hs hc

theorem engineStep_keeps_inv {s t : State} (ht : engineStep s = .next t) (h : Inv s) : Inv t := by
  cases hb : s.busy with
  | false => rw [engineStep_idle hb] at ht; cases ht; exact h
  | true => exact (engineRow_of_engineStep hb ht).keeps_inv h

/-- A host write of IBUF that a step takes names an entry IBUF has (R50). -/
theorem ibuf_index_lt_of_step {s t : State} {k v : Nat} {rest : List Turn} (hs : s.script = .write (.ibuf k) v :: rest)
    (h : step s = .next t) : k < s.cfg.ibufSize := by
  by_contra hk
  simp [step, fetch, hs, hostWrite, Port.inRange, hk] at h

/-- Settles O50: a step is one of the seven kinds of `step_cases`; an engine step keeps the invariant row by row, and a
whole command keeps it because it is a run of engine steps from acceptance. -/
theorem stepKeepsInvariant : Obligations.StepKeepsInvariant := by
  intro s t h ht
  obtain ⟨-, sc, he, -⟩ | ⟨sc, r, d, rfl⟩ | ⟨v, rest, -, -, rfl⟩ | ⟨v, rest, hb, -, rfl⟩ | ⟨k, v, rest, hb, hs, rfl⟩
    | ⟨v, rest, hb, -, he⟩ | ⟨rest, -, rfl⟩ := step_cases ht
  · exact engineStep_keeps_inv he (h.host sc s.reads s.draws)
  · exact h.host sc r d
  · exact (h.host rest s.reads s.draws).accept _
  · exact (h.host rest s.reads s.draws).writeIlen hb v
  · have hk := ibuf_index_lt_of_step hs ht
    exact (h.host rest s.reads s.draws).writeIbuf hb hk _
  · exact exec_induct (P := Inv) engineStep_keeps_inv he hb ((h.host _ s.reads s.draws).accept _)
  · exact (Inv.resetWith h.cfg_wf).host rest s.reads s.draws

/-- Settles O49: the state after reset meets the invariant at every parameters of R6, the default ones among them. -/
theorem invariantAfterReset : Obligations.InvariantAfterReset :=
  ⟨fun _ => Inv.resetWith, Inv.resetWith (by decide +kernel)⟩

/-! ## What a step leaves alone -/

/-- A whole command keeps what every engine step keeps. -/
theorem exec_kept {i : Instr} {s t : State} (h : exec i s = .next t) (hb : s.busy = false) : Kept (s.accept i) t := by
  obtain ⟨n, hn⟩ := exec_eq_engineRun hb i
  exact engineRun_kept (hn.trans h)

/-- R21: a BUSY engine stays BUSY or completes, and an engine that is not BUSY takes no step. -/
theorem engineStep_busy_or_done {s t : State} (ht : engineStep s = .next t) (h : s.busy = true ∨ s.done = true) :
    t.busy = true ∨ t.done = true := by
  cases hb : s.busy with
  | false => rw [engineStep_idle hb] at ht; cases ht; exact h
  | true =>
    obtain ⟨-, -, -, -, -, -, -, ⟨hbusy, -⟩ | ⟨-, hdone⟩, -⟩ := engineStep_cases hb ht
    · exact .inl hbusy
    · exact .inr hdone

/-- Settles O53: acceptance sets BUSY and an engine step keeps BUSY or DONE; of the other kinds of step only the reset
writes these two. -/
theorem idleOnlyByReset : Obligations.IdleOnlyByReset := by
  intro s t ht hreset h
  obtain ⟨-, sc, he, -⟩ | ⟨sc, r, d, rfl⟩ | ⟨v, rest, -, -, rfl⟩ | ⟨v, rest, -, -, rfl⟩ | ⟨k, v, rest, -, -, rfl⟩
    | ⟨v, rest, hb, -, he⟩ | ⟨rest, hs, -⟩ := step_cases ht
  · exact engineStep_busy_or_done he h
  · exact h
  · exact .inl rfl
  · exact h
  · exact h
  · exact exec_induct (P := fun u => u.busy = true ∨ u.done = true) engineStep_busy_or_done he hb (.inl rfl)
  · exact absurd hs (hreset rest)

/-- Settles O55: an engine step and a whole command change S only when OP is one of the two cipher commands, and no host
turn but the reset writes S. -/
theorem onlyCipherCommandsWriteSbox : Obligations.OnlyCipherCommandsWriteSbox := by
  intro s t ht hne
  obtain ⟨hb, sc, he, -⟩ | ⟨sc, r, d, rfl⟩ | ⟨v, rest, -, -, rfl⟩ | ⟨v, rest, -, -, rfl⟩ | ⟨k, v, rest, -, -, rfl⟩
    | ⟨v, rest, hb, hs, he⟩ | ⟨rest, hs, -⟩ := step_cases ht
  · obtain ⟨-, -, -, -, -, -, hsbox⟩ := engineStep_kept he
    exact .inr (.inr ⟨hb, hsbox.resolve_left hne⟩)
  · exact absurd rfl hne
  · exact absurd rfl hne
  · exact absurd rfl hne
  · exact absurd rfl hne
  · obtain ⟨-, -, -, -, -, -, hsbox⟩ := exec_kept he hb
    exact .inr (.inl ⟨v, rest, hs, hb, hsbox.resolve_left hne⟩)
  · exact .inl ⟨rest, hs⟩

/-- Settles O56: an engine step and a whole command keep the parameters, IBUF and ILEN, so only the two host writes and
the reset are left. -/
theorem onlyTheHostWritesInputs : Obligations.OnlyTheHostWritesInputs := by
  intro s t ht
  obtain ⟨-, sc, he, -⟩ | ⟨sc, r, d, rfl⟩ | ⟨v, rest, -, -, rfl⟩ | ⟨v, rest, hb, hs, rfl⟩ | ⟨k, v, rest, hb, hs, rfl⟩
    | ⟨v, rest, hb, -, he⟩ | ⟨rest, hs, rfl⟩ := step_cases ht
  · obtain ⟨hcfg, hibuf, hilen, -⟩ := engineStep_kept he
    exact ⟨hcfg, absurd hibuf, absurd hilen⟩
  · exact ⟨rfl, absurd rfl, absurd rfl⟩
  · exact ⟨rfl, absurd rfl, absurd rfl⟩
  · exact ⟨rfl, absurd rfl, fun _ => .inr ⟨v, rest, hs, hb⟩⟩
  · exact ⟨rfl, fun _ => .inr ⟨k, v, rest, hs, hb⟩, absurd rfl⟩
  · obtain ⟨hcfg, hibuf, hilen, -⟩ := exec_kept he hb
    exact ⟨hcfg, absurd hibuf, absurd hilen⟩
  · exact ⟨rfl, fun _ => .inl ⟨rest, hs⟩, fun _ => .inl ⟨rest, hs⟩⟩

/-! ## The S-box (R43, R44, R46) -/

/-- The state a whole RC4KSA with a key leaves: S is some permutation, and beside it only the registers named change. -/
theorem exec_rc4ksa_eq {s : State} (hb : s.busy = false) (hl : 0 < s.ilen) : ∃ (m : Memory) (d : Nat),
    exec .rc4ksa s = .next { s with
      op := .rc4ksa, err := .none, done := true, busy := false, olen := 0, cnt := 256, sub := .run, i := 0#8, j := 0#8
      sbox := m, draws := d }
    ∧ Scheduled m ∧ ∀ k, 256 ≤ k → m.get k = s.sbox.get k := by
  obtain ⟨filled, hfill, hget⟩ := fillLoop_spec (keySetup (s.accept .rc4ksa)) 256 rfl
  have hid : Scheduled filled := Scheduled.identity fun k hk => by rw [hget, if_pos hk]
  obtain ⟨m, j, d, hmix, hperm, habove⟩ :=
    mixLoop_spec (fillFinish { keySetup (s.accept .rc4ksa) with cnt := 256, sbox := filled }) 256 le_rfl rfl hid
  refine ⟨m, d, ?_, hperm, fun k hk => ?_⟩
  · simp only [exec, execRc4ksa, hb, Bool.false_eq_true, if_false, hl.ne', hfill, hmix]
    rfl
  · rw [habove k hk, fillFinish_sbox, hget, if_neg (by omega)]
    rfl

/-- Settles O29. -/
theorem keyScheduleFrame : Obligations.KeyScheduleFrame := by
  intro s hb hl
  obtain ⟨m, d, he, hperm, habove⟩ := exec_rc4ksa_eq hb hl
  exact ⟨_, he, hperm, rfl, rfl, rfl, rfl, rfl, rfl, rfl, rfl, rfl, rfl, rfl, rfl, habove⟩

/-- The rows of RC4PRGA leave a permutation a permutation: the byte step exchanges two entries, the others leave S alone.
-/
theorem EngineRow.keeps_scheduled {s t : State} (r : EngineRow s t) (hop : s.op = .rc4prga) (h : Scheduled s.sbox) :
    Scheduled t.sbox := by
  cases r with
  | strStart => simpa using h
  | strByte => rw [byteStep_sbox]; exact h.swap_written (BitVec.isLt _) (BitVec.isLt _)
  | strEnd => exact h
  | encStart hs | encGroup hs | encEnd hs | decBadLength hs | decStart hs | decGroup _ hs | decBadText hs | decEnd hs
  | keyEmpty hs | keyStart hs | keyFill hs | keyFillEnd hs | keyMix hs | keyEnd hs =>
    cases hs.op.symm.trans hop

/-- Settles O39: RC4KSA makes a permutation, the byte step of RC4PRGA exchanges two entries of it, and a whole RC4PRGA is
a loop of byte steps. -/
theorem sboxStaysAPermutation : Obligations.SboxStaysAPermutation := by
  refine ⟨fun s hb hl => ?_, fun s t hb hop h ht => ?_, fun s hb h => ?_⟩
  · obtain ⟨m, d, he, hperm, -⟩ := exec_rc4ksa_eq hb hl
    exact ⟨_, he, rfl, hperm⟩
  · exact (engineRow_of_engineStep hb ht).keeps_scheduled hop h
  · obtain ⟨m, q, j, d, hloop, -, -, -, hperm⟩ := byteLoop_spec (cursorSetup (s.accept .rc4prga)) s.ilen (by simp)
    refine ⟨byteFinish (repeatStep s.ilen byteStep (cursorSetup (s.accept .rc4prga))), ?_, ?_⟩
    · simp [exec, execRc4prga, hb]
    · rw [byteFinish_sbox, hloop]
      exact hperm (by simpa using h)

/-- A read of a RAM entry never takes back a draw. -/
theorem State.le_draws_readEntry (s : State) (o : Option Byte) : s.draws ≤ (s.readEntry o).2.draws := by
  cases o with
  | none => exact Nat.le_succ _
  | some b => exact le_rfl

/-- The byte step counts at least the draws of its first read: its four other reads follow it (R149). -/
theorem draws_readSbox_le_byteStep (s : State) : (s.readSbox (s.i + 1#8)).2.draws ≤ (byteStep s).draws := by
  unfold byteStep
  extract_lets i x j _ s1 a b d k
  calc x.2.draws ≤ a.2.draws := s1.le_draws_readEntry _
    _ ≤ b.2.draws := a.2.le_draws_readEntry _
    _ ≤ d.2.draws := b.2.le_draws_readEntry _
    _ ≤ k.2.draws := d.2.le_draws_readEntry _

/-- Settles O59: the first read of the byte step is the draw, and the step never stops on it. -/
theorem unmadeSboxReadIsFree : Obligations.UnmadeSboxReadIsFree := by
  intro s hb hd hop hsub hc hnone
  have row : EngineRow s (byteStep s) := .strByte ⟨hb, hd, hop, hsub⟩ hc
  have hread := State.readSbox_unwritten hnone
  have hdraws := draws_readSbox_le_byteStep s
  rw [hread, State.draw_snd_draws] at hdraws
  refine ⟨byteStep s, row.engineStep_eq, ?_, byteStep_i s, byteStep_cnt s, hdraws, by rw [byteStep_busy, hb]⟩
  rw [byteStep_j, hread, State.draw_fst]

/-! ## The look-up tables (R35, R37) -/

theorem rev_eq_none_iff_notMem {c : Config} {ch : Byte} : rev c ch = none ↔ ch ∉ c.alphabet.toList := by
  simp [rev]

/-- The characters of the alphabet are the entries of ALPHA. -/
theorem mem_alphabet_iff {c : Config} {ch : Byte} : ch ∈ c.alphabet.toList ↔ ∃ k : Sextet, alpha c k = ch := by
  constructor
  · intro h
    obtain ⟨n, hn, rfl⟩ := List.mem_iff_getElem.mp h
    have h64 : n < 64 := by simpa using hn
    refine ⟨BitVec.ofNat 6 n, ?_⟩
    simp only [alpha_eq_getElem, BitVec.toNat_ofNat, Nat.mod_eq_of_lt (show n < 2 ^ 6 from h64)]
  · rintro ⟨k, rfl⟩
    exact alpha_mem c k

/-- REV inverts ALPHA: the alphabet has no repeats, so the first place of a character is its place (R37). -/
theorem rev_alpha {c : Config} (hc : c.wf = true) (k : Sextet) : rev c (alpha c k) = some k := by
  rw [rev, if_pos (alpha_mem c k), alpha_eq_getElem, (configWf_nodup hc).idxOf_getElem]
  simp

/-- ALPHA inverts REV (R37). -/
theorem alpha_of_rev {c : Config} (hc : c.wf = true) {ch : Byte} {k : Sextet} (h : rev c ch = some k) :
    alpha c k = ch := by
  have hmem : ch ∈ c.alphabet.toList := by
    by_contra hn
    rw [rev_eq_none_iff_notMem.mpr hn] at h
    cases h
  obtain ⟨l, rfl⟩ := mem_alphabet_iff.mp hmem
  rw [rev_alpha hc] at h
  rw [Option.some.inj h]

/-- Settles O13: the two inverse laws and the valid octets at any parameters of R6, and the listed ranges of the default
alphabet by evaluating its table. -/
theorem reverseTableInvertsAlphabet : Obligations.ReverseTableInvertsAlphabet := by
  refine ⟨fun c hc => ⟨rev_alpha hc, fun _ _ => alpha_of_rev hc, fun ch => ?_⟩, ?_⟩
  · rw [rev_eq_none_iff_notMem, mem_alphabet_iff, not_exists]
  · refine ⟨by decide +kernel, by decide +kernel, by decide +kernel, by decide +kernel, by decide +kernel, ?_⟩
    decide +kernel

/-! ## The STATUS register and the state after reset (R41, R45) -/

/-- The fields of a byte laid out as R41 says. -/
theorem statusLayout_fields : ∀ (op err : BitVec 2) (done busy : Bool),
    let v := 0#2 ++ op ++ err ++ BitVec.ofBool done ++ BitVec.ofBool busy
    v.extractLsb' 0 1 = BitVec.ofBool busy ∧ v.extractLsb' 1 1 = BitVec.ofBool done ∧ v.extractLsb' 2 2 = err
      ∧ v.extractLsb' 4 2 = op ∧ v.extractLsb' 6 2 = 0#2 := by
  decide

/-- Settles O10. -/
theorem statusByteFields : Obligations.StatusByteFields :=
  ⟨fun s => statusLayout_fields (opcode s.op) (errNumber s.err) s.done s.busy, rfl, rfl, rfl, rfl⟩

/-- Settles O12: every register is written out by `State.resetWith`; the default parameters are checked by evaluation. -/
theorem resetStateValues : Obligations.ResetStateValues :=
  ⟨rfl, rfl, rfl, rfl, rfl, rfl, rfl, rfl, rfl, rfl, rfl, rfl, fun _ => rfl, fun _ => rfl, fun _ => rfl, rfl, rfl,
    by decide +kernel⟩

end Sys2Proof.Machine

/-! PROOF. The family 20_memory.md: what a host read and a host write do, BUSY or not. -/

namespace Sys2Proof.Machine

/-! ## A read turn (R59, R60) -/

/-- A read turn with an index its space has notes the value the rules give the port. -/
theorem step_of_read_value {s : State} {p : Port} {rest : List Turn} {v : Nat} (hs : s.script = .read p :: rest)
    (hr : p.inRange s.cfg = true) (hv : s.portValue p = some v) :
    step s = .next { s with script := rest, reads := s.reads ++ [⟨p, v⟩] } := by
  have hv' : { s with script := rest }.portValue p = some v := hv
  simp [step, fetch, hs, hostRead, hr, hv', State.record]

/-- A read turn of a port without a specified value notes the free value of its draw, of the read's width (R46). -/
theorem step_of_read_free {s : State} {p : Port} {rest : List Turn} (hs : s.script = .read p :: rest)
    (hr : p.inRange s.cfg = true) (hv : s.portValue p = none) :
    step s = .next { s with
      script := rest, draws := s.draws + 1
      reads := s.reads ++ [⟨p, (Config.freeValue (p.width s.cfg) s.draws).toNat⟩] } := by
  have hv' : { s with script := rest }.portValue p = none := hv
  simp [step, fetch, hs, hostRead, hr, hv', State.record, State.draw]

/-- The two kinds of read in one: only the turn, the reading and the count of draws change, and the rules say what is
noted. -/
theorem exists_step_of_read {s : State} {p : Port} {rest : List Turn} (hs : s.script = .read p :: rest)
    (hr : p.inRange s.cfg = true) :
    ∃ v d : Nat, step s = .next { s with script := rest, reads := s.reads ++ [⟨p, v⟩], draws := d }
      ∧ (∀ x, s.portValue p = some x → v = x)
      ∧ (s.portValue p = none → v = (Config.freeValue (p.width s.cfg) s.draws).toNat) := by
  cases hv : s.portValue p with
  | some x => exact ⟨x, s.draws, step_of_read_value hs hr hv, fun _ => Option.some.inj, nofun⟩
  | none => exact ⟨_, _, step_of_read_free hs hr hv, nofun, fun _ => rfl⟩

/-! ## The value of a port -/

/-- STATUS always has a value (R41, R59). -/
@[simp] theorem State.portValue_status (s : State) : s.portValue (.csr .status) = some s.status.toNat := by
  cases hb : s.busy <;> simp [State.portValue, hb]

/-- While BUSY no other port has one (R59). -/
theorem State.portValue_busy {s : State} (hb : s.busy = true) {p : Port} (hp : p ≠ .csr .status) :
    s.portValue p = none := by
  cases p with
  | csr r =>
    cases r with
    | status => exact absurd rfl hp
    | cmd => simp [State.portValue, hb]
    | ilen => simp [State.portValue, hb]
    | olen => simp [State.portValue, hb]
  | ibuf k => simp [State.portValue, hb]
  | obuf k => simp [State.portValue, hb]
  | sbox k => simp [State.portValue, hb]

/-- While BUSY the STATUS byte has DONE and ERR clear (R59). -/
theorem Inv.status_busy {s : State} (h : Inv s) (hb : s.busy = true) :
    s.status = 0#2 ++ opcode s.op ++ 0#2 ++ 0#1 ++ 1#1 := by
  obtain ⟨hdone, herr, -⟩ := h.busy_clear hb
  simp [State.status, hb, hdone, herr, errNumber]

section Idle
variable {s : State} (hb : s.busy = false)
include hb

theorem State.portValue_cmd : s.portValue (.csr .cmd) = some 0 := by simp [State.portValue, hb]

theorem State.portValue_ilen : s.portValue (.csr .ilen) = some s.ilen := by simp [State.portValue, hb]

theorem State.portValue_olen : s.portValue (.csr .olen) = some s.olen := by simp [State.portValue, hb]

theorem State.portValue_ibuf (k : Nat) : s.portValue (.ibuf k) = (s.ibuf.get k).map BitVec.toNat := by
  simp [State.portValue, hb]

theorem State.portValue_obuf (k : Nat) :
    s.portValue (.obuf k) = if k < s.olen then (s.obuf.get k).map BitVec.toNat else none := by
  simp [State.portValue, hb]

theorem State.portValue_sbox (k : Nat) : s.portValue (.sbox k) = (s.sbox.get k).map BitVec.toNat := by
  simp [State.portValue, hb]

/-- An entry of OBUF has no value past OLEN, and none where nothing is written (R60). -/
theorem State.portValue_obuf_none {k : Nat} (h : s.olen ≤ k ∨ s.obuf.get k = none) : s.portValue (.obuf k) = none := by
  rw [State.portValue_obuf hb]
  rcases h with hk | hk
  · exact if_neg (by omega)
  · simp [hk]

end Idle

/-! ## A write turn (R58, R59) -/

theorem step_of_write {s : State} {p : Port} {v : Nat} {rest : List Turn} (hs : s.script = .write p v :: rest) :
    step s = hostWrite { s with script := rest } p v := by
  simp [step, fetch, hs]

/-- While BUSY every write is ignored (R59). -/
theorem hostWrite_busy {s : State} {p : Port} {v : Nat} (hr : p.inRange s.cfg = true) (hb : s.busy = true) :
    hostWrite s p v = .next s := by
  simp [hostWrite, hr, hb]

/-- A write of a port that is neither CMD nor ILEN nor an entry of IBUF is ignored, BUSY or not (R58). -/
theorem hostWrite_readOnly {s : State} {p : Port} {v : Nat} (hr : p.inRange s.cfg = true) (hcmd : p ≠ .csr .cmd)
    (hilen : p ≠ .csr .ilen) (hibuf : ∀ k, p ≠ .ibuf k) : hostWrite s p v = .next s := by
  cases p with
  | csr r =>
    cases r with
    | cmd => exact absurd rfl hcmd
    | status => simp [hostWrite, hr]
    | ilen => exact absurd rfl hilen
    | olen => simp [hostWrite, hr]
  | ibuf k => exact absurd rfl (hibuf k)
  | obuf k => simp [hostWrite, hr]
  | sbox k => simp [hostWrite, hr]

theorem hostWrite_cmd {s : State} {v : Nat} (hb : s.busy = false) :
    hostWrite s (.csr .cmd) v = .next (s.accept (commandOf v)) := by
  simp [hostWrite, Port.inRange, hb]

theorem hostWrite_ilen {s : State} {v : Nat} (hb : s.busy = false) :
    hostWrite s (.csr .ilen) v = .next { s with ilen := v % 2 ^ s.cfg.lenw } := by
  simp [hostWrite, Port.inRange, hb]

theorem hostWrite_ibuf {s : State} {k v : Nat} (hr : (Port.ibuf k).inRange s.cfg = true) (hb : s.busy = false) :
    hostWrite s (.ibuf k) v = .next { s with ibuf := s.ibuf.set k (BitVec.ofNat 8 v) } := by
  simp [hostWrite, hr, hb]

/-! ## The statements -/

/-- Settles O7: three kinds of port take a write, and `hostWrite_readOnly` covers the rest; of a write of `IBUF[k]` the
rules of `Memory.set` say what each entry reads as. -/
theorem hostWriteWhileIdle : Obligations.HostWriteWhileIdle := by
  intro s p v rest hs hb hr
  rw [step_of_write hs]
  refine ⟨?cmd, ?ilen, ?ibuf, ?status, ?olen, ?obuf, ?sbox⟩
  case cmd => rintro rfl; exact hostWrite_cmd hb
  case ilen => rintro rfl; exact hostWrite_ilen hb
  case ibuf =>
    rintro k rfl
    exact ⟨_, hostWrite_ibuf hr hb, Memory.get_set_same .., fun l hl => Memory.get_set_other _ _ hl⟩
  case status => rintro rfl; exact hostWrite_readOnly hr nofun nofun nofun
  case olen => rintro rfl; exact hostWrite_readOnly hr nofun nofun nofun
  case obuf => rintro k rfl; exact hostWrite_readOnly hr nofun nofun nofun
  case sbox => rintro k rfl; exact hostWrite_readOnly hr nofun nofun nofun

/-- Settles O8: while BUSY only STATUS has a value, which the invariant gives, and every write is ignored. -/
theorem hostAccessWhileBusy : Obligations.HostAccessWhileBusy := by
  intro s rest h hb
  refine ⟨fun hs => ?_, fun p hs hr hp => ?_, fun p v hs hr => ?_⟩
  · rw [step_of_read_value hs rfl s.portValue_status, h.status_busy hb]
  · exact step_of_read_free hs hr (State.portValue_busy hb hp)
  · rw [step_of_write hs]; exact hostWrite_busy hr hb

/-- Settles O9: a read notes the port's value, or a free one where it has none; each clause says which port has what. -/
theorem hostReadWhileIdle : Obligations.HostReadWhileIdle := by
  intro s p rest hs hb hr
  obtain ⟨v, d, hstep, hval, hfree⟩ := exists_step_of_read hs hr
  refine ⟨v, d, hstep, ?cmd, ?status, ?ilen, ?olen, ?ibuf, ?obuf, ?sbox, ?ibufFree, ?obufFree, ?sboxFree⟩
  case cmd => rintro rfl; exact hval _ (State.portValue_cmd hb)
  case status => rintro rfl; exact hval _ s.portValue_status
  case ilen => rintro rfl; exact hval _ (State.portValue_ilen hb)
  case olen => rintro rfl; exact hval _ (State.portValue_olen hb)
  case ibuf => rintro k b rfl hk; exact hval _ (by simp [State.portValue_ibuf hb, hk])
  case obuf => rintro k b rfl hlt hk; exact hval _ (by simp [State.portValue_obuf hb, hlt, hk])
  case sbox => rintro k b rfl hk; exact hval _ (by simp [State.portValue_sbox hb, hk])
  case ibufFree => rintro k rfl hk; exact hfree (by simp [State.portValue_ibuf hb, hk])
  case obufFree => rintro k rfl hk; exact hfree (State.portValue_obuf_none hb hk)
  case sboxFree => rintro k rfl hk; exact hfree (by simp [State.portValue_sbox hb, hk])

/-- Settles O60: both accesses look at the index first. -/
theorem indexOutsideTheSpaceFaults : Obligations.IndexOutsideTheSpaceFaults := by
  intro s p v rest hr
  refine ⟨fun hs => ?_, fun hs => ?_⟩
  · simp [step, fetch, hs, hostRead, hr]
  · simp [step_of_write hs, hostWrite, hr]

end Sys2Proof.Machine

/-! PROOF. The family 30_encoding.md: the command word, acceptance, the rows of the sequencer, and the host-script lines
RUN and LOAD. -/

namespace Sys2Proof

/-! ## The command word (R70 to R72, R75, R79) -/

@[simp] theorem ofOpcode_opcode (i : Instr) : ofOpcode (opcode i) = i := by cases i <;> rfl

/-- Every value of the field is an opcode (R72). -/
@[simp] theorem opcode_ofOpcode (op : BitVec 2) : opcode (ofOpcode op) = op := by
  revert op; decide

@[simp] theorem opcode_decode (v : BitVec 8) : opcode (decode v) = v.extractLsb' 0 2 := opcode_ofOpcode _

/-- The decoder looks at bits 1:0 alone (R70). -/
@[simp] theorem decode_append (hi : BitVec 6) (op : BitVec 2) : decode (hi ++ op) = ofOpcode op :=
  congrArg ofOpcode BitVec.extractLsb'_append_eq_right

theorem decode_encode (i : Instr) : decode (encode i) = i := (decode_append _ _).trans (ofOpcode_opcode i)

theorem canonicalWord_encode (i : Instr) : canonicalWord (encode i) = true :=
  beq_iff_eq.mpr BitVec.extractLsb'_append_eq_left

theorem encode_decode {v : BitVec 8} (h : canonicalWord v = true) : encode (decode v) = v := by
  have hi : v.extractLsb' 2 6 = 0#6 := beq_iff_eq.mp h
  rw [encode, opcode_decode, ← hi]
  exact BitVec.extractLsb'_append_extractLsb'

/-- A value written to CMD is cut to its low 8 bits, so its two lowest bits are the opcode (R70). -/
theorem opcode_commandOf (v : Nat) : opcode (commandOf v) = BitVec.ofNat 2 v := by
  rw [commandOf, opcode_decode]
  apply BitVec.eq_of_toNat_eq
  simp only [BitVec.extractLsb'_toNat, BitVec.toNat_ofNat, Nat.shiftRight_zero]
  omega

end Sys2Proof

namespace Sys2Proof.Machine

/-- Settles O1: the decoder reads bits 1:0 alone, and cutting a value to 8 bits keeps them. -/
theorem commandWordStartsByLowBits : Obligations.CommandWordStartsByLowBits := by
  refine ⟨fun v => ⟨opcode_decode v, (decode_append _ _).symm⟩, fun v => ⟨?_, opcode_commandOf v⟩⟩
  exact congrArg decode (BitVec.eq_of_toNat_eq (Nat.mod_mod v 256).symm)

/-- Settles O2. -/
theorem encodeDecodeAgree : Obligations.EncodeDecodeAgree :=
  ⟨fun i _ => ⟨decode_encode i, canonicalWord_encode i⟩, fun _ => encode_decode⟩

/-- Settles O3: each word matches its command's row of the opcode table under the row's mask. -/
theorem wordsOfTheOpcodeMap : Obligations.WordsOfTheOpcodeMap := by
  obtain ⟨-, enc, -⟩ := Laws.OpcodeRow.b64enc
  obtain ⟨-, dec, -⟩ := Laws.OpcodeRow.b64dec
  obtain ⟨-, ksa, -⟩ := Laws.OpcodeRow.rc4ksa
  obtain ⟨-, prga, -⟩ := Laws.OpcodeRow.rc4prga
  exact ⟨(enc _).mpr rfl, (dec _).mpr rfl, (ksa _).mpr rfl, (prga _).mpr rfl, (enc _).mpr rfl⟩

/-! ## The turns that let the engine step, and acceptance (R74, R77, R80, R185) -/

/-- With no turn left the engine moves. -/
theorem step_of_empty {s : State} (hs : s.script = []) : step s = engineStep s := by simp [step, fetch, hs]

theorem step_of_engine {s : State} {rest : List Turn} (hs : s.script = .engine :: rest) :
    step s = engineStep { s with script := rest } := by simp [step, fetch, hs]

/-- While its poll sees BUSY a WAIT lets the engine step. -/
theorem step_of_wait_busy {s : State} {rest : List Turn} (hs : s.script = .wait :: rest) (hb : s.busy = true) :
    step s = engineStep s := by simp [step, fetch, hs, hb]

/-- The poll that sees DONE ends a WAIT and is noted. -/
theorem step_of_wait_done {s : State} {rest : List Turn} (hs : s.script = .wait :: rest) (hb : s.busy = false)
    (hd : s.done = true) :
    step s = .next { s with script := rest, reads := s.reads ++ [⟨.csr .status, s.status.toNat⟩] } := by
  have hread : step s = step { s with script := .read (.csr .status) :: rest } := by simp [step, fetch, hs, hb, hd]
  rw [hread]
  exact step_of_read_value rfl rfl (State.portValue_status _)

/-- Settles O5. -/
theorem engineStepsOnlyWhileBusy : Obligations.EngineStepsOnlyWhileBusy := by
  refine ⟨fun s hs _ => step_of_empty hs, fun s rest hs _ => step_of_engine hs, fun s hs hb => ?_,
    fun s rest hs hb => ?_⟩
  · rw [step_of_empty hs, engineStep_idle hb]
  · rw [step_of_engine hs]; exact engineStep_idle hb

/-- Settles O6: a write of CMD is an acceptance, the dispatch of a BUSY engine is by OP, and BUSY ignores every write.
-/
theorem commandWriteAccepted : Obligations.CommandWriteAccepted := by
  refine ⟨fun s v rest hs hb => ?_, fun s hb hd => ?_, fun s v rest hs hb => ?_⟩
  · rw [step_of_write hs]; exact hostWrite_cmd hb
  · exact (if_pos hb).trans (if_neg (Bool.eq_false_iff.mp hd))
  · rw [step_of_write hs]; exact hostWrite_busy rfl hb

/-! ## A BUSY engine has a row (R80) -/

/-- The sub-phase FILL is RC4KSA's alone (R30). -/
theorem AtRow.op_of_fill {s : State} {i : Instr} (hs : AtRow s i .fill) (hseq : SequencerOk s) : i = .rc4ksa := by
  cases i with
  | rc4ksa => rfl
  | b64enc | b64dec | rc4prga => simp [SequencerOk, hs.op, hs.sub] at hseq

/-- A sequencer state within the bounds of its sub-phase selects a row: a loop has one row below its bound and one at it.
-/
theorem AtRow.exists_engineRow {s : State} {i : Instr} {p : Sub} (hs : AtRow s i p) (hseq : SequencerOk s) :
    ∃ t, EngineRow s t := by
  cases p with
  | check =>
    cases i with
    | b64enc => exact ⟨_, .encStart hs⟩
    | b64dec =>
      cases hl : lengthBad s.ilen with
      | true => exact ⟨_, .decBadLength hs hl⟩
      | false => exact ⟨_, .decStart hs hl⟩
    | rc4ksa =>
      by_cases hl : s.ilen = 0
      · exact ⟨_, .keyEmpty hs hl⟩
      · exact ⟨_, .keyStart hs hl⟩
    | rc4prga => exact ⟨_, .strStart hs⟩
  | fill =>
    obtain rfl := hs.op_of_fill hseq
    obtain ⟨-, hc, -⟩ := hs.sequencerOk_fill.mp hseq
    obtain hlt | heq := hc.lt_or_eq
    · exact ⟨_, .keyFill hs hlt⟩
    · exact ⟨_, .keyFillEnd hs heq⟩
  | run =>
    cases i with
    | b64enc =>
      obtain hlt | heq := (hs.sequencerOk_encode.mp hseq).lt_or_eq
      · exact ⟨_, .encGroup hs hlt⟩
      · exact ⟨_, .encEnd hs heq⟩
    | b64dec =>
      obtain ⟨-, hc, -⟩ := hs.sequencerOk_decode.mp hseq
      obtain hlt | heq := hc.lt_or_eq
      · cases hv : unpackText s.cfg (s.readText s.cnt).1 with
        | none => exact ⟨_, .decBadText hs hlt hv⟩
        | some v => exact ⟨_, .decGroup v hs hlt hv⟩
      · exact ⟨_, .decEnd hs heq⟩
    | rc4ksa =>
      obtain ⟨-, hc, -⟩ := hs.sequencerOk_mix.mp hseq
      obtain hlt | heq := hc.lt_or_eq
      · exact ⟨_, .keyMix hs hlt⟩
      · exact ⟨_, .keyEnd hs heq⟩
    | rc4prga =>
      obtain hlt | heq := (hs.sequencerOk_stream.mp hseq).lt_or_eq
      · exact ⟨_, .strByte hs hlt⟩
      · exact ⟨_, .strEnd hs heq⟩

/-- Settles O51: the invariant keeps the sequencer at a row, and the engine takes the step of its row. -/
theorem busyEngineHasARow : Obligations.BusyEngineHasARow := by
  intro s h hb
  obtain ⟨hd, -⟩ := h.busy_clear hb
  have hs : AtRow s s.op s.sub := ⟨hb, hd, rfl, rfl⟩
  obtain ⟨t, row⟩ := hs.exists_engineRow (h.sequencer_ok hb)
  exact ⟨t, row.engineStep_eq⟩

/-! ## RUN, and CMD then WAIT (R78) -/

/-- A whole command on a block that is not BUSY completes: its last step is a completion or a `raise` (R80, R175). -/
theorem exec_completes {s : State} (hb : s.busy = false) (i : Instr) :
    ∃ t, exec i s = .next t ∧ t.busy = false ∧ t.done = true := by
  cases i with
  | b64enc =>
    simp only [exec, execB64enc, hb, Bool.false_eq_true, if_false]
    exact ⟨_, rfl, rfl, rfl⟩
  | b64dec =>
    simp only [exec, execB64dec, hb, Bool.false_eq_true, if_false]
    split_ifs
    · exact ⟨_, rfl, rfl, rfl⟩
    · obtain ⟨-, -, -, -, -, -, -, -, -, -, hbusy, hdone, -⟩ :=
        decodeLoop_keeps (decodeGroups s.ilen) (decodeSetup (s.accept .b64dec))
      exact ⟨_, rfl, hbusy, hdone⟩
  | rc4ksa =>
    simp only [exec, execRc4ksa, hb, Bool.false_eq_true, if_false]
    split_ifs <;> exact ⟨_, rfl, rfl, rfl⟩
  | rc4prga =>
    simp only [exec, execRc4prga, hb, Bool.false_eq_true, if_false]
    exact ⟨_, rfl, rfl, rfl⟩

/-- A run of the engine that ends begins with a step. -/
theorem exists_engineStep_of_engineRun {n : Nat} {s t : State} (h : engineRun (n + 1) s = .next t) :
    ∃ u, engineStep s = .next u ∧ engineRun n u = .next t := by
  simp only [engineRun] at h
  split at h
  · exact ⟨_, ‹_›, h⟩
  · cases h
  · cases h

/-- Under a WAIT the machine makes the steps of an engine run as long as the block is BUSY, and so reaches its end. -/
theorem core_run_of_engineRun {n : Nat} {u t : State} {rest : List Turn} (hs : u.script = .wait :: rest)
    (h : engineRun n u = .next t) : ∃ m, Sys2Proof.core.run m u = .next t := by
  induction n generalizing u with
  | zero => exact ⟨0, h⟩
  | succ n ih =>
    cases hb : u.busy with
    | false =>
      rw [engineRun_idle hb] at h
      exact ⟨0, h⟩
    | true =>
      obtain ⟨w, hstep, hrun⟩ := exists_engineStep_of_engineRun h
      obtain ⟨-, -, -, hscript, -⟩ := engineStep_kept hstep
      obtain ⟨m, hm⟩ := ih (hscript.trans hs) hrun
      exact ⟨m + 1, (core_run_succ ((step_of_wait_busy hs hb).trans hstep) m).trans hm⟩

/-- Settles O47: the turn RUN makes the whole command `exec`; a CMD write is its acceptance, and the WAIT makes the run
of the engine that `exec` is; the same poll then ends both. -/
theorem runIsCommandThenWait : Obligations.RunIsCommandThenWait := by
  intro s v rest hb
  let s₁ : State := { s with script := .wait :: rest }
  obtain ⟨t, he, hbusy, hdone⟩ := exec_completes (s := s₁) hb (commandOf v)
  obtain ⟨-, -, -, hscript, hreads, -⟩ := exec_kept he hb
  let u : State := { t with script := rest, reads := t.reads ++ [⟨.csr .status, t.status.toNat⟩] }
  have poll : Sys2Proof.core.run 1 t = .next u := core_run_succ (step_of_wait_done hscript hbusy hdone) 0
  have run : step { s with script := .run v :: rest } = .next t :=
    (step_of_run (s := { s with script := .run v :: rest }) rfl hb).trans he
  have write : step { s with script := .write (.csr .cmd) v :: .wait :: rest } = .next (s₁.accept (commandOf v)) :=
    (step_of_write rfl).trans (hostWrite_cmd hb)
  obtain ⟨n, hn⟩ := exec_eq_engineRun (s := s₁) hb (commandOf v)
  obtain ⟨m, hm⟩ := core_run_of_engineRun rfl (hn.trans he)
  refine ⟨m + 1 + 1, u, ?_, ?_, rfl, hbusy, hdone, congrArg (· ++ [⟨.csr .status, u.status.toNat⟩]) hreads⟩
  · exact (core_run_succ run 1).trans poll
  · rw [core_run_succ write, core_run_add m 1 _ _ hm, poll]

/-! ## LOAD (R77, R78) -/

/-- Settles O48: the octets are written from index 0 (`loadTurns_run`), and a length of at most IMAX fits ILEN. -/
theorem loadLineLoadsTheInput : Obligations.LoadLineLoadsTheInput := by
  intro s octets rest hb hlen
  have hpos : 0 < 2 ^ s.cfg.lenw := Nat.two_pow_pos _
  have hlt : octets.length < 2 ^ s.cfg.lenw := by rw [Config.imax] at hlen; omega
  let last : Turn := .write (.csr .ilen) octets.length
  obtain ⟨m, hrun, hget, hrest⟩ := loadTurns_run octets 0 s (last :: rest) hb
    (by rw [Config.ibufSize]; omega)
  have write : step { s with script := last :: rest, ibuf := m } =
      .next { s with script := rest, ibuf := m, ilen := octets.length } := by
    rw [step_of_write rfl]
    simp [hostWrite_ilen, hb, Nat.mod_eq_of_lt hlt]
  have turns : (Line.load octets).turns ++ rest = loadTurns 0 octets ++ last :: rest := List.append_assoc ..
  refine ⟨m, ?_, fun k hk => ?_, fun k hk => hrest k (by omega)⟩
  · rw [turns, core_run_add _ 1 _ _ hrun, core_run_succ write]
    rfl
  · rw [← hget k hk, Nat.zero_add]

end Sys2Proof.Machine

/-! PROOF. The family 40_base64.md: the characters, B64ENC, B64DEC, the round trip, and the two levels of each. -/

namespace Sys2Proof.Machine

/-! ## Characters (R6, R38, R114) -/

/-- Every alphabet entry is at most 0x7E (R6). -/
theorem configWf_toNat_le {c : Config} (hc : c.wf = true) {ch : Byte} (hch : ch ∈ c.alphabet.toList) :
    ch.toNat ≤ 0x7E := by
  simp only [Config.wf, Config.alphabetPrintable, Bool.and_eq_true, List.all_eq_true, decide_eq_true_eq] at hc
  obtain ⟨⟨⟨⟨-, hprint⟩, -⟩, -⟩, -⟩ := hc
  exact (hprint ch hch).2

theorem alpha_ne_pad {c : Config} (hc : c.wf = true) (k : Sextet) : alpha c k ≠ pad :=
  fun e => configWf_pad_notMem hc (e ▸ alpha_mem c k)

@[simp] theorem sextetValue_pad (c : Config) : sextetValue c pad = some 0#6 := if_pos rfl

theorem sextetValue_alpha {c : Config} (hc : c.wf = true) (k : Sextet) : sextetValue c (alpha c k) = some k :=
  (if_neg (alpha_ne_pad hc k)).trans (rev_alpha hc k)

/-- The invalid octets are those that are neither PAD nor an alphabet character (R114). -/
theorem sextetValue_eq_none_iff {c : Config} {ch : Byte} :
    sextetValue c ch = none ↔ ch ≠ pad ∧ ∀ k : Sextet, alpha c k ≠ ch := by
  by_cases h : ch = pad
  · simp [h]
  · rw [sextetValue, if_neg h, rev_eq_none_iff_notMem, mem_alphabet_iff, not_exists]
    exact ⟨fun hk => ⟨h, hk⟩, And.right⟩

/-- Settles O14: PAD is tested first and is no alphabet character; REV is valid on the alphabet characters, all of them
below 0x80. -/
theorem characterClassification : Obligations.CharacterClassification := by
  refine ⟨by decide +kernel, fun c hc => ⟨fun ch hch => ?_, sextetValue_pad c, ?_, sextetValue_alpha hc,
    fun ch => sextetValue_eq_none_iff⟩⟩
  · refine sextetValue_eq_none_iff.mpr ⟨?_, ?_⟩
    · rintro rfl; exact absurd hch (by decide)
    · rintro k rfl
      have := configWf_toNat_le hc (alpha_mem c k)
      omega
  · exact rev_eq_none_iff_notMem.mpr (configWf_pad_notMem hc)

/-! ## The text of a group (R100, R101, R104) -/

/-- The four characters of group `g`, by the number of bytes from its first one on. -/
theorem groupText_groupSize (c : Config) (acc : Group) (n g : Nat) :
    groupText c acc (groupSize n g) =
      [alpha c (acc.extractLsb' 18 6), alpha c (acc.extractLsb' 12 6),
        if n - 3 * g ≥ 2 then alpha c (acc.extractLsb' 6 6) else pad,
        if n - 3 * g ≥ 3 then alpha c (acc.extractLsb' 0 6) else pad] := by
  have h2 : 2 ≤ groupSize n g ↔ n - 3 * g ≥ 2 := by rw [groupSize]; omega
  have h3 : groupSize n g = 3 ↔ n - 3 * g ≥ 3 := by rw [groupSize]; omega
  simp only [groupText, h2, h3, sextetOf]

/-- PAD stands in the text of a group exactly where the rule puts it: no alphabet character is PAD. -/
theorem groupText_getElem?_eq_pad_iff {c : Config} (hc : c.wf = true) (acc : Group) (r : Nat) {m : Nat} (hm : m < 4) :
    (groupText c acc r)[m]? = some pad ↔ (m = 2 ∧ r < 2) ∨ (m = 3 ∧ r ≠ 3) := by
  have hne := alpha_ne_pad hc
  obtain rfl | rfl | rfl | rfl : m = 0 ∨ m = 1 ∨ m = 2 ∨ m = 3 := by omega
  · simp [groupText, hne]
  · simp [groupText, hne]
  · simp [groupText, hne]
  · simp [groupText, hne]

/-! ## B64ENC as a whole (R100 to R102) -/

/-- What a whole B64ENC from `s` leaves in `t`, `v g` being the 24-bit value it packed for group `g`. -/
structure Encoded (s : State) (v : Nat → Group) (t : State) : Prop where
  busy : t.busy = false
  done : t.done = true
  err : t.err = .none
  op : t.op = .b64enc
  olen : t.olen = 4 * ((s.ilen + 2) / 3)
  frame : t.cfg = s.cfg ∧ t.ilen = s.ilen ∧ t.i = s.i ∧ t.j = s.j ∧ t.nout = s.nout ∧ t.ibuf = s.ibuf
    ∧ t.sbox = s.sbox ∧ t.script = s.script ∧ t.reads = s.reads
  text : ∀ g < (s.ilen + 2) / 3, ∀ m < 4,
    t.obuf.get (4 * g + m) = (groupText s.cfg (v g) (groupSize s.ilen g))[m]?
  above : ∀ k, 4 * ((s.ilen + 2) / 3) ≤ k → t.obuf.get k = s.obuf.get k
  loaded : ∀ b : Nat → Byte, (∀ k < s.ilen, s.ibuf.get k = some (b k)) →
    ∀ g < (s.ilen + 2) / 3, v g = groupValue b s.ilen g

/-- A whole B64ENC is its loop of groups and the completion. -/
theorem exists_encoded {s : State} (hb : s.busy = false) :
    ∃ t v, exec .b64enc s = .next t ∧ Encoded s v t := by
  obtain ⟨v, htext, habove, hloaded⟩ := encodeLoop_obuf s (encodeGroups s.ilen)
  obtain ⟨hcnt, hcfg, hilen, hi, hj, hnout, hibuf, hsbox, hscript, hreads, hop⟩ :=
    encodeLoop_keeps s (encodeGroups s.ilen)
  refine ⟨encodeFinish (repeatStep (encodeGroups s.ilen) encodeStep (s.accept .b64enc).enterRun), v, ?_, ?_⟩
  · simp [exec, execB64enc, hb]
  · exact
      { busy := rfl, done := rfl, err := rfl, op := hop, olen := congrArg (4 * ·) hcnt
        frame := ⟨hcfg, hilen, hi, hj, hnout, hibuf, hsbox, hscript, hreads⟩
        text := htext, above := habove, loaded := fun b hl => (hloaded b hl le_rfl).1 }

/-- The text of a loaded group. -/
theorem Encoded.text_loaded {s t : State} {v : Nat → Group} (h : Encoded s v t) {b : Nat → Byte}
    (hl : ∀ k < s.ilen, s.ibuf.get k = some (b k)) {g m : Nat} (hg : g < (s.ilen + 2) / 3) (hm : m < 4) :
    t.obuf.get (4 * g + m) = (groupText s.cfg (groupValue b s.ilen g) (groupSize s.ilen g))[m]? := by
  rw [h.text g hg m hm, h.loaded b hl g hg]

/-- Every entry of the text is written. -/
theorem Encoded.isSome_text {s t : State} {v : Nat → Group} (h : Encoded s v t) {k : Nat} (hk : k < t.olen) :
    (t.obuf.get k).isSome := by
  rw [h.olen] at hk
  have hm : k % 4 < 4 := Nat.mod_lt _ (by omega)
  rw [← Nat.div_add_mod k 4, h.text (k / 4) (by omega) (k % 4) hm, List.getElem?_eq_getElem hm]
  rfl

/-- Where PAD stands in the text (R101). -/
theorem Encoded.eq_pad_iff {s t : State} {v : Nat → Group} (h : Encoded s v t) (hc : s.cfg.wf = true) {k : Nat}
    (hk : k < t.olen) :
    t.obuf.get k = some pad ↔ (s.ilen % 3 = 1 ∧ k + 2 = t.olen) ∨ (s.ilen % 3 ≠ 0 ∧ k + 1 = t.olen) := by
  rw [h.olen] at hk ⊢
  have hm : k % 4 < 4 := Nat.mod_lt _ (by omega)
  have hget := h.text (k / 4) (by omega) (k % 4) hm
  rw [Nat.div_add_mod] at hget
  rw [hget, groupText_getElem?_eq_pad_iff hc _ _ hm, groupSize]
  omega

/-- Settles O15. -/
theorem encodeWritesTheText : Obligations.EncodeWritesTheText := by
  intro s b hb hl
  obtain ⟨t, v, he, h⟩ := exists_encoded hb
  refine ⟨t, he, h.busy, h.done, h.err, h.op, h.olen, fun g hg => ?_⟩
  have text := fun m hm => h.text_loaded hl (m := m) hg hm
  simp only [groupText_groupSize] at text
  exact ⟨text 0 (by omega), text 1 (by omega), text 2 (by omega), text 3 (by omega)⟩

/-- Settles O16: OBUF is twice the size of IBUF, and four characters for three bytes fit it. -/
theorem encodePaddingLaw : Obligations.EncodePaddingLaw := by
  intro s hb hc
  obtain ⟨t, v, he, h⟩ := exists_encoded hb
  refine ⟨t, he, h.err, h.done, h.busy, h.olen, fun hmax => ?_, fun k hk => ⟨h.isSome_text hk, h.eq_pad_iff hc hk⟩⟩
  have hN : 2 ^ 3 ≤ 2 ^ s.cfg.lenw := Nat.pow_le_pow_right (by omega) (configWf_lenw hc)
  rw [Config.imax] at hmax
  rw [h.olen, Config.obufSize, Nat.pow_succ]
  omega

/-- Settles O17. -/
theorem encodeFrame : Obligations.EncodeFrame := by
  intro s hb
  obtain ⟨t, v, he, h⟩ := exists_encoded hb
  obtain ⟨hcfg, hilen, hi, hj, hnout, hibuf, hsbox, hscript, hreads⟩ := h.frame
  exact ⟨t, he, hcfg, hilen, hi, hj, hnout, hibuf, hsbox, hscript, hreads, h.above⟩

/-- A read inside a list written. -/
theorem Memory.get_setList_add (m : Memory) (a : Nat) (bs : List Byte) {i : Nat} (hi : i < bs.length) :
    (m.setList a bs).get (a + i) = bs[i]? := by
  rw [Memory.get_setList, if_pos ⟨Nat.le_add_right .., Nat.add_lt_add_left hi _⟩, Nat.add_sub_cancel_left]

/-- The group step on a loaded input: its reads change nothing (R104). -/
theorem encodeStep_loaded {s : State} {b : Nat → Byte} (hl : ∀ k < s.ilen, s.ibuf.get k = some (b k))
    (hc : s.cnt < (s.ilen + 2) / 3) :
    encodeStep s = { s with
      acc := groupValue b s.ilen s.cnt, cnt := s.cnt + 1
      obuf := s.obuf.setList (4 * s.cnt) (groupText s.cfg (groupValue b s.ilen s.cnt) (groupSize s.ilen s.cnt)) } := by
  simp only [encodeStep, State.packInput_loaded hl (g := s.cnt) (by omega)]

/-- Settles O18. -/
theorem encodeGroupStep : Obligations.EncodeGroupStep := by
  intro s b hb hd hop hsub hc hl
  have row : EngineRow s (encodeStep s) := .encGroup ⟨hb, hd, hop, hsub⟩ hc
  refine ⟨_, row.engineStep_eq.trans (congrArg _ (encodeStep_loaded hl hc)), ?_⟩
  rw [groupText_groupSize]
  exact ⟨Memory.get_setList_add _ _ _ (i := 0) (by simp), Memory.get_setList_add _ _ _ (i := 1) (by simp),
    Memory.get_setList_add _ _ _ (i := 2) (by simp), Memory.get_setList_add _ _ _ (i := 3) (by simp),
    fun k hk => Memory.get_setList_outside _ _ _ hk⟩

/-! ## B64DEC as a whole (R110 to R117, R123) -/

/-- A whole B64DEC of a text of bad length is its acceptance and a `raise` (R112). -/
theorem exec_b64dec_badLength {s : State} (hb : s.busy = false) (hl : s.ilen = 0 ∨ s.ilen % 4 ≠ 0) :
    exec .b64dec s = .next ((s.accept .b64dec).raise .invalidLength) := by
  have hbad := (lengthBad_eq_true _).mpr hl
  simp only [exec, execB64dec, hb, hbad, Bool.false_eq_true, if_false, if_true]

/-- The CHECK step of such a text is the `raise` alone (R112). -/
theorem EngineRow.of_badLength {s : State} (hs : AtRow s .b64dec .check) (hl : s.ilen = 0 ∨ s.ilen % 4 ≠ 0) :
    EngineRow s (s.raise .invalidLength) :=
  .decBadLength hs ((lengthBad_eq_true _).mpr hl)

/-- Settles O19. -/
theorem decodeInvalidLength : Obligations.DecodeInvalidLength :=
  ⟨fun _ hb hl => exec_b64dec_badLength hb hl,
    fun _ hb hd hop hsub hl => (EngineRow.of_badLength ⟨hb, hd, hop, hsub⟩ hl).engineStep_eq⟩

/-- A whole B64DEC of a text of valid length is its set-up and its loop of groups. -/
theorem exec_b64dec_eq {s : State} (hb : s.busy = false) (hne : s.ilen ≠ 0) (hmod : s.ilen % 4 = 0) :
    exec .b64dec s = .next (decodeLoop (s.ilen / 4) (decodeSetup (s.accept .b64dec))) := by
  have hok := (lengthBad_eq_false _).mpr ⟨hne, hmod⟩
  simp only [exec, execB64dec, hb, hok, Bool.false_eq_true, if_false, decodeGroups]

/-- Settles O22: the set-up writes NOUT and SUB, and `decodeLoop_keeps` and `decodeLoop_obuf` say what the groups leave
alone. -/
theorem decodeFrame : Obligations.DecodeFrame := by
  intro s hb
  by_cases hl : s.ilen = 0 ∨ s.ilen % 4 ≠ 0
  · exact ⟨_, exec_b64dec_badLength hb hl, rfl, rfl, rfl, rfl, rfl, rfl, rfl, rfl, rfl, rfl, .inr rfl,
      fun _ => ⟨rfl, rfl, rfl⟩, fun hne hmod => absurd hl (by omega)⟩
  · obtain ⟨hcfg, hilen, hi, hj, hibuf, hsbox, hscript, hreads, -, hnout, hbusy, hdone, -⟩ :=
      decodeLoop_keeps (s.ilen / 4) (decodeSetup (s.accept .b64dec))
    obtain ⟨-, -, hend, hobuf⟩ := decodeLoop_obuf (s.ilen / 4) (decodeSetup (s.accept .b64dec))
    rw [← hnout] at hobuf
    simp only [decodeSetup_cfg, decodeSetup_ilen, decodeSetup_i, decodeSetup_j, decodeSetup_ibuf, decodeSetup_sbox,
      decodeSetup_script, decodeSetup_reads, decodeSetup_obuf] at hcfg hilen hi hj hibuf hsbox hscript hreads hobuf
    refine ⟨_, exec_b64dec_eq hb (by omega) (by omega), hbusy, hdone, hcfg, hilen, hi, hj, hibuf, hsbox, hscript,
      hreads, hend.imp And.left And.right, fun h => absurd h hl, fun _ _ => ⟨?_, fun k hk => hobuf k (.inr hk)⟩⟩
    rw [hnout, decodeSetup_nout, State.accept_ilen, decodeGroups]
    omega

/-- What a whole B64DEC of a loaded text of valid length leaves: InvalidCharacter and no output when a group is
invalid, and otherwise the bytes of every group below the output length. -/
theorem exec_b64dec_loaded {s : State} {text : Nat → Byte} (hb : s.busy = false) (hne : s.ilen ≠ 0)
    (hmod : s.ilen % 4 = 0) (hl : ∀ k < s.ilen, s.ibuf.get k = some (text k)) :
    ∃ t, exec .b64dec s = .next t ∧ t.busy = false ∧ t.done = true ∧ t.op = .b64dec
      ∧ ((∃ g < s.ilen / 4, unpackText s.cfg (textGroup text g) = none) → t.err = .invalidCharacter ∧ t.olen = 0)
      ∧ ((∀ g < s.ilen / 4, (unpackText s.cfg (textGroup text g)).isSome) →
        t.err = .none ∧ t.olen = decodedLength text s.ilen
          ∧ ∀ g < s.ilen / 4, ∃ v, unpackText s.cfg (textGroup text g) = some v
            ∧ ∀ m < 3, 3 * g + m < t.olen → t.obuf.get (3 * g + m) = some (byteOf v m)) := by
  have hnout : (decodeSetup (s.accept .b64dec)).nout = decodedLength text s.ilen :=
    congrArg State.nout (decodeSetup_loaded (s := s.accept .b64dec) hl (show 2 ≤ s.ilen by omega))
  obtain ⟨-, -, -, -, -, -, -, -, hop, -, hbusy, hdone, -⟩ :=
    decodeLoop_keeps (s.ilen / 4) (decodeSetup (s.accept .b64dec))
  obtain ⟨-, -, hend, -⟩ := decodeLoop_obuf (s.ilen / 4) (decodeSetup (s.accept .b64dec))
  obtain ⟨-, hbad, hgood⟩ := decodeLoop_loaded (s.ilen / 4) (decodeSetup (s.accept .b64dec)) text (by simpa using hl)
    (by simp)
  simp only [decodeSetup_cfg, State.accept_cfg, decodeSetup_cnt, State.accept_cnt, Nat.zero_le, Nat.zero_add, true_and,
    forall_const, hnout] at hend hbad hgood
  refine ⟨_, exec_b64dec_eq hb hne hmod, hbusy, hdone, by simpa using hop, fun hinvalid => ?_, fun hvalid => ?_⟩
  · obtain ⟨hnone, -⟩ | ⟨herr, holen⟩ := hend
    · cases (hbad hinvalid).symm.trans hnone
    · exact ⟨herr, holen⟩
  · obtain ⟨herr, hbytes⟩ := hgood hvalid
    obtain ⟨-, holen, -⟩ | ⟨hbad', -⟩ := hend
    · exact ⟨herr, holen, holen.symm ▸ hbytes⟩
    · cases herr.symm.trans hbad'

/-- A group is invalid when one of the characters at its four indices is (R116). -/
theorem unpackText_textGroup_eq_none_iff {c : Config} {text : Nat → Byte} {g : Nat} :
    unpackText c (textGroup text g) = none ↔ ∃ n < 4, sextetValue c (text (4 * g + n)) = none := by
  rw [unpackText_eq_none]
  constructor
  · rintro (h | h | h | h)
    · exact ⟨0, by omega, h⟩
    · exact ⟨1, by omega, h⟩
    · exact ⟨2, by omega, h⟩
    · exact ⟨3, by omega, h⟩
  · rintro ⟨n, hn, h⟩
    obtain rfl | rfl | rfl | rfl : n = 0 ∨ n = 1 ∨ n = 2 ∨ n = 3 := by omega
    · exact .inl h
    · exact .inr (.inl h)
    · exact .inr (.inr (.inl h))
    · exact .inr (.inr (.inr h))

/-- Settles O20: an invalid octet makes its group invalid, and only such an octet does. -/
theorem decodeInvalidCharacter : Obligations.DecodeInvalidCharacter := by
  refine ⟨fun s text hb hne hmod hl => ?_, fun s text hb hd hop hsub hc hl hbad => ?_⟩
  · obtain ⟨t, he, hbusy, hdone, hop, hbad, hgood⟩ := exec_b64dec_loaded hb hne hmod hl
    refine ⟨t, he, hbusy, hdone, hop, ?_, fun hall => ?_⟩
    · rintro ⟨k, hk, hinvalid⟩
      refine hbad ⟨k / 4, by omega, unpackText_textGroup_eq_none_iff.mpr ⟨k % 4, by omega, ?_⟩⟩
      rw [Nat.div_add_mod]
      exact sextetValue_eq_none_iff.mpr hinvalid
    · refine (hgood ((characters_valid_iff hmod).mp fun k hk => ?_)).1
      rw [Option.isSome_iff_ne_none, ne_eq, sextetValue_eq_none_iff]
      rintro ⟨hpad, halpha⟩
      exact (hall k hk).elim hpad fun ⟨n, hn⟩ => halpha n hn
  · have hread := State.readText_loaded hl (g := s.cnt) (by omega)
    have row : EngineRow s ((s.readText s.cnt).2.raise .invalidCharacter) :=
      .decBadText ⟨hb, hd, hop, hsub⟩ hc (by rw [hread]; exact unpackText_textGroup_eq_none_iff.mpr hbad)
    rw [row.engineStep_eq, hread]
    rfl

/-- The output length of a valid text is at least 1. -/
theorem decodedLength_pos (text : Nat → Byte) {n : Nat} (hne : n ≠ 0) (hmod : n % 4 = 0) :
    1 ≤ decodedLength text n := by
  have h1 := padCount_le_one (text (n - 1))
  have h2 := padCount_le_one (text (n - 2))
  rw [decodedLength, decodeGroups]
  omega

/-- Settles O21. -/
theorem decodeWritesTheBytes : Obligations.DecodeWritesTheBytes := by
  intro s text hb hne hmod hl hvalid
  obtain ⟨t, he, hbusy, hdone, hop, -, hgood⟩ := exec_b64dec_loaded hb hne hmod hl
  obtain ⟨herr, holen, hbytes⟩ := hgood ((characters_valid_iff hmod).mp hvalid)
  refine ⟨t, he, hbusy, hdone, herr, hop, holen, holen ▸ decodedLength_pos text hne hmod, fun g hg => ?_⟩
  obtain ⟨v, hv, hget⟩ := hbytes g hg
  obtain ⟨x, y, z, w, hx, hy, hz, hw, rfl⟩ := unpackText_eq_some hv
  exact ⟨x, y, z, w, hx, hy, hz, hw, hget 0 (by omega), hget 1 (by omega), hget 2 (by omega)⟩

/-- Four characters with a sextet each make a group. -/
theorem unpackText_of_sextetValue {c : Config} {t : Byte × Byte × Byte × Byte} {a b d e : Sextet}
    (ha : sextetValue c t.1 = some a) (hb : sextetValue c t.2.1 = some b) (hd : sextetValue c t.2.2.1 = some d)
    (he : sextetValue c t.2.2.2 = some e) : unpackText c t = some (a ++ b ++ d ++ e) := by
  simp only [unpackText, ha, hb, hd, he]

/-- Settles O23: `decodeStep_get` says what each entry of OBUF reads as, and the statement lists its three indices. -/
theorem decodeGroupStep : Obligations.DecodeGroupStep := by
  intro s text hb hd hop hsub hc hl x y z w hx hy hz hw
  have hread := State.readText_loaded hl (g := s.cnt) (by omega)
  have row : EngineRow s (decodeStep (x ++ y ++ z ++ w) (s.readText s.cnt).2) :=
    .decGroup _ ⟨hb, hd, hop, hsub⟩ hc (by rw [hread]; exact unpackText_of_sextetValue hx hy hz hw)
  rw [row.engineStep_eq, hread]
  refine ⟨_, rfl, fun k => (decodeStep_get _ s k).trans ?_⟩
  by_cases hk : 3 * s.cnt ≤ k ∧ k < 3 * s.cnt + 3 ∧ k < s.nout
  · obtain ⟨hlo, hhi, hnout⟩ := hk
    obtain ⟨m, rfl⟩ := Nat.exists_eq_add_of_le hlo
    obtain rfl | rfl | rfl : m = 0 ∨ m = 1 ∨ m = 2 := by omega
    · simp [byteOf]
    · simp [hnout, byteOf]
    · simp [hnout, byteOf]
  · rw [if_neg hk, if_neg (by omega), if_neg (by omega), if_neg (by omega)]

/-- Settles O24. -/
theorem decodeLengthStep : Obligations.DecodeLengthStep := by
  intro s text hb hd hop hsub hne hmod hl
  have row : EngineRow s (decodeSetup s) :=
    .decStart ⟨hb, hd, hop, hsub⟩ ((lengthBad_eq_false _).mpr ⟨hne, hmod⟩)
  rw [row.engineStep_eq, decodeSetup_loaded hl (by omega)]
  exact ⟨rfl, decodedLength_pos text hne hmod⟩

/-! ## The round trip (R118) -/

/-- The four sextets of a group joined are the group. -/
theorem sextets_append (v : Group) : sextetOf v 0 ++ sextetOf v 1 ++ sextetOf v 2 ++ sextetOf v 3 = v := by
  simp only [sextetOf]
  rw [BitVec.extractLsb'_append_extractLsb'_eq_extractLsb' (by rfl),
    BitVec.extractLsb'_append_extractLsb'_eq_extractLsb' (by rfl),
    BitVec.extractLsb'_append_extractLsb'_eq_extractLsb' (by rfl)]
  exact BitVec.extractLsb'_eq_self

theorem byteOf_append (x y z : Byte) :
    byteOf (x ++ y ++ z) 0 = x ∧ byteOf (x ++ y ++ z) 1 = y ∧ byteOf (x ++ y ++ z) 2 = z :=
  ⟨(BitVec.extractLsb'_append_eq_of_le (by decide)).trans BitVec.extractLsb'_append_eq_left,
    (BitVec.extractLsb'_append_eq_of_le (by decide)).trans BitVec.extractLsb'_append_eq_right,
    BitVec.extractLsb'_append_eq_right⟩

theorem sextetOf_two_of_one_byte (x : Byte) : sextetOf (x ++ 0#8 ++ 0#8) 2 = 0#6 := by
  have h : x ++ 0#8 ++ 0#8 = (x ++ 0#16 : Group) := BitVec.append_assoc
  rw [sextetOf, h, BitVec.extractLsb'_append_eq_of_add_le (by decide)]
  rfl

theorem sextetOf_three_of_two_bytes (x y : Byte) : sextetOf (x ++ y ++ 0#8) 3 = 0#6 :=
  BitVec.extractLsb'_append_eq_of_add_le (by decide)

/-- The bytes of a group value are the bytes packed. -/
theorem byteOf_groupValue (b : Nat → Byte) {n g m : Nat} (hm : m < groupSize n g) :
    byteOf (groupValue b n g) m = b (3 * g + m) := by
  have h3 : groupSize n g ≤ 3 := by rw [groupSize]; omega
  rw [groupValue]
  obtain ⟨hx, hy, hz⟩ := byteOf_append (b (3 * g)) (if 2 ≤ groupSize n g then b (3 * g + 1) else 0#8)
    (if groupSize n g = 3 then b (3 * g + 2) else 0#8)
  obtain rfl | rfl | rfl : m = 0 ∨ m = 1 ∨ m = 2 := by omega
  · exact hx
  · exact hy.trans (if_pos hm)
  · exact hz.trans (if_pos (by omega))

/-- Decoding a character of a group's text gives the sextet it was made of: PAD stands for a sextet of zeros. -/
theorem sextetValue_of_groupText {c : Config} (hc : c.wf = true) (b : Nat → Byte) {n g m : Nat} (hm : m < 4) {ch : Byte}
    (h : (groupText c (groupValue b n g) (groupSize n g))[m]? = some ch) :
    sextetValue c ch = some (sextetOf (groupValue b n g) m) := by
  obtain rfl | rfl | rfl | rfl : m = 0 ∨ m = 1 ∨ m = 2 ∨ m = 3 := by omega
  · obtain rfl := Option.some.inj h; exact sextetValue_alpha hc _
  · obtain rfl := Option.some.inj h; exact sextetValue_alpha hc _
  · obtain rfl := Option.some.inj h
    by_cases h2 : 2 ≤ groupSize n g
    · rw [if_pos h2]; exact sextetValue_alpha hc _
    · rw [if_neg h2, sextetValue_pad, groupValue, if_neg h2, if_neg (by omega), sextetOf_two_of_one_byte]
  · obtain rfl := Option.some.inj h
    by_cases h3 : groupSize n g = 3
    · rw [if_pos h3]; exact sextetValue_alpha hc _
    · rw [if_neg h3, sextetValue_pad, groupValue, if_neg h3, sextetOf_three_of_two_bytes]

section RoundTrip
variable {s t : State} {v : Nat → Group} {text : Nat → Byte} (h : Encoded s v t) (hc : s.cfg.wf = true)
  (htext : ∀ k < t.olen, t.obuf.get k = some (text k))
include h hc htext

/-- A group of an encoding decodes to the value encoded. -/
theorem Encoded.unpackText_textGroup {b : Nat → Byte} (hl : ∀ k < s.ilen, s.ibuf.get k = some (b k)) {g : Nat}
    (hg : g < (s.ilen + 2) / 3) : unpackText s.cfg (textGroup text g) = some (groupValue b s.ilen g) := by
  have holen := h.olen
  have value : ∀ m < 4, sextetValue s.cfg (text (4 * g + m)) = some (sextetOf (groupValue b s.ilen g) m) :=
    fun m hm => sextetValue_of_groupText hc b hm ((h.text_loaded hl hg hm).symm.trans (htext _ (by omega)))
  rw [unpackText_of_sextetValue (value 0 (by omega)) (value 1 (by omega)) (value 2 (by omega)) (value 3 (by omega)),
    sextets_append]

/-- The PADs of an encoding are counted off the decoded length again. -/
theorem Encoded.decodedLength_eq (hpos : 1 ≤ s.ilen) : decodedLength text t.olen = s.ilen := by
  have holen := h.olen
  have hpad : ∀ k < t.olen, text k = pad ↔ (s.ilen % 3 = 1 ∧ k + 2 = t.olen) ∨ (s.ilen % 3 ≠ 0 ∧ k + 1 = t.olen) :=
    fun k hk => by rw [← h.eq_pad_iff hc hk, htext k hk, Option.some.injEq]
  have hlast := hpad (t.olen - 1) (by omega)
  have hbefore := hpad (t.olen - 2) (by omega)
  simp only [decodedLength, decodeGroups, padCount, hlast, hbefore]
  split_ifs <;> omega

end RoundTrip

/-- Settles O25: every group of the encoding is valid and decodes to the value encoded, the bytes of that value are the
bytes packed, and the PADs give the length back. -/
theorem decodeInvertsEncode : Obligations.DecodeInvertsEncode := by
  refine ⟨fun s hb hl => ?_, fun s b hb hc hpos _ hl => ?_⟩
  · obtain ⟨t, v, he, h⟩ := exists_encoded hb
    have holen : t.olen = 0 := by rw [h.olen, hl]
    exact ⟨t, he, h.err, holen, fun u hu hi => ⟨_, exec_b64dec_badLength hu (.inl (hi.trans holen)), rfl⟩⟩
  · obtain ⟨t, v, he, h⟩ := exists_encoded hb
    have holen := h.olen
    refine ⟨t, he, fun u hu hcfg hilen hibuf => ?_⟩
    choose! text htext using fun k hk => Option.isSome_iff_exists.mp (h.isSome_text (k := k) hk)
    have value : ∀ g < u.ilen / 4, unpackText u.cfg (textGroup text g) = some (groupValue b s.ilen g) := fun g hg => by
      rw [hcfg]; exact h.unpackText_textGroup hc htext hl (by omega)
    obtain ⟨w, hw, -, -, -, -, hgood⟩ := exec_b64dec_loaded (text := text) hu (by omega) (by omega)
      fun k hk => (hibuf k (hilen ▸ hk)).trans (htext k (hilen ▸ hk))
    obtain ⟨herr, hlen, hbytes⟩ := hgood fun g hg => Option.isSome_of_eq_some (value g hg)
    rw [hilen, h.decodedLength_eq hc htext hpos] at hlen
    refine ⟨w, hw, herr, hlen, fun k hk => ?_⟩
    obtain ⟨x, hx, hget⟩ := hbytes (k / 3) (by omega)
    obtain rfl := Option.some.inj (hx.symm.trans (value (k / 3) (by omega)))
    have hk3 := hget (k % 3) (by omega) (by omega)
    rwa [byteOf_groupValue b (by rw [groupSize]; omega), Nat.div_add_mod] at hk3

/-! ## The two levels of a command (R10, R107, R122) -/

/-- The group loop stays at the row of a group (R104). -/
theorem encodeLoop_row (s : State) (k : Nat) :
    AtRow (repeatStep k encodeStep (s.accept .b64enc).enterRun) .b64enc .run :=
  (AtRow.of_rowKey ⟨rfl, rfl, rfl, rfl⟩
    (repeatStep_keeps rowKey (fun t => by simp [rowKey]) k (s.accept .b64enc).enterRun)).1

/-- Settles O43: before the completion the engine has made the CHECK step and some of the groups, and is BUSY. -/
theorem encodeStepsAgree : Obligations.EncodeStepsAgree := by
  refine fun s hb => ⟨engineRun_b64enc hb, fun m hm => ?_⟩
  have start : EngineRow (s.accept .b64enc) (s.accept .b64enc).enterRun := .encStart (.accept s _)
  cases m with
  | zero => exact ⟨_, rfl, rfl⟩
  | succ k =>
    refine ⟨_, engineRun_trace start.engineStep_eq (n := encodeGroups s.ilen) (fun j hj => ?_) k (by
      rw [encodeGroups]; omega), (encodeLoop_row s k).busy⟩
    obtain ⟨hcnt, -, hilen, -⟩ := encodeLoop_keeps s j
    exact (EngineRow.encGroup (encodeLoop_row s j) (by rw [hcnt, hilen]; exact hj)).engineStep_eq

/-- Settles O44: a bad length ends the command in its CHECK step; after the set-up step `engineRun_decodeLoop` says how
long a decode with no error is BUSY. -/
theorem decodeStepsAgree : Obligations.DecodeStepsAgree := by
  refine fun s hb => ⟨engineRun_b64dec hb, fun t ht herr m hm => ?_, fun hl => ?_⟩
  · by_cases hl : s.ilen = 0 ∨ s.ilen % 4 ≠ 0
    · rw [exec_b64dec_badLength hb hl] at ht
      cases ht; cases herr
    · have start : EngineRow (s.accept .b64dec) (decodeSetup (s.accept .b64dec)) :=
        .decStart (.accept s _) (by simpa [lengthBad] using hl)
      rw [exec_b64dec_eq hb (by omega) (by omega)] at ht
      cases ht
      cases m with
      | zero => exact ⟨_, rfl, rfl⟩
      | succ k =>
        rw [engineRun_step start.engineStep_eq]
        exact (engineRun_decodeLoop _ _ (by simp) (by simp) (by simp) (by simp) (by simp) (by simp)).2 herr k (by omega)
  · rw [exec_b64dec_badLength hb hl]
    exact engineRun_step (EngineRow.of_badLength (.accept s _) hl).engineStep_eq 0

/-! ## The other rows (R103, R105, R117, R136, R148, R150) -/

/-- Settles O40. -/
theorem checkStepsThatPass : Obligations.CheckStepsThatPass := by
  refine ⟨fun s hb hd hop hsub => ?_, fun s hb hd hop hsub hmode => ?_, fun s hb hd hop hsub hmode => ?_⟩
  · exact (EngineRow.encStart ⟨hb, hd, hop, hsub⟩).engineStep_eq
  · rw [(EngineRow.strStart ⟨hb, hd, hop, hsub⟩).engineStep_eq, cursorSetup, if_neg (by simp [hmode])]
    rfl
  · rw [(EngineRow.strStart ⟨hb, hd, hop, hsub⟩).engineStep_eq, cursorSetup, if_pos hmode]
    rfl

/-- Settles O41. -/
theorem completionSteps : Obligations.CompletionSteps := by
  refine fun s hb hd hsub => ⟨fun hop hc => ?_, fun hop hc => ?_, fun hop hc => ?_, fun hop hc => ?_⟩
  · exact (EngineRow.encEnd ⟨hb, hd, hop, hsub⟩ hc).engineStep_eq
  · exact (EngineRow.decEnd ⟨hb, hd, hop, hsub⟩ hc).engineStep_eq
  · exact (EngineRow.keyEnd ⟨hb, hd, hop, hsub⟩ hc).engineStep_eq
  · exact (EngineRow.strEnd ⟨hb, hd, hop, hsub⟩ hc).engineStep_eq

end Sys2Proof.Machine

/-! PROOF. The family 41_rc4_ksa.md: the rows of RC4KSA, the permutation a key makes, and the two levels of the
command. -/

namespace Sys2Proof.Machine

/-! ## The rows of RC4KSA (R132 to R134) -/

/-- The two additions of the mixing step are additions modulo 256 (R134). -/
theorem ofNat_toNat_add_mod (a b c : Byte) : BitVec.ofNat 8 ((a.toNat + b.toNat + c.toNat) % 256) = a + b + c := by
  apply BitVec.eq_of_toNat_eq
  simp only [BitVec.toNat_ofNat, BitVec.toNat_add]
  omega

theorem AtRow.fillLoop {s : State} (hs : AtRow s .rc4ksa .fill) (n : Nat) :
    AtRow (repeatStep n Machine.fillStep s) .rc4ksa .fill :=
  repeatStep_induct (P := fun _ t => AtRow t .rc4ksa .fill) hs fun _ _ _ ht => ht.fillStep

theorem AtRow.mixLoop {s : State} (hs : AtRow s .rc4ksa .run) (n : Nat) :
    AtRow (repeatStep n Machine.mixStep s) .rc4ksa .run :=
  repeatStep_induct (P := fun _ t => AtRow t .rc4ksa .run) hs fun _ _ _ ht => ht.mixStep

/-- R133: the fill and the step that ends it are 257 engine steps. -/
theorem engineRun_filling {s : State} (hs : AtRow s .rc4ksa .fill) (h0 : s.cnt = 0) :
    engineRun 257 s = .next (fillFinish (repeatStep 256 fillStep s)) :=
  engineRun_loop hs h0 (fun _ => rfl) fillStep_cnt (fun _ ht _ hc => .keyFill ht hc) (fun _ ht _ hc => .keyFillEnd ht hc)

/-- R134: the mixing alone is 256 engine steps. -/
theorem engineRun_mixLoop {s : State} (hs : AtRow s .rc4ksa .run) (h0 : s.cnt = 0) :
    engineRun 256 s = .next (repeatStep 256 mixStep s) := by
  refine engineRun_repeat fun k hk => (EngineRow.keyMix (hs.mixLoop k) ?_).engineStep_eq
  rwa [repeatStep_cnt mixStep_cnt, h0, Nat.zero_add]

/-- Settles O30: each clause is a row of the table, and the last is the fill as a loop of them. -/
theorem keyFillSteps : Obligations.KeyFillSteps := by
  refine ⟨fun s hb hd hop hsub hl => ?_, fun s hb hd hop hsub hl => ?_, fun s hb hd hop hsub hc => ?_,
    fun s hb hd hop hsub hc => ?_, fun s hb hd hop hsub h0 => ?_⟩
  · exact (EngineRow.keyStart ⟨hb, hd, hop, hsub⟩ hl.ne').engineStep_eq
  · exact (EngineRow.keyEmpty ⟨hb, hd, hop, hsub⟩ hl).engineStep_eq
  · exact ⟨_, (EngineRow.keyFill ⟨hb, hd, hop, hsub⟩ hc).engineStep_eq, Memory.get_set _ _ _⟩
  · exact (EngineRow.keyFillEnd ⟨hb, hd, hop, hsub⟩ hc).engineStep_eq
  · obtain ⟨m, hloop, hget⟩ := fillLoop_spec s 256 h0
    refine ⟨m, ?_, fun n hn => by rw [hget, if_pos hn]⟩
    rw [engineRun_filling ⟨hb, hd, hop, hsub⟩ h0, hloop]
    rfl

/-- Settles O31: the row of the mixing step on a written S and key byte, and the exchange on the permutation S holds. -/
theorem keyMixStep : Obligations.KeyMixStep := by
  intro s perm kb hb hd hop hsub hc hS hkey
  have row : EngineRow s (mixStep s) := .keyMix ⟨hb, hd, hop, hsub⟩ hc
  have hn : (BitVec.ofNat 8 s.cnt).toNat = s.cnt := by rw [BitVec.toNat_ofNat, Nat.mod_eq_of_lt hc]
  have hswap := hS.swap (BitVec.ofNat 8 s.cnt) (s.j + perm (BitVec.ofNat 8 s.cnt) + kb)
  rw [hn] at hswap
  rw [ofNat_toNat_add_mod, row.engineStep_eq, mixStep_written (hS.get hc) hkey]
  exact ⟨_, rfl, hswap⟩

/-! ## RC4KSA as a whole (R130, R131, R137, R138) -/

/-- Settles O26: the key check of R138 is a `raise`, which touches no cipher state. -/
theorem emptyKeyRejected : Obligations.EmptyKeyRejected := by
  intro s hb hl
  have empty : EngineRow (s.accept .rc4ksa) ((s.accept .rc4ksa).raise .invalidKey) := .keyEmpty (.accept s _) hl
  rw [← engineRun_rc4ksa_empty hb hl, engineRun_step empty.engineStep_eq]
  rfl

/-- A whole RC4KSA with a key is its set-up, the fill, the mixing and the completion (R130). -/
theorem exec_rc4ksa_eq_loops {s : State} (hb : s.busy = false) (hl : 0 < s.ilen) :
    exec .rc4ksa s = .next (keyFinish (repeatStep 256 mixStep
      (fillFinish (repeatStep 256 fillStep (keySetup (s.accept .rc4ksa)))))) := by
  simp only [exec, execRc4ksa, hb, Bool.false_eq_true, if_false, hl.ne']

/-- A whole RC4KSA on a loaded key: S holds what the key schedule makes of it, and no read was free (R130, R137). -/
theorem exec_rc4ksa_loaded {s : State} {key : Nat → Byte} (hb : s.busy = false) (hl : 0 < s.ilen)
    (hkey : ∀ k < min s.ilen 256, s.ibuf.get k = some (key k)) :
    ∃ t, exec .rc4ksa s = .next t ∧ Holds t.sbox (keySchedule key s.ilen) ∧ t.draws = s.draws := by
  obtain ⟨filled, hfill, hget⟩ := fillLoop_spec (keySetup (s.accept .rc4ksa)) 256 rfl
  have hid : Holds filled id := fun k => by rw [hget, if_pos k.isLt, BitVec.ofNat_toNat, BitVec.setWidth_eq, id]
  obtain ⟨-, -, -, hholds, -, hdraws⟩ :=
    mixLoop_schedule (fillFinish { keySetup (s.accept .rc4ksa) with cnt := 256, sbox := filled }) key rfl hid rfl hl
      hkey 256 le_rfl
  refine ⟨_, exec_rc4ksa_eq_loops hb hl, ?_, ?_⟩
  · rw [keyFinish_sbox, hfill]; exact hholds
  · rw [keyFinish_draws, hfill]; exact hdraws

/-- Settles O27: `exec_rc4ksa_loaded` names the permutation in S, `exec_rc4ksa_eq` gives the other fields. -/
theorem keyScheduleComputesThePermutation : Obligations.KeyScheduleComputesThePermutation := by
  intro s key hb hl hkey
  obtain ⟨t, ht, hholds, hdraws⟩ := exec_rc4ksa_loaded hb hl hkey
  obtain ⟨m, d, he, hperm, -⟩ := exec_rc4ksa_eq hb hl
  cases ht.symm.trans he
  exact ⟨_, he, hholds, hperm, rfl, rfl, rfl, rfl, rfl, rfl, rfl, hdraws⟩

/-- The key schedule depends on the key bytes its steps add and on nothing else (R131). -/
theorem scheduleAfter_congr {key key' : Nat → Byte} {len len' n : Nat}
    (h : ∀ k < n, key (k % len) = key' (k % len')) : scheduleAfter key len n = scheduleAfter key' len' n := by
  induction n with
  | zero => rfl
  | succ n ih =>
    have before := ih fun k hk => h k (Nat.lt_succ_of_lt hk)
    simp only [scheduleAfter, before, h n (Nat.lt_succ_self n)]

/-- Settles O28: both runs leave a key schedule in S, and the two schedules are one. -/
theorem keyBytesUsedCyclically : Obligations.KeyBytesUsedCyclically := by
  intro s u key key' hbs hbu hls hlu hkey hkey' hsame
  obtain ⟨t, ht, hholds, -⟩ := exec_rc4ksa_loaded hbs hls hkey
  obtain ⟨w, hw, hholds', -⟩ := exec_rc4ksa_loaded hbu hlu hkey'
  refine ⟨t, w, ht, hw, fun k hk => ?_⟩
  rw [hholds.get hk, hholds'.get hk, keySchedule, keySchedule, scheduleAfter_congr hsame]

/-! ## The two levels of RC4KSA (R10, R140) -/

/-- An engine that is BUSY after a run was BUSY at every point of it: once idle it stays as it is (R185). -/
theorem engineRun_busy_of_le {s t : State} {m n : Nat} (h : engineRun n s = .next t) (hb : t.busy = true)
    (hm : m ≤ n) : ∃ u, engineRun m s = .next u ∧ u.busy = true := by
  induction m generalizing s n with
  | zero =>
    refine ⟨s, rfl, ?_⟩
    by_contra hidle
    rw [engineRun_idle (Bool.eq_false_iff.mpr hidle)] at h
    cases h
    exact hidle hb
  | succ m ih =>
    obtain ⟨n, rfl⟩ : ∃ k, n = k + 1 := ⟨n - 1, by omega⟩
    obtain ⟨v, hstep, hrest⟩ := exists_engineStep_of_engineRun h
    rw [engineRun_step hstep]
    exact ih hrest (Nat.le_of_succ_le_succ hm)

/-- After 514 engine steps RC4KSA has made its CHECK step, the fill and the mixing, and only completion is left. -/
theorem engineRun_rc4ksa_mixed {s : State} (hl : s.ilen ≠ 0) :
    ∃ t, engineRun 514 (s.accept .rc4ksa) = .next t ∧ AtRow t .rc4ksa .run := by
  have start : EngineRow (s.accept .rc4ksa) (keySetup (s.accept .rc4ksa)) := .keyStart (.accept s _) hl
  have atFill : AtRow (keySetup (s.accept .rc4ksa)) .rc4ksa .fill := (AtRow.accept s _).keySetup
  have atMix := (atFill.fillLoop 256).fillFinish
  refine ⟨_, ?_, atMix.mixLoop 256⟩
  calc engineRun (513 + 1) (s.accept .rc4ksa)
      = engineRun (257 + 256) (keySetup (s.accept .rc4ksa)) := engineRun_step start.engineStep_eq _
    _ = engineRun 256 _ := engineRun_add (engineRun_filling atFill rfl) _
    _ = _ := engineRun_mixLoop atMix rfl

/-- Settles O45: the completion is step 515, and the engine is BUSY just before it, so at every step before. -/
theorem keyScheduleStepsAgree : Obligations.KeyScheduleStepsAgree := by
  refine fun s hb => ⟨fun hl => ⟨engineRun_rc4ksa hb hl.ne', fun m hm => ?_⟩, engineRun_rc4ksa_empty hb⟩
  obtain ⟨t, ht, hrow⟩ := engineRun_rc4ksa_mixed hl.ne'
  exact engineRun_busy_of_le ht hrow.busy (Nat.le_of_lt_succ hm)

end Sys2Proof.Machine

/-! PROOF. The family 42_rc4_prga.md: the byte step, what a whole RC4PRGA leaves, on any S and data and on written
ones, transforms one after another, and the two levels of the command. -/

namespace Sys2Proof.Machine

/-! ## The byte step (R149) -/

/-- The additions of the byte step are additions modulo 256. -/
theorem ofNat_toNat_add_toNat_mod (a b : Byte) : BitVec.ofNat 8 ((a.toNat + b.toNat) % 256) = a + b := by
  simpa using ofNat_toNat_add_mod a b 0#8

/-- Settles O34: the row of the byte step on a written S and data byte; `after` is the exchanged permutation, and the
key byte is the first keystream byte from the cursors the step finds. -/
theorem streamByteStep : Obligations.StreamByteStep := by
  intro s perm d hb hd hop hsub hc hS hdata
  have row : EngineRow s (byteStep s) := .strByte ⟨hb, hd, hop, hsub⟩ hc
  refine ⟨s.i + 1#8, s.j + perm (s.i + 1#8), exchange perm (s.i + 1#8) (s.j + perm (s.i + 1#8)), _, _,
    (ofNat_toNat_add_toNat_mod s.i 1#8).symm, (ofNat_toNat_add_toNat_mod _ _).symm, rfl,
    row.engineStep_eq.trans (congrArg _ (byteStep_written hS hdata)), hS.swap _ _, ?_,
    fun k hk => Memory.get_set_other _ _ hk⟩
  rw [Memory.get_set_same, ofNat_toNat_add_toNat_mod]
  rfl

/-! ## RC4PRGA as a whole, on any S and data (R145, R152, R157) -/

/-- A whole RC4PRGA is its set-up, a byte step for each data byte and the completion (R145). -/
theorem exec_rc4prga_eq_loop {s : State} (hb : s.busy = false) :
    exec .rc4prga s = .next (byteFinish (repeatStep s.ilen byteStep (cursorSetup (s.accept .rc4prga)))) := by
  simp only [exec, execRc4prga, hb, Bool.false_eq_true, if_false]

/-- The set-up writes I, J and SUB (R148). -/
theorem cursorSetup_eq (s : State) :
    cursorSetup s = { s with
      i := if s.cfg.persistCursors then s.i else 0#8
      j := if s.cfg.persistCursors then s.j else 0#8
      sub := .run } := by
  unfold cursorSetup
  split_ifs <;> rfl

/-- Settles O35: with no byte step only acceptance, the set-up and the completion are left. -/
theorem transformOfNothing : Obligations.TransformOfNothing := by
  intro s hb hl
  rw [exec_rc4prga_eq_loop hb, hl, repeatStep_zero]
  congr 1
  apply State.ext <;> simp [hl] <;> rfl

/-- Settles O33: `byteLoop_spec` says what the byte loop can do on any S and data, and the other steps write registers
only. -/
theorem transformFrame : Obligations.TransformFrame := by
  intro s hb
  obtain ⟨m, q, j, d, hloop, hwritten, hrest, habove, -⟩ :=
    byteLoop_spec (cursorSetup (s.accept .rc4prga)) s.ilen (by simp)
  refine ⟨_, exec_rc4prga_eq_loop hb, ?_⟩
  rw [hloop, cursorSetup_eq]
  refine ⟨rfl, rfl, rfl, rfl, rfl, rfl, rfl, rfl, rfl, rfl, rfl, rfl, hwritten, fun k hk => ?_, fun hw k hk => ?_,
    fun hmode => ?_⟩
  · simpa using hrest k hk
  · simpa using (habove (by simpa using hw)).2 k hk
  · apply BitVec.eq_of_toNat_eq; simp [hmode]

/-! ## RC4PRGA as a whole, on a written S and loaded data (R145, R146) -/

/-- Where the cipher starts from the state `s`, S holding `perm` (R148). -/
def cipherStart (s : State) (perm : Byte → Byte) : CipherState :=
  if s.cfg.persistCursors then ⟨perm, s.i, s.j⟩ else ⟨perm, 0#8, 0#8⟩

theorem cipherStart_persist {s : State} (hmode : s.cfg.persistCursors = true) (perm : Byte → Byte) :
    cipherStart s perm = ⟨perm, s.i, s.j⟩ := if_pos hmode

/-- On zero cursors, those a key schedule leaves, the two modes agree. -/
theorem cipherStart_zero {s : State} (hi : s.i = 0#8) (hj : s.j = 0#8) (perm : Byte → Byte) :
    cipherStart s perm = ⟨perm, 0#8, 0#8⟩ := by
  rw [cipherStart, hi, hj, ite_self]

theorem cipherStart_cursorSetup (s : State) (perm : Byte → Byte) :
    ⟨perm, (cursorSetup s).i, (cursorSetup s).j⟩ = cipherStart s perm := by
  rw [cursorSetup_i, cursorSetup_j, cipherStart]
  split_ifs <;> rfl

/-- What a whole RC4PRGA from `s` on the bytes `data` leaves in `t`, the cipher starting at `start`. -/
structure Transformed (s : State) (start : CipherState) (data : Nat → Byte) (t : State) : Prop where
  busy : t.busy = false
  done : t.done = true
  err : t.err = .none
  op : t.op = .rc4prga
  olen : t.olen = s.ilen
  draws : t.draws = s.draws
  output : ∀ p < s.ilen, t.obuf.get p = some (data p ^^^ keystream start p)
  holds : Holds t.sbox (advanceBy s.ilen start).perm
  i : t.i = (advanceBy s.ilen start).i
  j : t.j = (advanceBy s.ilen start).j

/-- On a written S and loaded data RC4PRGA is the cipher, from where it starts (R145). -/
theorem exists_transformed {s : State} {perm : Byte → Byte} {data : Nat → Byte} (hb : s.busy = false)
    (hS : Holds s.sbox perm) (hl : ∀ p < s.ilen, s.ibuf.get p = some (data p)) :
    ∃ t, exec .rc4prga s = .next t ∧ Transformed s (cipherStart s perm) data t := by
  have hop := repeatStep_keeps State.op byteStep_op s.ilen (cursorSetup (s.accept .rc4prga))
  have hilen := repeatStep_keeps State.ilen byteStep_ilen s.ilen (cursorSetup (s.accept .rc4prga))
  obtain ⟨-, -, hholds, hi, hj, hdraws, hout⟩ :=
    byteLoop_cipher (cursorSetup (s.accept .rc4prga)) perm data (by simp) (by simpa using hS) s.ilen (by simpa using hl)
  rw [cipherStart_cursorSetup] at hholds hi hj
  simp only [cipherStart_cursorSetup] at hout
  exact ⟨_, exec_rc4prga_eq_loop hb,
    { busy := rfl, done := rfl, err := rfl, op := by simpa using hop, olen := by simpa using hilen
      draws := by simpa using hdraws, output := hout, holds := hholds, i := hi, j := hj }⟩

/-- Two transforms that start the cipher alike, of data of one length, leave the same S below 256. -/
theorem Transformed.sbox_eq {s u t w : State} {start : CipherState} {data data' : Nat → Byte}
    (h : Transformed s start data t) (h' : Transformed u start data' w) (hl : u.ilen = s.ilen) :
    ∀ k < 256, t.sbox.get k = w.sbox.get k := by
  intro k hk
  rw [h.holds.get hk, h'.holds.get hk, hl]

/-- Settles O32. -/
theorem transformComputesTheKeystream : Obligations.TransformComputesTheKeystream := by
  rintro s perm data start hb hS hl rfl
  obtain ⟨t, ht, h⟩ := exists_transformed hb hS hl
  exact ⟨t, ht, h.olen, h.err, h.busy, h.done, h.op, h.output, h.holds, h.i, h.j, h.draws⟩

/-- Settles O36: the cipher starts in one state in both runs, and that state fixes the keystream and what is left. -/
theorem keystreamIgnoresData : Obligations.KeystreamIgnoresData := by
  intro s u data data' hbs hbu hsched hcfg hilen hi hj hsbox hl hl'
  obtain ⟨perm, hS⟩ := hsched.holds
  have hS' : Holds u.sbox perm := fun k => (hsbox _ k.isLt).trans (hS k)
  have hstart : cipherStart u perm = cipherStart s perm := by simp only [cipherStart, hcfg, hi, hj]
  obtain ⟨t, ht, h⟩ := exists_transformed hbs hS hl
  obtain ⟨w, hw, h'⟩ := exists_transformed hbu hS' (hilen ▸ hl')
  rw [hstart] at h'
  refine ⟨t, w, keystream (cipherStart s perm), ht, hw, ?_, ?_, h.sbox_eq h' hilen, h.output, hilen ▸ h'.output,
    fun p hp hzero => ?_⟩
  · rw [h.i, h'.i, hilen]
  · rw [h.j, h'.j, hilen]
  · rw [h.output p hp, hzero, BitVec.zero_xor]

/-! ## Transforms one after another (R154, R155) -/

/-- RC4PRGA after a key schedule: the cursors are zero, so in either mode the cipher starts from the key alone. -/
theorem exists_transformed_after_key {s t u : State} {key data : Nat → Byte} (hb : s.busy = false) (hpos : 0 < s.ilen)
    (hkey : ∀ k < min s.ilen 256, s.ibuf.get k = some (key k)) (ht : exec .rc4ksa s = .next t) (hbu : u.busy = false)
    (hsbox : u.sbox = t.sbox) (hi : u.i = t.i) (hj : u.j = t.j) (hl : ∀ p < u.ilen, u.ibuf.get p = some (data p)) :
    ∃ c, exec .rc4prga u = .next c ∧ Transformed u ⟨keySchedule key s.ilen, 0#8, 0#8⟩ data c := by
  obtain ⟨t', ht', hholds, -, hi0, hj0, -⟩ := keyScheduleComputesThePermutation s key hb hpos hkey
  cases ht.symm.trans ht'
  rw [← cipherStart_zero (hi.trans hi0) (hj.trans hj0)]
  exact exists_transformed hbu (hsbox ▸ hholds) hl

/-- Settles O37: both transforms start the cipher from the same key, so the second adds the keystream of the first once
more. -/
theorem transformIsItsOwnInverse : Obligations.TransformIsItsOwnInverse := by
  intro s key data n hbs hpos hkey
  obtain ⟨t, ht, -⟩ := exec_rc4ksa_loaded hbs hpos hkey
  refine ⟨t, ht, fun u hbu _ hsbox hi hj hn hl => ?_⟩
  subst hn
  obtain ⟨c, hc, h⟩ := exists_transformed_after_key hbs hpos hkey ht hbu hsbox hi hj hl
  refine ⟨c, hc, fun v hbv _ hvlen hkey' => ?_⟩
  rw [← hvlen] at hpos hkey' h
  obtain ⟨w, hw, -⟩ := exec_rc4ksa_loaded hbv hpos hkey'
  refine ⟨w, hw, fun x hbx _ hsbox' hi' hj' hxlen hcarried => ?_⟩
  rw [h.olen] at hxlen
  have cipher : ∀ p < x.ilen, x.ibuf.get p = some (data p ^^^ keystream ⟨keySchedule key v.ilen, 0#8, 0#8⟩ p) :=
    fun p hp => (hcarried p (hxlen ▸ hp)).trans (h.output p (hxlen ▸ hp))
  obtain ⟨r, hr, h'⟩ := exists_transformed_after_key hbv hpos hkey' hw hbx hsbox' hi' hj' cipher
  refine ⟨r, hr, h'.olen.trans hxlen, fun p hp => ?_⟩
  rw [h'.output p (hxlen ▸ hp), BitVec.xor_assoc, BitVec.xor_self, BitVec.xor_zero]

/-- Settles O38: the second transform starts the cipher where the first left it, `a` bytes on from the start. -/
theorem persistentCursorsContinue : Obligations.PersistentCursorsContinue := by
  intro s data a b hbs hmode hilen hsched hl
  obtain ⟨perm, hS⟩ := hsched.holds
  obtain ⟨t, ht, h⟩ := exists_transformed hbs hS (hilen ▸ hl)
  obtain ⟨t1, ht1, h1⟩ := exists_transformed (s := { s with ilen := a }) hbs hS
    (fun p hp => hl p (Nat.lt_add_right b hp))
  have hstart : cipherStart { s with ilen := a } perm = cipherStart s perm := rfl
  rw [hstart] at h1
  refine ⟨t, t1, ht, ht1, fun u hbu hcfg hsbox hi hj hub hlu => ?_⟩
  obtain ⟨t2, ht2, h2⟩ := exists_transformed hbu (hsbox ▸ h1.holds) (hub ▸ hlu)
  have hnext : cipherStart u (advanceBy a (cipherStart s perm)).perm = advanceBy a (cipherStart s perm) := by
    rw [cipherStart_persist (hcfg ▸ hmode), hi, hj, h1.i, h1.j]
  have hend : advanceBy u.ilen (advanceBy a (cipherStart s perm)) = advanceBy s.ilen (cipherStart s perm) := by
    rw [hub, hilen, advanceBy_add]
  rw [hnext] at h2
  refine ⟨t2, ht2, ?_, ?_, fun k hk => ?_, fun p hp => ?_, fun p hp => ?_⟩
  · rw [h2.i, h.i, hend]
  · rw [h2.j, h.j, hend]
  · rw [h2.holds.get hk, h.holds.get hk, hend]
  · rw [h1.output p hp, h.output p (by omega)]
  · rw [h2.output p (hub ▸ hp), h.output (a + p) (by omega), keystream_add]

/-! ## The two levels of RC4PRGA (R10, R158) -/

theorem AtRow.byteLoop {s : State} (hs : AtRow s .rc4prga .run) (n : Nat) :
    AtRow (repeatStep n Machine.byteStep s) .rc4prga .run :=
  repeatStep_induct (P := fun _ t => AtRow t .rc4prga .run) hs fun _ _ _ ht => ht.byteStep

/-- After `ILEN + 1` engine steps RC4PRGA has made its CHECK step and every byte step, and only completion is left. -/
theorem engineRun_rc4prga_streamed (s : State) :
    ∃ t, engineRun (s.ilen + 1) (s.accept .rc4prga) = .next t ∧ AtRow t .rc4prga .run := by
  have start : EngineRow (s.accept .rc4prga) (cursorSetup (s.accept .rc4prga)) := .strStart (.accept s _)
  have atRun := (AtRow.accept s .rc4prga).cursorSetup
  refine ⟨_, engineRun_trace start.engineStep_eq (n := s.ilen) (fun k hk => ?_) s.ilen le_rfl, atRun.byteLoop s.ilen⟩
  refine (EngineRow.strByte (atRun.byteLoop k) ?_).engineStep_eq
  rw [repeatStep_cnt byteStep_cnt, repeatStep_keeps State.ilen byteStep_ilen]
  simpa using hk

/-- Settles O46: the completion is the last step, and the engine is BUSY just before it, so at every step before. -/
theorem transformStepsAgree : Obligations.TransformStepsAgree := by
  refine fun s hb => ⟨engineRun_rc4prga hb, fun m hm => ?_⟩
  obtain ⟨t, ht, hrow⟩ := engineRun_rc4prga_streamed s
  exact engineRun_busy_of_le ht hrow.busy (Nat.le_of_lt_succ hm)

end Sys2Proof.Machine

/-! PROOF. The family 60_exceptions.md: what an error leaves, what writes the flags, and what a command's result depends
on. -/

namespace Sys2Proof.Machine

/-! ## An error step (R175) -/

/-- Settles O42: the invariant has ERR clear while BUSY, so an error reported after the step is one the step raised. -/
theorem errorWritesOnlyItsReport : Obligations.ErrorWritesOnlyItsReport := by
  intro s t h hb hstep herr
  obtain ⟨-, hclear, -⟩ := h.busy_clear hb
  obtain ⟨-, -, -, -, -, -, -, -, hkept | hnone | hreport⟩ := engineStep_cases hb hstep
  · exact absurd (hkept.trans hclear) herr
  · exact absurd hnone herr
  · exact hreport

/-! ## The flags, turn by turn (R180) -/

/-- The flags of R180 are the same in two states. -/
def SameFlags (s t : State) : Prop := t.busy = s.busy ∧ t.done = s.done ∧ t.err = s.err ∧ t.op = s.op

/-- The next step is an acceptance, a whole command, the reset or a step of a BUSY engine: no other writes a flag. -/
def MayWriteFlags (s : State) : Prop :=
  match s.script with
  | [] => s.busy = true
  | .read _ :: _ => False
  | .write p _ :: _ => p = .csr .cmd ∧ s.busy = false
  | .run _ :: _ => s.busy = false
  | .wait :: _ => s.busy = true
  | .reset :: _ => True
  | .engine :: _ => s.busy = true

theorem sameFlags_of_step {s t : State} (ht : step s = .next t) (h : ¬ MayWriteFlags s) : SameFlags s t := by
  obtain ⟨hb, -, -, hs | ⟨r, hs⟩ | ⟨r, hs⟩⟩ | ⟨sc, r, d, rfl⟩ | ⟨v, rest, hb, hs, -⟩ | ⟨v, rest, -, -, rfl⟩
    | ⟨k, v, rest, -, -, rfl⟩ | ⟨v, rest, hb, hs, -⟩ | ⟨rest, hs, -⟩ := step_cases ht
  · exact absurd (by simp [MayWriteFlags, hs, hb]) h
  · exact absurd (by simp [MayWriteFlags, hs, hb]) h
  · exact absurd (by simp [MayWriteFlags, hs, hb]) h
  · exact ⟨rfl, rfl, rfl, rfl⟩
  · exact absurd (by simp [MayWriteFlags, hs, hb]) h
  · exact ⟨rfl, rfl, rfl, rfl⟩
  · exact ⟨rfl, rfl, rfl, rfl⟩
  · exact absurd (by simp [MayWriteFlags, hs, hb]) h
  · exact absurd (by simp [MayWriteFlags, hs]) h

/-- A step of a BUSY engine leaves OP, and leaves the other flags or completes (R80, R180). -/
theorem engineStep_flags {s t : State} (h : Inv s) (hb : s.busy = true) (ht : engineStep s = .next t) :
    t.op = s.op ∧ ((t.busy = true ∧ t.done = false ∧ t.err = .none) ∨ (t.busy = false ∧ t.done = true)) := by
  obtain ⟨-, hclear, -⟩ := h.busy_clear hb
  obtain ⟨-, -, -, -, -, hop, -, ⟨hbusy, hdone, herr, -⟩ | hcomplete, -⟩ := engineStep_cases hb ht
  · exact ⟨hop, .inl ⟨hbusy, hdone, herr.trans hclear⟩⟩
  · exact ⟨hop, .inr hcomplete⟩

theorem step_of_reset {s : State} {rest : List Turn} (hs : s.script = .reset :: rest) :
    step s = .next { s with script := rest }.resetInput := by simp [step, fetch, hs]

/-- Settles O54: `sameFlags_of_step` covers the turns that write no flag; of the others an acceptance and the reset are
written out, a whole command completes with OP its own, and the rest are steps of the engine. -/
theorem whatWritesTheFlags : Obligations.WhatWritesTheFlags := by
  intro s t h ht
  refine ⟨fun p rest hs => ?read, fun p v rest hs hne => ?write, fun v rest hs hb => ?accept, fun rest hs => ?reset,
    fun v rest hs hb => ?run, fun v rest hs hb => ?runBusy, fun hs hb => ?idle, fun hs hb => ?engine,
    fun u hb hu => engineStep_flags h hb hu⟩
  case read => exact sameFlags_of_step ht (by simp [MayWriteFlags, hs])
  case write => exact sameFlags_of_step ht (by simpa [MayWriteFlags, hs, imp_iff_not_or] using hne)
  case accept =>
    cases ht.symm.trans ((step_of_write hs).trans (hostWrite_cmd hb))
    exact ⟨rfl, rfl, rfl, rfl⟩
  case reset =>
    cases ht.symm.trans (step_of_reset hs)
    exact ⟨rfl, rfl, rfl, rfl⟩
  case run =>
    have herr := (stepKeepsInvariant s t h ht).err_ok
    rw [step_of_run hs hb] at ht
    obtain ⟨w, hw, hbusy, hdone⟩ := exec_completes (s := { s with script := .wait :: rest }) hb (commandOf v)
    cases ht.symm.trans hw
    obtain ⟨-, -, -, -, -, hop, -⟩ := exec_kept hw hb
    exact ⟨hbusy, hdone, hop, herr⟩
  case runBusy => exact sameFlags_of_step ht (by simp [MayWriteFlags, hs, hb])
  case idle =>
    refine sameFlags_of_step ht ?_
    obtain hs | ⟨rest, hs | hs⟩ := hs <;> simp [MayWriteFlags, hs, hb]
  case engine =>
    obtain hs | ⟨rest, hs | hs⟩ := hs
    · exact engineStep_flags h hb ((step_of_empty hs).symm.trans ht)
    · exact engineStep_flags h hb ((step_of_wait_busy hs hb).symm.trans ht)
    · have he : engineStep { s with script := rest } = .next t := (step_of_engine hs).symm.trans ht
      exact engineStep_flags (s := { s with script := rest }) (h.host rest s.reads s.draws) hb he

/-! ## What a command's result depends on (R44, R177) -/

/-- From every state not BUSY with the parameters `c` and the input `b` of `n` octets loaded, command `i` ends with the
error `e` and the length `len`, and if it is a Base64 command with the output `out`. -/
def ResultIs (i : Instr) (c : Config) (n : Nat) (b : Nat → Byte) (e : ErrCode) (len : Nat) (out : Nat → Option Byte) :
    Prop :=
  ∀ s : State, s.busy = false → s.cfg = c → s.ilen = n → (∀ k < n, s.ibuf.get k = some (b k)) →
    ∃ t, exec i s = .next t ∧ t.err = e ∧ t.olen = len
      ∧ (i = .b64enc ∨ i = .b64dec → ∀ k < len, t.obuf.get k = out k)

/-- The text B64ENC makes of the input `b` of `n` octets, by index (R100). -/
def encodedText (c : Config) (n : Nat) (b : Nat → Byte) (k : Nat) : Option Byte :=
  (groupText c (groupValue b n (k / 4)) (groupSize n (k / 4)))[k % 4]?

/-- The bytes B64DEC makes of the text `b`, by index (R110). -/
def decodedBytes (c : Config) (b : Nat → Byte) (k : Nat) : Option Byte :=
  (unpackText c (textGroup b (k / 3))).map fun v => byteOf v (k % 3)

section
variable (c : Config) (n : Nat) (b : Nat → Byte)

theorem resultIs_b64enc : ResultIs .b64enc c n b .none (4 * ((n + 2) / 3)) (encodedText c n b) := by
  rintro s hb rfl rfl hl
  obtain ⟨t, v, he, h⟩ := exists_encoded hb
  refine ⟨t, he, h.err, h.olen, fun _ k hk => ?_⟩
  rw [encodedText, ← h.text_loaded hl (by omega) (Nat.mod_lt k (by omega)), Nat.div_add_mod]

theorem resultIs_b64dec_badLength (hn : n = 0 ∨ n % 4 ≠ 0) : ResultIs .b64dec c n b .invalidLength 0 fun _ => none := by
  rintro s hb rfl rfl -
  exact ⟨_, exec_b64dec_badLength hb hn, rfl, rfl, fun _ _ hk => absurd hk (Nat.not_lt_zero _)⟩

theorem resultIs_b64dec_badText (hne : n ≠ 0) (hmod : n % 4 = 0)
    (hbad : ∃ g < n / 4, unpackText c (textGroup b g) = none) :
    ResultIs .b64dec c n b .invalidCharacter 0 fun _ => none := by
  rintro s hb rfl rfl hl
  obtain ⟨t, he, -, -, -, hinvalid, -⟩ := exec_b64dec_loaded hb hne hmod hl
  obtain ⟨herr, holen⟩ := hinvalid hbad
  exact ⟨t, he, herr, holen, fun _ _ hk => absurd hk (Nat.not_lt_zero _)⟩

theorem resultIs_b64dec_valid (hne : n ≠ 0) (hmod : n % 4 = 0)
    (hall : ∀ g < n / 4, (unpackText c (textGroup b g)).isSome) :
    ResultIs .b64dec c n b .none (decodedLength b n) (decodedBytes c b) := by
  rintro s hb rfl rfl hl
  obtain ⟨t, he, -, -, -, -, hvalid⟩ := exec_b64dec_loaded hb hne hmod hl
  obtain ⟨herr, holen, hbytes⟩ := hvalid hall
  refine ⟨t, he, herr, holen, fun _ k hk => ?_⟩
  have hgroup : k / 3 < s.ilen / 4 := by rw [decodedLength, decodeGroups] at hk; omega
  obtain ⟨v, hv, hget⟩ := hbytes (k / 3) hgroup
  have hk3 := hget (k % 3) (Nat.mod_lt k (by omega)) (by rw [Nat.div_add_mod, holen]; exact hk)
  rw [Nat.div_add_mod] at hk3
  rw [hk3, decodedBytes, hv, Option.map_some]

theorem resultIs_rc4ksa (hn : 0 < n) : ResultIs .rc4ksa c n b .none 0 fun _ => none := by
  rintro s hb rfl rfl -
  obtain ⟨t, he, -, herr, holen, -⟩ := keyScheduleFrame s hb hn
  exact ⟨t, he, herr, holen, nofun⟩

theorem resultIs_rc4ksa_empty : ResultIs .rc4ksa c 0 b .invalidKey 0 fun _ => none := by
  rintro s hb rfl hn -
  exact ⟨_, emptyKeyRejected s hb hn, rfl, rfl, nofun⟩

theorem resultIs_rc4prga : ResultIs .rc4prga c n b .none n fun _ => none := by
  rintro s hb rfl rfl -
  obtain ⟨t, he, herr, holen, -⟩ := transformFrame s hb
  exact ⟨t, he, herr, holen, nofun⟩

/-- The parameters and the input fix the result of every command. -/
theorem exists_resultIs (i : Instr) : ∃ e len out, ResultIs i c n b e len out := by
  cases i with
  | b64enc => exact ⟨_, _, _, resultIs_b64enc c n b⟩
  | b64dec =>
    by_cases hlen : n = 0 ∨ n % 4 ≠ 0
    · exact ⟨_, _, _, resultIs_b64dec_badLength c n b hlen⟩
    · by_cases hbad : ∃ g < n / 4, unpackText c (textGroup b g) = none
      · exact ⟨_, _, _, resultIs_b64dec_badText c n b (by omega) (by omega) hbad⟩
      · refine ⟨_, _, _, resultIs_b64dec_valid c n b (by omega) (by omega) fun g hg => ?_⟩
        exact Option.isSome_iff_ne_none.mpr fun hnone => hbad ⟨g, hg, hnone⟩
  | rc4ksa =>
    obtain rfl | hn := n.eq_zero_or_pos
    · exact ⟨_, _, _, resultIs_rc4ksa_empty c b⟩
    · exact ⟨_, _, _, resultIs_rc4ksa c n b hn⟩
  | rc4prga => exact ⟨_, _, _, resultIs_rc4prga c n b⟩

end

/-- A loaded input is a list of octets (R205). -/
theorem InputLoaded.exists_bytes {s : State} (h : InputLoaded s) :
    ∃ b : Nat → Byte, ∀ k < s.ilen, s.ibuf.get k = some (b k) :=
  ⟨fun k => (s.ibuf.get k).get!, fun k hk => (Option.some_get! _ (h k hk)).symm⟩

/-- Settles O57: both states have the parameters and the input, and `exists_resultIs` says that these fix the result. -/
theorem resultDependsOnInputOnly : Obligations.ResultDependsOnInputOnly := by
  intro s u i hbs hbu hloaded hcfg hilen hibuf
  obtain ⟨b, hb⟩ := hloaded.exists_bytes
  obtain ⟨e, len, out, hresult⟩ := exists_resultIs s.cfg s.ilen b i
  obtain ⟨t, ht, herr, holen, hout⟩ := hresult s hbs rfl rfl hb
  obtain ⟨w, hw, herr', holen', hout'⟩ := hresult u hbu hcfg hilen fun k hk => (hibuf k hk).trans (hb k hk)
  refine ⟨t, w, ht, hw, herr.trans herr'.symm, holen.trans holen'.symm, fun hbase k hk => ?_⟩
  rw [holen] at hk
  rw [hout hbase k hk, hout' hbase k hk]

end Sys2Proof.Machine

/-! PROOF. The family 70_reset_and_hazards.md: the reset input, the duties of the host, and the bound on the steps of a
command. -/

namespace Sys2Proof.Machine

/-! ## A host that keeps its duties (R204 to R208) -/

/-- On a block that is not BUSY no duty is owed for a running command. -/
theorem DutiesKept.of_idle {s : State} (hb : s.busy = false) : DutiesKept s :=
  fun h => absurd (hb.symm.trans h) Bool.false_ne_true

/-- The step of a ready command reads written entries only: its input is loaded, the invariant has the S-box of a key
schedule that mixes written, and RC4PRGA was started on a permutation. -/
theorem EngineRow.draws_eq {s t : State} (r : EngineRow s t) (h : Inv s) (hready : Ready s s.op) :
    t.draws = s.draws := by
  obtain ⟨hinput, hsbox⟩ := hready
  obtain ⟨b, hb⟩ := hinput.exists_bytes
  cases r with
  | encGroup hs hc => rw [encodeStep_loaded hb hc]
  | decStart hs hl =>
    have hlen := (lengthBad_eq_false s.ilen).mp hl
    rw [decodeSetup_loaded hb (by omega)]
  | decGroup v hs hc | decBadText hs hc =>
    have hg : 4 * s.cnt + 3 < s.ilen := by rw [decodeGroups] at hc; omega
    rw [State.readText_loaded hb hg]
    rfl
  | keyMix hs hc =>
    obtain ⟨hpos, -, hperm⟩ := hs.sequencerOk_mix.mp (h.sequencer_ok hs.busy)
    obtain ⟨perm, hS⟩ := hperm.holds
    rw [mixStep_written (hS.get hc) (hb _ (Nat.mod_lt _ hpos))]
  | strStart => exact cursorSetup_draws s
  | strByte hs hc =>
    obtain ⟨perm, hS⟩ := (hsbox hs.op).holds
    rw [byteStep_written hS (hb _ hc)]
  | encStart | encEnd | decBadLength | decEnd | keyEmpty | keyStart | keyFill | keyFillEnd | keyEnd | strEnd => rfl

/-- The step of a ready command leaves it ready: the input stays, and RC4PRGA keeps a permutation. -/
theorem EngineRow.keeps_ready {s t : State} (r : EngineRow s t) (h : Ready s s.op) : Ready t t.op := by
  obtain ⟨hinput, hsbox⟩ := h
  obtain ⟨-, hibuf, hilen, -, -, hop, -⟩ := engineStep_kept r.engineStep_eq
  refine ⟨fun k hk => ?_, fun hprga => ?_⟩
  · rw [hibuf]; exact hinput k (hilen ▸ hk)
  · rw [hop] at hprga
    exact r.keeps_scheduled hprga (hsbox hprga)

/-- What R204 claims of a step from `s` to `t`: it draws no free value, and the duties are kept at `t`. -/
def NoFreeValue (s t : State) : Prop := t.draws = s.draws ∧ DutiesKept t

theorem engineStep_noFreeValue {s t : State} (ht : engineStep s = .next t) (h : Inv s) (hk : DutiesKept s) :
    NoFreeValue s t := by
  cases hb : s.busy with
  | false => rw [engineStep_idle hb] at ht; cases ht; exact ⟨rfl, hk⟩
  | true =>
    have row := engineRow_of_engineStep hb ht
    exact ⟨row.draws_eq h (hk hb), fun _ => row.keeps_ready (hk hb)⟩

/-- A whole command started when ready draws no free value: it is a run of engine steps, each from a state of the
invariant that keeps the duties. -/
theorem exec_noFreeValue {s t : State} {i : Instr} (ht : exec i s = .next t) (hb : s.busy = false) (h : Inv s)
    (hready : Ready s i) : NoFreeValue s t := by
  have run : Inv t ∧ NoFreeValue s t := by
    refine exec_induct (P := fun u => Inv u ∧ NoFreeValue s u) ?_ ht hb ⟨h.accept i, rfl, fun _ => hready⟩
    rintro u w hu ⟨hinv, hdraws, hkept⟩
    obtain ⟨hdraws', hkept'⟩ := engineStep_noFreeValue hu hinv hkept
    exact ⟨engineStep_keeps_inv hu hinv, hdraws'.trans hdraws, hkept'⟩
  exact run.2

/-- A read of a port that has a value draws none (R60). -/
theorem noFreeValue_of_read {s t : State} {p : Port} {rest : List Turn} (hs : s.script = .read p :: rest)
    (hv : (s.portValue p).isSome) (hk : DutiesKept s) (ht : step s = .next t) : NoFreeValue s t := by
  obtain ⟨v, hv⟩ := Option.isSome_iff_exists.mp hv
  cases hr : p.inRange s.cfg with
  | false => cases ht.symm.trans ((indexOutsideTheSpaceFaults s p 0 rest hr).1 hs)
  | true => cases ht.symm.trans (step_of_read_value hs hr hv); exact ⟨rfl, hk⟩

/-- A write on a block that is not BUSY draws no value, and starts a command only when CMD is written (R58). -/
theorem hostWrite_noFreeValue {s t : State} {p : Port} {v : Nat} (ht : hostWrite s p v = .next t)
    (hb : s.busy = false) (hready : p = .csr .cmd → Ready s (commandOf v)) : NoFreeValue s t := by
  cases hr : p.inRange s.cfg with
  | false => simp [hostWrite, hr] at ht
  | true =>
    cases p with
    | csr r =>
      cases r with
      | cmd => cases ht.symm.trans (hostWrite_cmd hb); exact ⟨rfl, fun _ => hready rfl⟩
      | ilen => cases ht.symm.trans (hostWrite_ilen hb); exact ⟨rfl, .of_idle hb⟩
      | status | olen => cases ht.symm.trans (hostWrite_readOnly hr nofun nofun nofun); exact ⟨rfl, .of_idle hb⟩
    | ibuf k => cases ht.symm.trans (hostWrite_ibuf hr hb); exact ⟨rfl, .of_idle hb⟩
    | obuf k | sbox k => cases ht.symm.trans (hostWrite_readOnly hr nofun nofun nofun); exact ⟨rfl, .of_idle hb⟩

/-- A WAIT on a block in IDLE polls on (R77). -/
theorem step_of_wait_idle {s : State} {rest : List Turn} (hs : s.script = .wait :: rest) (hb : s.busy = false)
    (hd : s.done = false) : step s = .next s := by
  simp [step, fetch, hs, hb, hd]

/-- Settles O58: an engine step and a whole command of a ready command read written entries only, a command starts only
when ready, and a read that keeps the duties has a value to note. -/
theorem dutiesKeptNeedNoFreeValue : Obligations.DutiesKeptNeedNoFreeValue := by
  intro s t h hk hduty ht
  cases hs : s.script with
  | nil => exact engineStep_noFreeValue ((step_of_empty hs).symm.trans ht) h hk
  | cons turn rest =>
    have hturn := hduty turn rest hs
    have hrest : Inv { s with script := rest } := h.host rest s.reads s.draws
    cases turn with
    | read p => exact noFreeValue_of_read hs hturn hk ht
    | write p v =>
      obtain ⟨hb, hready⟩ := hturn
      exact hostWrite_noFreeValue (s := { s with script := rest }) ((step_of_write hs).symm.trans ht) hb hready
    | run v =>
      obtain ⟨hb, hready⟩ := hturn
      exact exec_noFreeValue (s := { s with script := .wait :: rest }) ((step_of_run hs hb).symm.trans ht) hb
        (h.host _ s.reads s.draws) hready
    | wait =>
      cases hb : s.busy with
      | true => exact engineStep_noFreeValue ((step_of_wait_busy hs hb).symm.trans ht) h hk
      | false =>
        cases hd : s.done with
        | true => cases ht.symm.trans (step_of_wait_done hs hb hd); exact ⟨rfl, hk⟩
        | false => cases ht.symm.trans (step_of_wait_idle hs hb hd); exact ⟨rfl, hk⟩
    | reset => cases ht.symm.trans (step_of_reset hs); exact ⟨rfl, .of_idle rfl⟩
    | engine =>
      exact engineStep_noFreeValue (s := { s with script := rest }) ((step_of_engine hs).symm.trans ht) hrest hk

/-! ## The steps a command has left (R217, R219) -/

/-- The passes of the main loop of the command OP names (R80). -/
def loopPasses (s : State) : Nat :=
  match s.op with
  | .b64enc => encodeGroups s.ilen
  | .b64dec => decodeGroups s.ilen
  | .rc4ksa => 256
  | .rc4prga => s.ilen

/-- How many steps of the engine the running command has left at most: after CHECK the fill of RC4KSA, if there is one,
and after that the main loop and the completion. -/
def stepsLeft (s : State) : Nat :=
  match s.op, s.sub with
  | .rc4ksa, .check => 515
  | _, .check => loopPasses s + 2
  | _, .fill => 256 - s.cnt + 258
  | _, .run => loopPasses s - s.cnt + 1

theorem stepsLeft_le (s : State) : stepsLeft s ≤ max (s.ilen + 2) 515 := by
  have hpasses : loopPasses s ≤ max s.ilen 256 := by
    unfold loopPasses encodeGroups decodeGroups
    split <;> omega
  unfold stepsLeft
  split <;> omega

theorem stepsLeft_pos (s : State) : 0 < stepsLeft s := by
  unfold stepsLeft
  split <;> omega

/-- A row completes the command or leaves fewer steps to make: the last rows complete, a pass of a loop raises CNT below
the loop's bound, and the others go on to the next sub-phase. -/
theorem EngineRow.completes_or_stepsLeft_lt {s t : State} (r : EngineRow s t) :
    (t.busy = false ∧ t.done = true) ∨ (t.busy = true ∧ stepsLeft t < stepsLeft s) := by
  cases r with
  | encEnd | decBadLength | decBadText | decEnd | keyEmpty | keyEnd | strEnd => exact .inl ⟨rfl, rfl⟩
  | encStart hs | decStart hs | strStart hs | keyFillEnd hs =>
    exact .inr ⟨by simp [hs.busy], by simp [stepsLeft, loopPasses, hs.op, hs.sub]⟩
  | keyStart hs => exact .inr ⟨by simp [hs.busy], by simp [stepsLeft, hs.op, hs.sub]; omega⟩
  | encGroup hs | decGroup _ hs | keyFill hs | keyMix hs | strByte hs =>
    exact .inr ⟨by simp [hs.busy], by simp [stepsLeft, loopPasses, hs.op, hs.sub]; omega⟩

/-- A BUSY engine completes within the steps it has left. -/
theorem Inv.exists_engineRun_completes {n : Nat} {s : State} (h : Inv s) (hb : s.busy = true) (hn : stepsLeft s ≤ n) :
    ∃ m ≤ n, ∃ t, engineRun m s = .next t ∧ t.busy = false ∧ t.done = true := by
  induction n generalizing s with
  | zero => exact absurd hn (Nat.not_le.mpr (stepsLeft_pos s))
  | succ n ih =>
    obtain ⟨u, hu⟩ := busyEngineHasARow s h hb
    obtain hend | ⟨hbusy, hlt⟩ := (engineRow_of_engineStep hb hu).completes_or_stepsLeft_lt
    · exact ⟨1, Nat.succ_pos n, u, engineRun_step hu 0, hend⟩
    · obtain ⟨m, hm, t, ht, hend⟩ := ih (engineStep_keeps_inv hu h) hbusy (by omega)
      exact ⟨m + 1, Nat.succ_le_succ hm, t, (engineRun_step hu m).trans ht, hend⟩

/-- Settles O52: `stepsLeft` is a measure that every row lowers, and it is never above the bound. -/
theorem everyCommandCompletes : Obligations.EveryCommandCompletes :=
  fun s h hb => h.exists_engineRun_completes hb (stepsLeft_le s)

/-! ## The reset input (R45, R200) -/

theorem State.resetInput_status (s : State) : s.resetInput.status = 0x00#8 := by
  simp [State.status, opcode, errNumber]

/-- Settles O11: the step answers `State.resetInput`, which writes every register out and empties the memories. -/
theorem resetInputValues : Obligations.ResetInputValues := fun _ _ hs =>
  ⟨_, step_of_reset hs, rfl, rfl, rfl, rfl, rfl, rfl, rfl, rfl, rfl, rfl, rfl, rfl, fun _ => rfl, fun _ => rfl,
    fun _ => rfl, rfl, State.resetInput_status _, rfl, rfl, rfl⟩

end Sys2Proof.Machine
